-- ==== Sys2Proof/Word.lean ====
section
/-! DEFINITION. The word types of the block: what the spec treats as bits (00_scope.md R9), and the carrier of
`NUMERIC` (00_scope.md R6, R11: IEEE 754 binary64). The arithmetic on reals is in Machine/Numeric.lean. -/

namespace Sys2Proof

/-- `u8` (R9). -/
abbrev Byte := BitVec 8

/-- `u16` (R9): a CRC value. -/
abbrev Word16 := BitVec 16

/-- `u40` (R9): the forming sync word. -/
abbrev Word40 := BitVec 40

/-- A `NUMERIC` value: a binary64 bit pattern (sign in bit 63, exponent in 62:52, fraction in 51:0). -/
structure Real64 where
  bits : BitVec 64
deriving DecidableEq, Repr, Inhabited

end Sys2Proof
end

