-- ==== Sys2Proof/Config.lean ====
section
/-! DEFINITION. What is fixed for a machine and what the spec leaves free.

`Params` holds the implementation parameters of 00_scope.md R6 that "a model takes as arguments" and that are plain
data; they stand in State and no operation writes them. The `opaque` constants below are the values the spec leaves
open: nothing in Lean can evaluate them. The fixed literals of R6 are in Machine/Constants.lean. -/

namespace Sys2Proof

/-- `BITLEN = FE / 1200 = 40` (R6): the length of each circular buffer. -/
abbrev BITLEN : Nat := 40

/-- Which pair of configuration functions `SIN`, `COS` is in force (R6, R11; 92_eei_decisions.md D2): the reference
pair, or any other pair, by number. -/
inductive Trig where
  | reference
  | other (n : Nat)
deriving DecidableEq, Repr

/-- The implementation parameters that are plain data (R6). -/
structure Params where
  /-- `D` (DOWNSAMPLE), at least 1. -/
  downsample : Nat
  /-- `INTEG_LEN`, the number of entries the slicer's integrator sums. -/
  integLen : Nat
  /-- `SIN` and `COS`. -/
  trig : Trig
deriving DecidableEq, Repr

/-- The reference values of R6: `D = 21`, `INTEG_LEN = BITLEN`, the reference `SIN` and `COS`. -/
def Params.ref : Params := { downsample := 21, integLen := BITLEN, trig := .reference }

/-- `SIN` of the n-th configuration other than the reference: free (log 2). -/
opaque Config.otherSin : Nat → Real64 → Real64

/-- `COS` of the n-th configuration other than the reference: free (log 2). -/
opaque Config.otherCos : Nat → Real64 → Real64

/-- The integer `trunc` gives for a NaN: the spec states none (R86, R87), so it is free (log 19). -/
opaque Config.truncNaN : Real64 → Int

/-- `BLOCK_BYTES` (R6): OPEN, given or not. No rule depends on it (93_implementation_defined.md I7); it is only a
premise on the host, in Safety.lean (log 23). -/
opaque Config.blockBytes : Option Nat

end Sys2Proof
end

