-- ==== Sys2Proof/Machine/Numeric.lean ====
section
/-! DEFINITION. `NUMERIC`: IEEE 754 binary64 arithmetic, round to nearest, ties to even (00_scope.md R6, R11;
92_eei_decisions.md D2).

Every finite value is a whole number of units of 2^-1074. An operation computes its exact result as a non-negative
rational number of units and rounds it once (`roundUnits`). A NaN result is the one pattern `Real64.nan` (log 1). -/

namespace Sys2Proof

/-- The bits below the sign: the magnitude, ordered as the values are. -/
def Real64.mag (x : Real64) : Nat := x.bits.toNat % 2 ^ 63

/-- The sign bit. -/
def Real64.negative (x : Real64) : Bool := decide (2 ^ 63 ≤ x.bits.toNat)

/-- The magnitude of infinity: exponent field all ones, fraction 0. -/
def infMag : Nat := 0x7FF0000000000000

/-- NaN: exponent field all ones, fraction not 0. -/
def Real64.isNaN (x : Real64) : Bool := decide (infMag < x.mag)

/-- Plus or minus infinity. -/
def Real64.isInf (x : Real64) : Bool := decide (x.mag = infMag)

/-- Neither infinite nor NaN. -/
def Real64.isFinite (x : Real64) : Bool := decide (x.mag < infMag)

/-- Plus or minus 0. -/
def Real64.isZero (x : Real64) : Bool := decide (x.mag = 0)

/-- The value with a given sign and magnitude. -/
def Real64.ofMag (neg : Bool) (m : Nat) : Real64 :=
  ⟨BitVec.ofNat 64 (if neg then 2 ^ 63 + m else m)⟩

/-- Real zero (positive). -/
def Real64.zero : Real64 := ⟨0#64⟩

/-- The one NaN an operation gives (log 1). -/
def Real64.nan : Real64 := ⟨0x7FF8000000000000#64⟩

/-- Plus or minus infinity. -/
def Real64.inf (neg : Bool) : Real64 := Real64.ofMag neg infMag

/-- `2 ^ n`, in powers that evaluate with small exponents. -/
def pow2 (n : Nat) : Nat := 2 ^ (n % 256) * (2 ^ 255 * 2) ^ (n / 256)

/-- The units of 2^-1074 in a finite magnitude: fraction alone when the exponent field is 0, else the fraction with
its leading one, shifted by the exponent field less 1. -/
def unitsOfMag (m : Nat) : Nat :=
  if m / 2 ^ 52 = 0 then m % 2 ^ 52 else (m % 2 ^ 52 + 2 ^ 52) * pow2 (m / 2 ^ 52 - 1)

/-- The absolute value of a finite number, in units of 2^-1074. -/
def Real64.units (x : Real64) : Nat := unitsOfMag x.mag

/-- A finite number, in units of 2^-1074, with its sign. -/
def Real64.value (x : Real64) : Int := if x.negative then -(x.units : Int) else (x.units : Int)

/-- Nearest multiple of `step` to `num`, as a count of steps, ties to the even count. -/
def nearestEven (num step : Nat) : Nat :=
  let q := num / step
  let r := num % step
  if step < 2 * r then q + 1
  else if 2 * r = step then q + q % 2
  else q

/-- The binary64 magnitude nearest to `num / den` units (`den > 0`): the quotient's bit length fixes how many low
bits are dropped, and a carry out of the fraction runs into the exponent field. Magnitudes from 2^1024 up are
infinite. -/
def roundUnits (num den : Nat) : Nat :=
  let shift := (num / den).log2 - 52
  let m := shift * 2 ^ 52 + nearestEven num (den * pow2 shift)
  if infMag ≤ m then infMag else m

/-- One, in units of 2^-1074. -/
def oneUnits : Nat := pow2 1074

/-- The nearest binary64 value to the rational `p / q` (`q > 0`). -/
def Real64.ofRatio (p q : Nat) : Real64 := Real64.ofMag false (roundUnits (p * oneUnits) q)

/-- `real(n)` (R11). Exact for |n| <= 2^53; above that it rounds to nearest (log 21). -/
def Real64.ofInt (n : Int) : Real64 :=
  if n = 0 then Real64.zero else Real64.ofMag (decide (n < 0)) (roundUnits (n.natAbs * oneUnits) 1)

/-- Negation: the sign bit alone. -/
def Real64.neg (x : Real64) : Real64 := Real64.ofMag (!x.negative) x.mag

/-- `|x|` (R11). -/
def Real64.abs (x : Real64) : Real64 := Real64.ofMag false x.mag

/-- The sum of two finite values. An exact sum of 0 is +0 unless both are negative. -/
def Real64.addFinite (x y : Real64) : Real64 :=
  let z := x.value + y.value
  if z = 0 then Real64.ofMag (x.negative && y.negative) 0
  else Real64.ofMag (decide (z < 0)) (roundUnits z.natAbs 1)

/-- `x + y`. -/
def Real64.add (x y : Real64) : Real64 :=
  if x.isNaN || y.isNaN then Real64.nan
  else if x.isInf then
    if y.isInf && (x.negative != y.negative) then Real64.nan else x
  else if y.isInf then y
  else Real64.addFinite x y

/-- `x - y`. -/
def Real64.sub (x y : Real64) : Real64 := Real64.add x (Real64.neg y)

/-- `x * y`. -/
def Real64.mul (x y : Real64) : Real64 :=
  let neg := x.negative != y.negative
  if x.isNaN || y.isNaN then Real64.nan
  else if x.isInf || y.isInf then
    if x.isZero || y.isZero then Real64.nan else Real64.inf neg
  else Real64.ofMag neg (roundUnits (x.units * y.units) oneUnits)

/-- `x / y`. -/
def Real64.div (x y : Real64) : Real64 :=
  let neg := x.negative != y.negative
  if x.isNaN || y.isNaN then Real64.nan
  else if x.isInf then
    if y.isInf then Real64.nan else Real64.inf neg
  else if y.isInf then Real64.ofMag neg 0
  else if y.isZero then
    if x.isZero then Real64.nan else Real64.inf neg
  else Real64.ofMag neg (roundUnits (x.units * oneUnits) y.units)

/-- `fmod(x, y)` (R100): the exact remainder of the quotient truncated toward zero, with the sign of `x`. -/
def Real64.fmod (x y : Real64) : Real64 :=
  if x.isNaN || y.isNaN || x.isInf || y.isZero then Real64.nan
  else if y.isInf then x
  else Real64.ofMag x.negative (roundUnits (x.units % y.units) 1)

/-- The order of the values that are no NaN: sign and magnitude as one integer; both zeros are 0. -/
def Real64.key (x : Real64) : Int := if x.negative then -(x.mag : Int) else (x.mag : Int)

/-- `x < y`; false when either is a NaN. -/
def Real64.lt (x y : Real64) : Bool := !x.isNaN && !y.isNaN && decide (x.key < y.key)

/-- `x <= y`; false when either is a NaN. -/
def Real64.le (x y : Real64) : Bool := !x.isNaN && !y.isNaN && decide (x.key ≤ y.key)

/-- `max(x, y)` of values that are no NaN (R11). -/
def Real64.max (x y : Real64) : Real64 := if Real64.lt x y then y else x

/-- `min(x, y)` of values that are no NaN (R11). -/
def Real64.min (x y : Real64) : Real64 := if Real64.lt y x then y else x

/-- `clamp(x, lo, hi) = min(max(x, lo), hi)` (R11). -/
def Real64.clamp (x lo hi : Real64) : Real64 := Real64.min (Real64.max x lo) hi

/-- Rounds a finite value toward zero to an integer (R86). -/
def Real64.truncFinite (x : Real64) : Int :=
  if x.negative then -((x.units / oneUnits : Nat) : Int) else ((x.units / oneUnits : Nat) : Int)

/-- The left-to-right sum from real zero, `((0 + f(0)) + f(1)) + ...` (R11). -/
def Real64.sum (xs : List Real64) : Real64 := xs.foldl Real64.add Real64.zero

end Sys2Proof
end

