-- ==== Sys2Proof/Machine/Trig.lean ====
section
/-! DEFINITION. `SIN` and `COS` (00_scope.md R6, R11). They are configuration functions; `Trig` says which pair is in
force. The reference pair is meant to be the correctly rounded one (92_eei_decisions.md D2): it computes in fixed
point with 256 fraction bits, after a reduction by a pi of 1344 fraction bits, and rounds once. That it is correctly
rounded on every binary64 value is UNVERIFIED (log 2). Any other pair is free. -/

namespace Sys2Proof

/-- `floor(pi * 2^1344)`. -/
def piFixed : Nat :=
  0x3243f6a8885a308d313198a2e03707344a4093822299f31d0082efa98ec4e6c89452821e638d01377be5466cf34e90c6cc0ac29b7c97c50dd3f84d5b5b54709179216d5d98979fb1bd1310ba698dfb5ac2ffd72dbd01adfb7b8e1afed6a267e96ba7c9045f12c7f9924a19947b3916cf70801f2e2858efc16636920d871574e69a458fea3f4933d7e0d95748f728eb658718bcd5882154aee7b54a41dc25a59b59c30d5392af26013

/-- Fraction bits of the reduction. -/
def trigWideBits : Nat := 1344

/-- Fraction bits of the series. -/
def trigBits : Nat := 256

/-- `pi / 2` with `trigBits` fraction bits. -/
def halfPiFixed : Nat := piFixed / pow2 (trigWideBits - trigBits + 1)

/-- The alternating series `t - t r2/((k+1)(k+2)) + ...` in fixed point: from `t = r`, `k = 1` the sine of `r`, from
`t = 1`, `k = 0` the cosine; `r2` is the square of `r`. -/
def altSeries (r2 : Nat) : Nat → Nat → Nat → Nat
  | 0, _, _ => 0
  | fuel + 1, k, t => t - altSeries r2 fuel (k + 2) (t * r2 / pow2 trigBits / ((k + 1) * (k + 2)))

/-- The sine of `r` in `[0, pi/2]`, fixed point; above `pi/4` the cosine of the complement. -/
def sinQuadrant (r : Nat) : Nat :=
  if 2 * r ≤ halfPiFixed then altSeries (r * r / pow2 trigBits) 36 1 r
  else
    let c := halfPiFixed - r
    altSeries (c * c / pow2 trigBits) 36 0 (pow2 trigBits)

/-- `|x|` reduced: the number of whole quarter turns, and the rest in `[0, pi/2)` in fixed point. -/
def trigReduce (x : Real64) : Nat × Nat :=
  let wide := x.units * pow2 (trigWideBits - 1074)
  let quarter := piFixed / 2
  (wide / quarter, wide % quarter / pow2 (trigWideBits - trigBits))

/-- A fixed-point magnitude with its sign, rounded once to binary64. -/
def trigRound (neg : Bool) (m : Nat) : Real64 :=
  Real64.ofMag neg (roundUnits (m * pow2 (1074 - trigBits)) 1)

/-- The magnitude of 2^-27: below it `sin x` rounds to `x` and `cos x` to 1. -/
def trigTinyMag : Nat := (1023 - 27) * 2 ^ 52

/-- The reference `SIN`. -/
def sinReference (x : Real64) : Real64 :=
  if !x.isFinite then Real64.nan
  else if x.mag < trigTinyMag then x
  else
    let (k, r) := trigReduce x
    let m := if k % 2 = 0 then sinQuadrant r else sinQuadrant (halfPiFixed - r)
    trigRound (x.negative != decide (2 ≤ k % 4)) m

/-- The reference `COS`: the sine a quarter turn on. -/
def cosReference (x : Real64) : Real64 :=
  if !x.isFinite then Real64.nan
  else if x.mag < trigTinyMag then Real64.ofInt 1
  else
    let (k, r) := trigReduce x
    let m := if k % 2 = 0 then sinQuadrant (halfPiFixed - r) else sinQuadrant r
    trigRound (decide (2 ≤ (k + 1) % 4)) m

/-- `SIN` of the configuration in force. -/
def sinOf (t : Trig) (x : Real64) : Real64 :=
  match t with
  | .reference => sinReference x
  | .other n => Config.otherSin n x

/-- `COS` of the configuration in force. -/
def cosOf (t : Trig) (x : Real64) : Real64 :=
  match t with
  | .reference => cosReference x
  | .other n => Config.otherCos n x

/-- `PI`: the `NUMERIC` value nearest to pi (R11). -/
def PI : Real64 := Real64.ofRatio piFixed (pow2 trigWideBits)

end Sys2Proof
end

