-- ==== Sys2Proof/Machine/Constants.lean ====
section
/-! DEFINITION. The fixed parameters of 00_scope.md R6 and the encodings of 30_encoding.md, each a named constant, so
that a later correction changes one definition (R7). `BITLEN` is in Config.lean. A real literal is the nearest binary64
number (DEDUCED, log 25). -/

namespace Sys2Proof

/-! ### Rates and real constants -/

/-- `FE`, Hz (R6). -/
def FE : Nat := 48000

/-- `LIN_A = 0.003` (R6, R96). -/
def LIN_A : Real64 := Real64.ofRatio 3 1000

/-- `LIN_B = 0.997` (R6, R96). -/
def LIN_B : Real64 := Real64.ofRatio 997 1000

/-- `VFOPLL = 7 * 10^-4` (R6, R98). -/
def VFOPLL : Real64 := Real64.ofRatio 7 10000

/-- `BITPLL = 0.2` (R6, R105). -/
def BITPLL : Real64 := Real64.ofRatio 2 10

/-- `EA_MAX = 2.0` (R6, R105). -/
def EA_MAX : Real64 := Real64.ofInt 2

/-- `DC_ALPHA = 0.9` (R6, R87). -/
def DC_ALPHA : Real64 := Real64.ofRatio 9 10

/-- `DF_LEN = BITLEN / 2 = 20` (R6, R101). -/
def DF_LEN : Nat := BITLEN / 2

/-- `DPHI_H = ((real(2) * PI) * real(4800)) / real(FE)` (R92). -/
def DPHI_H : Real64 :=
  ((((Real64.ofInt 2).mul PI).mul (Real64.ofInt 4800)).div (Real64.ofInt (FE : Int)))

/-- `DPHI_L = ((real(2) * PI) * real(2400)) / real(FE)` (R92). -/
def DPHI_L : Real64 :=
  ((((Real64.ofInt 2).mul PI).mul (Real64.ofInt 2400)).div (Real64.ofInt (FE : Int)))

/-- `FOURPI = real(4) * PI` (R92). -/
def FOURPI : Real64 := (Real64.ofInt 4).mul PI

/-- `H[i] = SIN(((real(2) * PI) * real(i)) / real(BITLEN))` (R93). -/
def hWeight (t : Trig) (i : Nat) : Real64 :=
  sinOf t ((((Real64.ofInt 2).mul PI).mul (Real64.ofInt (i : Int))).div (Real64.ofInt (BITLEN : Int)))

/-! ### Conditioner -/

/-- `OUT_SCALE = max(1, 32768 div (128 * D))` (R6, R83). -/
def outScale (d : Nat) : Nat := Nat.max 1 (32768 / (128 * d))

/-! ### Frame machine -/

/-- `PREKEY_MIN = 0.010 * 2400 = 24` (R6, R118). -/
def PREKEY_MIN : Nat := 24

/-- `SYNC_BITS = 40` (R6, R120). -/
def SYNC_BITS : Nat := 40

/-- `SYNC_TOL = 3` (R6, R120). -/
def SYNC_TOL : Nat := 3

/-- `SYNC_MAX = 55` (R6, R120). -/
def SYNC_MAX : Nat := 55

/-- `MAXTEXT = 220` (R6). -/
def MAXTEXT : Nat := 220

/-- `MAXBLK = 1+7+1+2+1+1+4+6+MAXTEXT+1 = 244` (R6, R121). -/
def MAXBLK : Nat := 1 + 7 + 1 + 2 + 1 + 1 + 4 + 6 + MAXTEXT + 1

/-- `RAW_CAP = 1 + MAXBLK + 2 = 247` (R6, R43). -/
def RAW_CAP : Nat := 1 + MAXBLK + 2

/-- The state tags of R66. -/
def stHeadLost : BitVec 3 := 0#3
def stHeadFound : BitVec 3 := 1#3
def stSync : BitVec 3 := 2#3
def stText : BitVec 3 := 3#3
def stCrc1 : BitVec 3 := 4#3
def stCrc2 : BitVec 3 := 5#3
def stEnd : BitVec 3 := 6#3

/-- The pre-key byte (R71). -/
def PREKEY_BYTE : Byte := 0xFF#8

/-- Character codes of R69. -/
def chSOH : Byte := 0x01#8
def chETX : Byte := 0x03#8
def chETB : Byte := 0x17#8
def chSYN : Byte := 0x16#8
def chBitSync1 : Byte := 0x2B#8
def chBitSync2 : Byte := 0x2A#8

/-! ### CRC -/

/-- The polynomial `x^16 + x^12 + x^5 + 1` (R130). -/
def CRC_POLY : Word16 := 0x1021#16

end Sys2Proof
end

