-- ==== Sys2Proof/Machine/Crc.lean ====
section
/-! DEFINITION. The CRC engine and parity as pure functions (43_crc.md R130 to R139) and the bit helpers they share.
The tables of R131 to R133 are written as their defining computations; Tests checks each entry against the printed
tables. The operations of the dispatch key are in Machine/CrcOps.lean. -/

namespace Sys2Proof

/-- `popcount(v)` (R9). -/
def popcount {w : Nat} (v : BitVec w) : Nat := (List.range w).countP fun i => v.getLsbD i

/-- One step of the table's definition: `(c & 0x8000) ? (c << 1) ^ 0x1021 : c << 1` (R131). -/
def crcTabStep (c : Word16) : Word16 := if c.getLsbD 15 then (c <<< 1) ^^^ CRC_POLY else c <<< 1

/-- `n` table steps (R131). -/
def crcTabSteps : Nat → Word16 → Word16
  | 0, c => c
  | n + 1, c => crcTabSteps n (crcTabStep c)

/-- `CRC_TAB[n]` (R131): eight steps from `n << 8`. -/
def crcTab (n : Byte) : Word16 := crcTabSteps 8 (n.zeroExtend 16 <<< 8)

/-- `REV[b]`: bit `7 - k` is bit `k` of `b` (R132). -/
def revByte (b : Byte) : Byte :=
  BitVec.ofBool (b.getLsbD 0) ++ BitVec.ofBool (b.getLsbD 1) ++ BitVec.ofBool (b.getLsbD 2) ++
    BitVec.ofBool (b.getLsbD 3) ++ BitVec.ofBool (b.getLsbD 4) ++ BitVec.ofBool (b.getLsbD 5) ++
    BitVec.ofBool (b.getLsbD 6) ++ BitVec.ofBool (b.getLsbD 7)

/-- `rev16(x) = (REV[x & 0xFF] << 8) | REV[x >> 8]` (R134). -/
def rev16 (x : Word16) : Word16 :=
  ((revByte (x.extractLsb' 0 8)).zeroExtend 16 <<< 8) ||| (revByte (x.extractLsb' 8 8)).zeroExtend 16

/-- `PARITY[x]`: 0x80 iff the count of set bits of the 7-bit `x` is even (R133). -/
def parityBit (x : BitVec 7) : Byte := if popcount x % 2 = 0 then 0x80#8 else 0x00#8

/-- `odd(c) = c | PARITY[c & 0x7F]` (R139). -/
def oddByte (c : Byte) : Byte := c ||| parityBit (c.extractLsb' 0 7)

/-- `CRC_FOLD(crc, b) = ((crc << 8) & 0xFFFF) ^ CRC_TAB[((crc >> 8) ^ b) & 0xFF]` (R135). -/
def crcFold (crc : Word16) (b : Byte) : Word16 := (crc <<< 8) ^^^ crcTab (crc.extractLsb' 8 8 ^^^ b)

/-- `CRC_FOLD_REV(crc, b) = CRC_FOLD(crc, REV[b])` (R136). -/
def crcFoldRev (crc : Word16) (b : Byte) : Word16 := crcFold crc (revByte b)

/-- The register after a byte sequence, reflected input, from 0 (R137). -/
def crcRegister (data : List Byte) : Word16 := data.foldl crcFoldRev 0#16

/-- `CRC_GEN(s)` (R137). -/
def crcGen (data : List Byte) : Word16 := rev16 (crcRegister data)

/-- The register of CRC_CHECK, non-reflected input, from 0 (R138). -/
def crcPlain (data : List Byte) : Word16 := data.foldl crcFold 0#16

/-- `CRC_CHECK(s)` (R138). -/
def crcCheck (data : List Byte) : Bool := decide (crcPlain data = 0#16)

/-- `crc_bytes(s)`: the trailer, low byte of `G` first (R47, R140). -/
def crcTrailer (data : List Byte) : List Byte :=
  [(crcGen data).extractLsb' 0 8, (crcGen data).extractLsb' 8 8]

/-- `SYNC_CHECK` (R70). -/
def SYNC_CHECK : Word40 :=
  (oddByte chBitSync1).zeroExtend 40 ||| ((oddByte chBitSync2).zeroExtend 40 <<< 8) |||
    ((oddByte chSYN).zeroExtend 40 <<< 16) ||| ((oddByte chSYN).zeroExtend 40 <<< 24) |||
    ((oddByte chSOH).zeroExtend 40 <<< 32)

/-- `raw[i] <- raw[i] XOR (1 << j)` (R124). -/
def flipBit (raw : List Byte) (i j : Nat) : List Byte := raw.modify i fun b => b ^^^ (1#8 <<< j)

/-- The first single-bit flip, byte index outer and bit index inner, whose CRC_GEN is zero (R124). -/
def firstCorrection (raw : List Byte) : Option (List Byte) :=
  (List.range raw.length).findSome? fun i =>
    (List.range 8).findSome? fun j =>
      if crcGen (flipBit raw i j) = 0#16 then some (flipBit raw i j) else none

end Sys2Proof
end

