-- ==== Sys2Proof/Syntax.lean ====
section
/-! DEFINITION. Operation set 1 (00_scope.md R3, 30_encoding.md R62): one constructor per row of
spec/opcode_table.json. Operands are integers as the host hands them over: an operand outside its type is a refusal
of the spec (60_exceptions.md R146), so an operation must be able to carry one. WellFormed.lean says which are in
their type. -/

namespace Sys2Proof

inductive Instr where
  /-- RESET, key 0x00 (R158). -/
  | reset
  /-- COND_BLOCK, key 0x01 (R77): an IQ block. -/
  | condBlock (data : List Int)
  /-- BS_FEED, key 0x02 (R94): one `s16` sample. -/
  | bsFeed (x : Int)
  /-- BIT_IN, key 0x03 (R114): one bit. -/
  | bitIn (v : Int)
  /-- FSM_BYTE with `state` = HeadLost, key 0x04 (R118). -/
  | fsmByteHeadLost (b : Int)
  /-- FSM_BYTE with `state` = HeadFound, key 0x14 (R119). -/
  | fsmByteHeadFound (b : Int)
  /-- FSM_BYTE with `state` = Sync, key 0x24 (R120). -/
  | fsmByteSync (b : Int)
  /-- FSM_BYTE with `state` = Text, key 0x34 (R121). -/
  | fsmByteText (b : Int)
  /-- FSM_BYTE with `state` = Crc1, key 0x44 (R122). -/
  | fsmByteCrc1 (b : Int)
  /-- FSM_BYTE with `state` = Crc2, key 0x54 (R123). -/
  | fsmByteCrc2 (b : Int)
  /-- FSM_BYTE with `state` = End, key 0x64 (R124). -/
  | fsmByteEnd (b : Int)
  /-- CRC_GEN, key 0x05 (R137): a sequence of u8. -/
  | crcGen (data : List Int)
  /-- CRC_CHECK, key 0x06 (R138): a sequence of u8. -/
  | crcCheck (data : List Int)
  /-- CRC_FOLD, key 0x07 (R135): a u16 and a u8. -/
  | crcFold (crc b : Int)
  /-- CRC_FOLD_REV, key 0x08 (R136): a u16 and a u8. -/
  | crcFoldRev (crc b : Int)
  /-- ODD_PARITY, key 0x09 (R139): a u8. -/
  | oddParity (c : Int)
deriving DecidableEq, Repr

end Sys2Proof
end

