-- ==== Sys2Proof/WellFormed.lean ====
section
/-! DEFINITION. Which operations have every operand in its type (30_encoding.md R63) and, for COND_BLOCK, a whole
number of pairs (20_memory.md R51). -/

namespace Sys2Proof

/-- `u8`: 0..255 (R9). -/
def isU8 (n : Int) : Bool := decide (0 ≤ n) && decide (n < 256)

/-- `u16`: 0..65535 (R9). -/
def isU16 (n : Int) : Bool := decide (0 ≤ n) && decide (n < 65536)

/-- `s16`: -32768..32767 (R9). -/
def isS16 (n : Int) : Bool := decide (-32768 ≤ n) && decide (n < 32768)

/-- A bit: 0 or 1 (R63). -/
def isBit (n : Int) : Bool := decide (n = 0) || decide (n = 1)

/-- Every operand in its type, and an IQ block of even length. -/
def Instr.wellFormed : Instr → Bool
  | .reset => true
  | .condBlock data => decide (data.length % 2 = 0) && data.all isU8
  | .bsFeed x => isS16 x
  | .bitIn v => isBit v
  | .fsmByteHeadLost b => isU8 b
  | .fsmByteHeadFound b => isU8 b
  | .fsmByteSync b => isU8 b
  | .fsmByteText b => isU8 b
  | .fsmByteCrc1 b => isU8 b
  | .fsmByteCrc2 b => isU8 b
  | .fsmByteEnd b => isU8 b
  | .crcGen data => data.all isU8
  | .crcCheck data => data.all isU8
  | .crcFold crc b => isU16 crc && isU8 b
  | .crcFoldRev crc b => isU16 crc && isU8 b
  | .oddParity c => isU8 c

end Sys2Proof
end

