-- ==== Sys2Proof/Decode.lean ====
section
/-! DEFINITION. The decoder of operation set 1 and, after it, the encoder (30_encoding.md R61 to R66).

A transaction is a dispatch key and the operand's integers. The key's encoding is the spec's (R61). The layout of an
operand in bytes is the model's (log 13): one byte for a u8 or a bit, two bytes low byte first for a u16 or an s16
(two's complement, R63), the bytes themselves for a sequence. Only `decodeTableWord` and `withFetchWord` use it. -/

namespace Sys2Proof

/-- Why a transaction selects no operation. -/
inductive Reject where
  /-- `rsv = 1` or `op` in 0xA..0xF (R64). -/
  | reservedOp
  /-- `op = 4` with `st = 7` (R64). -/
  | badState
  /-- Not as many operand values as the operation takes (R65; log 14). -/
  | operandShape
  /-- No key at all: an empty list of bytes. -/
  | noKey
deriving DecidableEq, Repr

/-- `key[3:0]` (R61). -/
def keyOp (key : Byte) : Nat := (key.extractLsb' 0 4).toNat

/-- `key[6:4]` (R61). -/
def keySt (key : Byte) : BitVec 3 := key.extractLsb' 4 3

/-- `key[7]` (R61). -/
def keyRsv (key : Byte) : Bool := key.getLsbD 7

/-- The key the decoder looks up: for `op = 4` it inserts the frame machine's `state` in bits 6:4; otherwise those
bits are don't-care and stay as they came (R61). -/
def formKey (key : Byte) (state : BitVec 3) : Byte :=
  if keyOp key = 4 then (key &&& 0x8F#8) ||| (state.zeroExtend 8 <<< 4) else key

/-- An operation with one operand value. -/
def decodeOne (mk : Int → Instr) : List Int → Except Reject Instr
  | [a] => .ok (mk a)
  | _ => .error .operandShape

/-- An operation with two operand values. -/
def decodeTwo (mk : Int → Int → Instr) : List Int → Except Reject Instr
  | [a, b] => .ok (mk a b)
  | _ => .error .operandShape

/-- The FSM_BYTE row of a state tag (R61, R66). -/
def decodeFsm (st : BitVec 3) (ops : List Int) : Except Reject Instr :=
  match st.toNat with
  | 0 => decodeOne .fsmByteHeadLost ops
  | 1 => decodeOne .fsmByteHeadFound ops
  | 2 => decodeOne .fsmByteSync ops
  | 3 => decodeOne .fsmByteText ops
  | 4 => decodeOne .fsmByteCrc1 ops
  | 5 => decodeOne .fsmByteCrc2 ops
  | 6 => decodeOne .fsmByteEnd ops
  | _ => .error .badState

/-- The operation a formed key and its operand values select (R61, R62). -/
def decode (key : Byte) (ops : List Int) : Except Reject Instr :=
  if keyRsv key then .error .reservedOp
  else
    match keyOp key with
    | 0 => if ops.isEmpty then .ok .reset else .error .operandShape
    | 1 => .ok (.condBlock ops)
    | 2 => decodeOne .bsFeed ops
    | 3 => decodeOne .bitIn ops
    | 4 => decodeFsm (keySt key) ops
    | 5 => .ok (.crcGen ops)
    | 6 => .ok (.crcCheck ops)
    | 7 => decodeTwo .crcFold ops
    | 8 => decodeTwo .crcFoldRev ops
    | 9 => decodeOne .oddParity ops
    | _ => .error .reservedOp

/-- `zext_8`: the integer of a u8 operand byte (R63). -/
def zext8 (b : Byte) : Int := (b.toNat : Int)

/-- The u16 of two operand bytes, low byte first (log 13). -/
def u16OfBytes (lo hi : Byte) : Int := ((lo.toNat + 256 * hi.toNat : Nat) : Int)

/-- `sext_16` of two operand bytes, low byte first (R63; log 13). -/
def s16OfBytes (lo hi : Byte) : Int :=
  let n := u16OfBytes lo hi
  if n < 32768 then n else n - 65536

/-- The operand values in a list of operand bytes. A list of the wrong length gives a value list of the wrong
length, which `decode` rejects. -/
def operandsOfBytes (key : Byte) (bytes : List Byte) : List Int :=
  match keyOp key, bytes with
  | 2, [lo, hi] => [s16OfBytes lo hi]
  | 2, _ => []
  | 7, [lo, hi, b] => [u16OfBytes lo hi, zext8 b]
  | 7, _ => []
  | 8, [lo, hi, b] => [u16OfBytes lo hi, zext8 b]
  | 8, _ => []
  | _, bytes => bytes.map zext8

/-- Decode the bytes of a transaction: the key, then the operand bytes. -/
def decodeBytes : List Byte → Except Reject Instr
  | [] => .error .noKey
  | key :: rest => decode key (operandsOfBytes key rest)

/-! ### The opcode table -/

/-- A row of spec/opcode_table.json: it matches a key whose bits under `mask` are `bits` (R61). -/
structure OpcodeRow where
  mnemonic : String
  bits : Byte
  mask : Byte
deriving DecidableEq, Repr

/-- Does a row match a key (R61)? -/
def OpcodeRow.fits (r : OpcodeRow) (key : Byte) : Bool := decide (key &&& r.mask = r.bits)

/-- The row of an operation. -/
def Instr.row : Instr → OpcodeRow
  | .reset => ⟨"RESET", 0x00#8, 0x8F#8⟩
  | .condBlock _ => ⟨"COND_BLOCK", 0x01#8, 0x8F#8⟩
  | .bsFeed _ => ⟨"BS_FEED", 0x02#8, 0x8F#8⟩
  | .bitIn _ => ⟨"BIT_IN", 0x03#8, 0x8F#8⟩
  | .fsmByteHeadLost _ => ⟨"FSM_BYTE.HeadLost", 0x04#8, 0xFF#8⟩
  | .fsmByteHeadFound _ => ⟨"FSM_BYTE.HeadFound", 0x14#8, 0xFF#8⟩
  | .fsmByteSync _ => ⟨"FSM_BYTE.Sync", 0x24#8, 0xFF#8⟩
  | .fsmByteText _ => ⟨"FSM_BYTE.Text", 0x34#8, 0xFF#8⟩
  | .fsmByteCrc1 _ => ⟨"FSM_BYTE.Crc1", 0x44#8, 0xFF#8⟩
  | .fsmByteCrc2 _ => ⟨"FSM_BYTE.Crc2", 0x54#8, 0xFF#8⟩
  | .fsmByteEnd _ => ⟨"FSM_BYTE.End", 0x64#8, 0xFF#8⟩
  | .crcGen _ => ⟨"CRC_GEN", 0x05#8, 0x8F#8⟩
  | .crcCheck _ => ⟨"CRC_CHECK", 0x06#8, 0x8F#8⟩
  | .crcFold _ _ => ⟨"CRC_FOLD", 0x07#8, 0x8F#8⟩
  | .crcFoldRev _ _ => ⟨"CRC_FOLD_REV", 0x08#8, 0x8F#8⟩
  | .oddParity _ => ⟨"ODD_PARITY", 0x09#8, 0x8F#8⟩

/-- The rows of spec/opcode_table.json, in its order. -/
def opcodeRows : List OpcodeRow :=
  [Instr.reset, .condBlock [], .bsFeed 0, .bitIn 0, .fsmByteHeadLost 0, .fsmByteHeadFound 0, .fsmByteSync 0,
    .fsmByteText 0, .fsmByteCrc1 0, .fsmByteCrc2 0, .fsmByteEnd 0, .crcGen [], .crcCheck [], .crcFold 0 0,
    .crcFoldRev 0 0, .oddParity 0].map Instr.row

/-! ### The encoder -/

/-- The dispatch key of an operation (R61, R62): `op`, and for FSM_BYTE `0x04 | (st << 4)`. -/
def Instr.key : Instr → Byte
  | .reset => 0x00#8
  | .condBlock _ => 0x01#8
  | .bsFeed _ => 0x02#8
  | .bitIn _ => 0x03#8
  | .fsmByteHeadLost _ => 0x04#8
  | .fsmByteHeadFound _ => 0x14#8
  | .fsmByteSync _ => 0x24#8
  | .fsmByteText _ => 0x34#8
  | .fsmByteCrc1 _ => 0x44#8
  | .fsmByteCrc2 _ => 0x54#8
  | .fsmByteEnd _ => 0x64#8
  | .crcGen _ => 0x05#8
  | .crcCheck _ => 0x06#8
  | .crcFold _ _ => 0x07#8
  | .crcFoldRev _ _ => 0x08#8
  | .oddParity _ => 0x09#8

/-- The operand values of an operation, in order. -/
def Instr.operands : Instr → List Int
  | .reset => []
  | .condBlock data => data
  | .bsFeed x => [x]
  | .bitIn v => [v]
  | .fsmByteHeadLost b => [b]
  | .fsmByteHeadFound b => [b]
  | .fsmByteSync b => [b]
  | .fsmByteText b => [b]
  | .fsmByteCrc1 b => [b]
  | .fsmByteCrc2 b => [b]
  | .fsmByteEnd b => [b]
  | .crcGen data => data
  | .crcCheck data => data
  | .crcFold crc b => [crc, b]
  | .crcFoldRev crc b => [crc, b]
  | .oddParity c => [c]

/-- One operand byte of a u8 or a bit. -/
def byteOfInt (n : Int) : Byte := BitVec.ofInt 8 n

/-- Two operand bytes of a u16 or an s16, low byte first (log 13). -/
def bytesOf16 (n : Int) : List Byte :=
  let w : BitVec 16 := BitVec.ofInt 16 n
  [w.extractLsb' 0 8, w.extractLsb' 8 8]

/-- The operand bytes of an operation. -/
def Instr.operandBytes : Instr → List Byte
  | .bsFeed x => bytesOf16 x
  | .crcFold crc b => bytesOf16 crc ++ [byteOfInt b]
  | .crcFoldRev crc b => bytesOf16 crc ++ [byteOfInt b]
  | .reset => []
  | .condBlock data => data.map byteOfInt
  | .bitIn v => [byteOfInt v]
  | .fsmByteHeadLost b => [byteOfInt b]
  | .fsmByteHeadFound b => [byteOfInt b]
  | .fsmByteSync b => [byteOfInt b]
  | .fsmByteText b => [byteOfInt b]
  | .fsmByteCrc1 b => [byteOfInt b]
  | .fsmByteCrc2 b => [byteOfInt b]
  | .fsmByteEnd b => [byteOfInt b]
  | .crcGen data => data.map byteOfInt
  | .crcCheck data => data.map byteOfInt
  | .oddParity c => [byteOfInt c]

/-- The bytes of an operation: its key, then its operand bytes. -/
def encode (i : Instr) : List Byte := i.key :: i.operandBytes

/-- How many operand bytes the operation of a key takes; a sequence carries its own length, here that of the bytes
given (R65). -/
def operandByteCount (key : Byte) (given : Nat) : Nat :=
  match keyOp key with
  | 0 => 0
  | 1 => given
  | 2 => 2
  | 5 => given
  | 6 => given
  | 7 => 3
  | 8 => 3
  | _ => 1

/-- The lowest `k` bytes of a number, lowest first. -/
def bytesOfNat : Nat → Nat → List Byte
  | 0, _ => []
  | k + 1, w => BitVec.ofNat 8 w :: bytesOfNat k (w / 256)

/-- The bytes of the transaction whose lowest `nbits` bits are `w`, every bit above them 0: the key, then as many
operand bytes as the key's operation takes (a sequence is as long as the whole bytes given). -/
def tableWordBytes (nbits w : Nat) : List Byte :=
  let given := (nbits + 7) / 8
  let word := w % 2 ^ nbits
  let key : Byte := BitVec.ofNat 8 word
  key :: bytesOfNat (operandByteCount key (given - 1)) (word / 256)

/-- What the decoder reads from a row's bits, numbered as spec/opcode_table.json numbers them. -/
def decodeTableWord (nbits w : Nat) : Option Instr :=
  match decodeBytes (tableWordBytes nbits w) with
  | .ok i => some i
  | .error _ => none

end Sys2Proof
end

