-- ==== Sys2Proof/Machine/State.lean ====
section
/-! DEFINITION. The state of the block: every element of 10_state.md, the streams of 20_memory.md R54, the outputs
and records of 60_exceptions.md R144 to R146, and the parameters of 00_scope.md R6 that are plain data.
INVENTORY.md lists every field with its rule and its reset value. -/

namespace Sys2Proof.Machine

/-- Why a run ends (60_exceptions.md R145). A fault has no successor state; the record is the outcome itself. All
three are safe: the model stops where a machine with other parameters might go on. -/
inductive Fault where
  /-- `push` with `raw_len = RAW_CAP` (20_memory.md R43); raised by Text, Crc1, Crc2 and Sync. Safe. -/
  | rawOverflow
  /-- FSM_BYTE with `state = 7` (30_encoding.md R64). Safe. -/
  | badState
  /-- A NaN in a comparison of BS_FEED (41_bitsync.md R110). Safe. -/
  | nanInLoop
deriving DecidableEq, Repr

/-- Why an operation is outside the admitted set (60_exceptions.md R146). A refused operation has no step and changes
no state; the step records the mark and the run goes on (log 11). -/
inductive Refusal where
  /-- No meaning yet, by mnemonic: raised by exec's refused arms only. Safe. -/
  | notModelled (mnemonic : String)
  /-- RESERVED_OP: `rsv = 1` or `op` in 0xA..0xF (R64); raised by the decoder. Safe. -/
  | reservedOp
  /-- NOT_RESET: COND_BLOCK, BS_FEED, BIT_IN or FSM_BYTE with `phase = CONFIG` (R18). Safe. -/
  | notReset
  /-- CFG_LOCKED: a configuration write with `phase = RUN` (R17). Safe. -/
  | cfgLocked
  /-- CFG_RANGE: a configuration write out of range (R17). Safe. -/
  | cfgRange
  /-- ODD_IQ_BLOCK: COND_BLOCK with an odd byte count (R51). Safe. -/
  | oddIqBlock
  /-- BAD_BIT: BIT_IN with an operand not 0 or 1 (R114). Safe. -/
  | badBit
  /-- BAD_OPERAND: an operand outside its type (R63), or not as many as the operation takes (log 14). Safe. -/
  | badOperand
deriving DecidableEq, Repr

/-- The event codes of R144. -/
inductive Event where
  | headFound
  | syncFound
  | syncTimeout
  | textOverflow
  | crcFail
  | frameAccepted
  | frameCorrected
  | squelchMute
  | hopRequest
deriving DecidableEq, Repr

/-- The number of an event (R144). -/
def Event.code : Event → Nat
  | .headFound => 1
  | .syncFound => 2
  | .syncTimeout => 3
  | .textOverflow => 4
  | .crcFail => 5
  | .frameAccepted => 6
  | .frameCorrected => 7
  | .squelchMute => 8
  | .hopRequest => 9

/-- `phase` (R18). -/
inductive Phase where
  | config
  | run
deriving DecidableEq, Repr

/-- `sgI`, `sgQ`: -1, 0 or +1; 0 means not yet latched (R29). -/
inductive Sgn where
  | minus
  | zero
  | plus
deriving DecidableEq, Repr

/-- The integer of a sign. -/
def Sgn.toInt : Sgn → Int
  | .minus => -1
  | .zero => 0
  | .plus => 1

/-- The result of FSM_BYTE (R116): a frame accepted (-1), or so many bits consumed (1..8). -/
inductive FsmResult where
  | accepted
  | consumed (bits : Nat)
deriving DecidableEq, Repr

/-- `r` in {-1, 1, ..., 8} (R116). -/
def FsmResult.toInt : FsmResult → Int
  | .accepted => -1
  | .consumed n => (n : Int)

/-- The value an operation returns to the host (R62, R156). -/
inductive OpResult where
  /-- `r` of FSM_BYTE. -/
  | fsm (r : Int)
  /-- The u16 of CRC_GEN, CRC_FOLD and CRC_FOLD_REV. -/
  | u16 (v : Word16)
  /-- The u8 of ODD_PARITY. -/
  | u8 (v : Byte)
  /-- The Boolean of CRC_CHECK. -/
  | truth (v : Bool)
deriving DecidableEq, Repr

/-- One accepted frame (R74, R125). -/
structure FrameRecord where
  bytes : List Byte
  len : Nat
  crcCorrected : Bool
deriving DecidableEq, Repr

/-- A configuration write of the host (R17). One-bit registers take a Boolean (log 24). -/
inductive CfgWrite where
  | post (n : Int)
  | firHamming (v : Bool)
  | hammingW (ws : List Int)
  | squelchL (n : Int)
  | singleFreq (v : Bool)
  | deemphEn (v : Bool)
  | deemphA (a : Real64)
  | dcblockEn (v : Bool)
deriving DecidableEq, Repr

/-- What the host can ask of the block (R156): an operation, by dispatch key and operand values, or a configuration
write. -/
inductive HostItem where
  | op (key : Byte) (operands : List Int)
  | cfgWrite (w : CfgWrite)
deriving DecidableEq, Repr

/-- The configuration registers (R17). -/
structure Cfg where
  post : Nat
  firHamming : Bool
  hammingW : List Int
  squelchL : Nat
  singleFreq : Bool
  deemphEn : Bool
  deemphA : Real64
  dcblockEn : Bool
deriving DecidableEq, Repr

/-- The conditioner's state (R19 to R23). -/
structure Cond where
  rotIdx : Fin 4
  decAccI : Int
  decAccQ : Int
  decCnt : Nat
  decOdd : Bool
  postAcc : Int
  postCnt : Nat
  deemphY : Real64
  dcAvg : Real64
  silentCount : Nat
  mute : Bool
  hopRequest : Bool
deriving DecidableEq, Repr

/-- The bit synchronizer's state (R24 to R31). -/
structure Bsync where
  hsample : Vector Real64 BITLEN
  lsample : Vector Real64 BITLEN
  isample : Vector Real64 BITLEN
  qsample : Vector Real64 BITLEN
  csample : Vector Real64 BITLEN
  is : Nat
  phiH : Real64
  phiL : Real64
  dfH : Real64
  dfL : Real64
  clock : Nat
  ea : Real64
  pC : Real64
  ppC : Real64
  sgI : Sgn
  sgQ : Sgn
  lin : Real64
  bitValid : Bool
  bit : Bool
deriving DecidableEq, Repr

/-- The bit link's state (R32). -/
structure Link where
  outbits : Byte
  nbits : Nat
deriving DecidableEq, Repr

/-- The frame machine's state (R33 to R37). `raw` is the live part `raw[0..raw_len-1]`, so `raw_len` is its length
(log 17). -/
structure Fsm where
  state : BitVec 3
  syncForming : Word40
  syncBitsHave : Nat
  consecutivePrekey : Nat
  raw : List Byte
  crcErr : Bool
deriving DecidableEq, Repr

/-- What the current operation put out (R38, R144, R156). -/
structure Outputs where
  frame : Option FrameRecord
  events : List Event
  result : Option OpResult
deriving DecidableEq, Repr

/-- The whole block and the run's records. -/
structure State where
  par : Params
  phase : Phase
  cfg : Cfg
  cond : Cond
  bsync : Bsync
  link : Link
  fsm : Fsm
  out : Outputs
  stream : List Int
  inbox : List HostItem
  refusals : List Refusal
  schedule : List Bool
deriving DecidableEq, Repr

/-- The default configuration of 00_scope.md R6. The weights (log 4) and the de-emphasis coefficient (log 5) are OPEN
there: their values here are the model's. -/
def Cfg.default : Cfg where
  post := 1
  firHamming := false
  hammingW := List.replicate Params.ref.downsample 0
  squelchL := 0
  singleFreq := true
  deemphEn := false
  deemphA := ⟨0x3FF0000000000000#64⟩
  dcblockEn := false

/-- Reset values of R19 to R23 (70_reset_and_hazards.md R158). -/
def Cond.reset : Cond where
  rotIdx := 0
  decAccI := 0
  decAccQ := 0
  decCnt := 0
  decOdd := false
  postAcc := 0
  postCnt := 0
  deemphY := ⟨0#64⟩
  dcAvg := ⟨0#64⟩
  silentCount := 0
  mute := false
  hopRequest := false

/-- Reset values of R24 to R31 (R158). -/
def Bsync.reset : Bsync where
  hsample := Vector.replicate BITLEN ⟨0#64⟩
  lsample := Vector.replicate BITLEN ⟨0#64⟩
  isample := Vector.replicate BITLEN ⟨0#64⟩
  qsample := Vector.replicate BITLEN ⟨0#64⟩
  csample := Vector.replicate BITLEN ⟨0#64⟩
  is := 0
  phiH := ⟨0#64⟩
  phiL := ⟨0#64⟩
  dfH := ⟨0#64⟩
  dfL := ⟨0#64⟩
  clock := 0
  ea := ⟨0#64⟩
  pC := ⟨0#64⟩
  ppC := ⟨0#64⟩
  sgI := .zero
  sgQ := .zero
  lin := ⟨0#64⟩
  bitValid := false
  bit := false

/-- Reset values of R32 (R158). -/
def Link.reset : Link where
  outbits := 0#8
  nbits := 0

/-- Reset values of R33 to R37 (R158). -/
def Fsm.reset : Fsm where
  state := 0#3
  syncForming := 0#40
  syncBitsHave := 0
  consecutivePrekey := 0
  raw := []
  crcErr := false

/-- Outputs that hold nothing (R38). -/
def Outputs.empty : Outputs where
  frame := none
  events := []
  result := none

/-- The machine right after reset: power-on with the default configuration, then RESET (R158, R161; log 6). -/
def State.reset : State where
  par := Params.ref
  phase := .run
  cfg := Cfg.default
  cond := Cond.reset
  bsync := Bsync.reset
  link := Link.reset
  fsm := Fsm.reset
  out := Outputs.empty
  stream := []
  inbox := []
  refusals := []
  schedule := []

/-- One machine at power-on (R161): `phase = CONFIG`, the default configuration. Every other element is undefined
there; this one has the reset values (log 3). -/
def State.powerOn : State := { State.reset with phase := .config }

/-- Every machine at power-on (R161): the state of the four agents is unconstrained. That the frame and event outputs, the
conditioned stream and the refusal record are empty there is the model's (DESIGN CHOICE, unsafe, log 3): R38 empties the
outputs only by RESET, and R161 says of everything but `phase` and the configuration that it is undefined. -/
def State.isPowerOn (s : State) : Prop :=
  s.phase = .config ∧ s.cfg = Cfg.default ∧ s.par = Params.ref ∧ s.out = Outputs.empty ∧ s.stream = [] ∧ s.refusals = []

end Sys2Proof.Machine
end

