-- ==== Sys2Proof/Machine/Operands.lean ====
section
/-! DEFINITION. Every operand form of 30_encoding.md R62, R63: the value of an operand in its type, or the refusal of
60_exceptions.md R146. -/

namespace Sys2Proof.Machine

/-- A u8 operand. -/
def operandU8 (n : Int) : Except Refusal Byte :=
  if isU8 n then .ok (BitVec.ofInt 8 n) else .error .badOperand

/-- A u16 operand. -/
def operandU16 (n : Int) : Except Refusal Word16 :=
  if isU16 n then .ok (BitVec.ofInt 16 n) else .error .badOperand

/-- An s16 operand, read as an integer (`sext_16`). -/
def operandS16 (n : Int) : Except Refusal Int :=
  if isS16 n then .ok n else .error .badOperand

/-- A bit operand (R114). -/
def operandBit (n : Int) : Except Refusal Bool :=
  if isBit n then .ok (decide (n = 1)) else .error .badBit

/-- A sequence of u8. -/
def operandSeq (ns : List Int) : Except Refusal (List Byte) :=
  if ns.all isU8 then .ok (ns.map (BitVec.ofInt 8)) else .error .badOperand

/-- An IQ block: the odd length is refused first, in the table order of R146 (R147). -/
def operandIq (ns : List Int) : Except Refusal (List Byte) :=
  if ns.length % 2 = 1 then .error .oddIqBlock else operandSeq ns

/-- A u16 and a u8. -/
def operandCrcByte (crc b : Int) : Except Refusal (Word16 × Byte) :=
  match operandU16 crc, operandU8 b with
  | .ok c, .ok v => .ok (c, v)
  | .error r, _ => .error r
  | _, .error r => .error r

end Sys2Proof.Machine
end

