-- ==== Sys2Proof/Machine/Ops.lean ====
section
/-! DEFINITION. The named operations over the state: outputs and events (00_scope.md R12), the raw-frame buffer
(R10, R43), the return to HeadLost (42_frame_fsm.md R117), admission and refusal (60_exceptions.md R146, R147).

The block has no traps, no exception entry and no return from one (60_exceptions.md R143, R149). What it has instead
are these: `goHeadLost`, by which an operation recovers an error inside itself, and `markRefused`. -/

namespace Sys2Proof.Machine

/-- The outputs of the operation before are not held (R38, R31): each operation starts with none. -/
def beginOp (s : State) : State :=
  { s with out := Outputs.empty, bsync := { s.bsync with bitValid := false, bit := false } }

/-- `raise Event(code)` (R12): appended to the event output. -/
def raiseEvent (e : Event) (s : State) : State :=
  { s with out := { s.out with events := s.out.events ++ [e] } }

/-- The value the operation returns to the host (R62). -/
def setResult (r : OpResult) (s : State) : State := { s with out := { s.out with result := some r } }

/-- `emit(bytes, flag)` (R125): the raw frame as it stands, copied to the frame output. -/
def emitFrame (bytes : List Byte) (flag : Bool) (s : State) : State :=
  { s with out := { s.out with frame := some { bytes := bytes, len := bytes.length, crcCorrected := flag } } }

/-- `state <- tag` of the frame machine. -/
def setTag (tag : BitVec 3) (s : State) : State := { s with fsm := { s.fsm with state := tag } }

/-- `raw_len <- 0`. -/
def clearRaw (s : State) : State := { s with fsm := { s.fsm with raw := [] } }

/-- `sgI <- 0 ; sgQ <- 0`: the frame machine's write to BSYNC (R53). -/
def clearSigns (s : State) : State := { s with bsync := { s.bsync with sgI := .zero, sgQ := .zero } }

/-- `consecutive_prekey <- n`. -/
def setPrekey (n : Nat) (s : State) : State := { s with fsm := { s.fsm with consecutivePrekey := n } }

/-- `crc_err <- v`. -/
def setCrcErr (v : Bool) (s : State) : State := { s with fsm := { s.fsm with crcErr := v } }

/-- `push(raw, b)` (R10, R43). -/
def pushRaw (b : Byte) (s : State) : Except Fault State :=
  if s.fsm.raw.length = RAW_CAP then .error .rawOverflow
  else .ok { s with fsm := { s.fsm with raw := s.fsm.raw ++ [b] } }

/-- The reset of R118's other branch and of R117: signs, pre-key count and raw frame (R159). -/
def resetFrame (s : State) : State := clearRaw (setPrekey 0 (clearSigns s))

/-- GO_HEADLOST (R117). -/
def goHeadLost (s : State) : State := resetFrame (setTag stHeadLost s)

/-! ### Outcomes -/

/-- An operation's run as an outcome: a fault has no successor state (R145). -/
def ofExcept : Except Fault State → Host.Outcome State Fault Refusal
  | .ok s => .next s
  | .error f => .fault f

/-- A stateful operation is refused before the first RESET (R18, R146). -/
def runOnly (s : State) (k : Host.Outcome State Fault Refusal) : Host.Outcome State Fault Refusal :=
  if s.phase = .config then .refused .notReset else k

/-- An operand outside its type is a refusal, decided before any state changes (R147). -/
def withOperand {α : Type} (o : Except Refusal α) (k : α → Host.Outcome State Fault Refusal) :
    Host.Outcome State Fault Refusal :=
  match o with
  | .ok a => k a
  | .error r => .refused r

/-- A refusal mark, which stays for the rest of the run (R146). -/
def markRefused (r : Refusal) (s : State) : State := { s with refusals := s.refusals ++ [r] }

/-- A refusal the spec names (R146): its mark is recorded. -/
def Refusal.isMark : Refusal → Bool
  | .reservedOp => true
  | .notReset => true
  | .cfgLocked => true
  | .cfgRange => true
  | .oddIqBlock => true
  | .badBit => true
  | .badOperand => true
  | _ => false

/-- What the run makes of an operation's outcome: a next state and a fault stand; a refusal of R146 leaves the state
`s` the operation came to, with its mark, and the run goes on (R146, R157; log 11). -/
def settle (s : State) (o : Host.Outcome State Fault Refusal) : Host.Outcome State Fault Refusal :=
  match o with
  | .next t => .next t
  | .fault f => .fault f
  | .refused r => if r.isMark then .next (markRefused r (beginOp s)) else .refused r

end Sys2Proof.Machine
end

