-- ==== Sys2Proof/Machine/Flags.lean ====
section
/-! DEFINITION. The block's one-bit status values and signs (10_state.md R39: it has no condition codes), and the
comparisons of BS_FEED, in which a NaN is a fault (41_bitsync.md R110; DEDUCED, safe: which comparisons those are, log 18). -/

namespace Sys2Proof.Machine

/-- `x < y` in BS_FEED (R110). -/
def ltChecked (x y : Real64) : Except Fault Bool :=
  if x.isNaN || y.isNaN then .error .nanInLoop else .ok (Real64.lt x y)

/-- `x >= y` in BS_FEED (R110). -/
def geChecked (x y : Real64) : Except Fault Bool :=
  if x.isNaN || y.isNaN then .error .nanInLoop else .ok (Real64.le y x)

/-- `sign(x)` of a value that is no NaN (R11): -1, 0 or +1. -/
def signOf (x : Real64) : Sgn :=
  if Real64.lt Real64.zero x then .plus
  else if Real64.lt x Real64.zero then .minus
  else .zero

/-- `clamp(x, -EA_MAX, EA_MAX)` in BS_FEED (R105, R110). -/
def clampEa (x : Real64) : Except Fault Real64 :=
  if x.isNaN then .error .nanInLoop else .ok (Real64.clamp x (Real64.neg EA_MAX) EA_MAX)

/-- The sign memory after an integral (R107): written only while it is 0. -/
def latchSign (sg : Sgn) (integral : Real64) : Sgn := if sg = .zero then signOf integral else sg

/-- The slicer (R105, R106, R107): the sign memory and the bit `(integral * sg > 0) ? 1 : 0`. -/
def slice (sg : Sgn) (integral : Real64) : Except Fault (Sgn × Bool) := do
  let _ ← ltChecked integral Real64.zero
  let sg' := latchSign sg integral
  let bit ← ltChecked Real64.zero (integral.mul (Real64.ofInt sg'.toInt))
  .ok (sg', bit)

/-- `mute <- (silent_count > 1) and CFG_SINGLE_FREQ = 1` (R89). -/
def muteFlag (cfg : Cfg) (silentCount : Nat) : Bool := decide (1 < silentCount) && cfg.singleFreq

/-- `hop_request <- (silent_count > 1) and CFG_SINGLE_FREQ = 0` (R89). -/
def hopFlag (cfg : Cfg) (silentCount : Nat) : Bool := decide (1 < silentCount) && !cfg.singleFreq

end Sys2Proof.Machine
end

