-- ==== Sys2Proof/Machine/FrameFsm.lean ====
section
/-! DEFINITION. The frame state machine (42_frame_fsm.md): one function per state, and FSM_BYTE, which selects it. -/

namespace Sys2Proof.Machine

/-- State HeadLost (R118). -/
def fsmHeadLost (b : Byte) (s : State) : Except Fault (FsmResult × State) :=
  if b = PREKEY_BYTE then
    let n := s.fsm.consecutivePrekey + 1
    let s := setPrekey n s
    if PREKEY_MIN < n then .ok (.consumed 1, raiseEvent .headFound (setTag stHeadFound s))
    else .ok (.consumed 1, s)
  else .ok (.consumed 1, resetFrame s)

/-- `sync_forming <- (sync_forming >> 1) | (bit << 39)`, `sync_bits_have <- sync_bits_have + 1` (R120). -/
def syncShift (bit : Bool) (s : State) : State :=
  { s with
    fsm := { s.fsm with
      syncForming := (s.fsm.syncForming >>> 1) ||| ((BitVec.ofBool bit).zeroExtend 40 <<< 39)
      syncBitsHave := s.fsm.syncBitsHave + 1 } }

/-- `popcount(sync_forming XOR SYNC_CHECK)` (R120). -/
def syncDistance (w : Word40) : Nat := popcount (w ^^^ SYNC_CHECK)

/-- The sync match (R120): Text with `odd(SOH)` as the only raw byte. -/
def syncMatch (s : State) : Except Fault State := do
  let s ← pushRaw (oddByte chSOH) (clearRaw (setTag stText s))
  .ok (raiseEvent .syncFound s)

/-- The loop of R120 over the last `n` bits of `b`, bit `8 - n` next. -/
def syncScan (b : Byte) : Nat → State → Except Fault (FsmResult × State)
  | 0, s => .ok (.consumed 8, s)
  | n + 1, s =>
    let j := 7 - n
    let s := syncShift (b.getLsbD j) s
    if SYNC_BITS ≤ s.fsm.syncBitsHave then
      if syncDistance s.fsm.syncForming ≤ SYNC_TOL then do
        let s ← syncMatch s
        .ok (.consumed (j + 1), s)
      else if SYNC_MAX ≤ s.fsm.syncBitsHave then
        .ok (.consumed (j + 1), raiseEvent .syncTimeout (goHeadLost s))
      else syncScan b n s
    else syncScan b n s

/-- State Sync (R120). -/
def fsmSync (b : Byte) (s : State) : Except Fault (FsmResult × State) := syncScan b 8 s

/-- Entry to Sync (R119): the sync registers and the raw frame are cleared. -/
def enterSync (s : State) : State :=
  { s with fsm := { s.fsm with state := stSync, syncForming := 0#40, syncBitsHave := 0, raw := [] } }

/-- State HeadFound (R119): a byte that is not 0xFF is processed again in Sync, in the same call. -/
def fsmHeadFound (b : Byte) (s : State) : Except Fault (FsmResult × State) :=
  if b = PREKEY_BYTE then .ok (.consumed 1, s) else fsmSync b (enterSync s)

/-- `b = odd(ETX) or b = odd(ETB)` (R121). -/
def isTerminator (b : Byte) : Bool := decide (b = oddByte chETX) || decide (b = oddByte chETB)

/-- State Text (R121): the overflow test comes before the terminator test. -/
def fsmText (b : Byte) (s : State) : Except Fault (FsmResult × State) := do
  let s ← pushRaw b s
  if MAXBLK < s.fsm.raw.length - 1 then .ok (.consumed 8, raiseEvent .textOverflow (goHeadLost s))
  else if isTerminator b then .ok (.consumed 8, setTag stCrc1 s)
  else .ok (.consumed 8, s)

/-- State Crc1 (R122). -/
def fsmCrc1 (b : Byte) (s : State) : Except Fault (FsmResult × State) := do
  let s ← pushRaw b s
  .ok (.consumed 8, setTag stCrc2 s)

/-- State Crc2 (R123). -/
def fsmCrc2 (b : Byte) (s : State) : Except Fault (FsmResult × State) := do
  let s ← pushRaw b s
  .ok (.consumed 8, setTag stEnd s)

/-- An accepted frame (R124): emitted with the flag, its event, HeadLost. -/
def acceptFrame (bytes : List Byte) (corrected : Bool) (s : State) : State :=
  goHeadLost (raiseEvent (if corrected then .frameCorrected else .frameAccepted) (emitFrame bytes corrected s))

/-- State End (R124); the input byte is not used. -/
def fsmEnd (_ : Byte) (s : State) : Except Fault (FsmResult × State) :=
  if crcGen s.fsm.raw = 0#16 then .ok (.accepted, acceptFrame s.fsm.raw false (setCrcErr false s))
  else
    match firstCorrection s.fsm.raw with
    | some bytes => .ok (.accepted, acceptFrame bytes true (setCrcErr true s))
    | none => .ok (.consumed 8, goHeadLost (raiseEvent .crcFail (setCrcErr true s)))

/-- FSM_BYTE(b) in the current state (R116). -/
def fsmByte (b : Byte) (s : State) : Except Fault (FsmResult × State) :=
  match s.fsm.state.toNat with
  | 0 => fsmHeadLost b s
  | 1 => fsmHeadFound b s
  | 2 => fsmSync b s
  | 3 => fsmText b s
  | 4 => fsmCrc1 b s
  | 5 => fsmCrc2 b s
  | 6 => fsmEnd b s
  | _ => .error .badState

/-- An FSM_BYTE operation of the host: admission, operand, the state's rule, and `r` as its result (R116, R146).
The row's rule is applied whatever the state register holds (DESIGN CHOICE, safe: no step reaches another state, log 15). -/
def fsmOperation (rule : Byte → State → Except Fault (FsmResult × State)) (b : Int) (s : State) :
    Host.Outcome State Fault Refusal :=
  runOnly s (withOperand (operandU8 b) fun v =>
    ofExcept ((rule v (beginOp s)).map fun p => setResult (.fsm p.1.toInt) p.2))

/-- FSM_BYTE.HeadLost (R118). -/
def execFsmByteHeadLost (b : Int) (s : State) : Host.Outcome State Fault Refusal := fsmOperation fsmHeadLost b s

/-- FSM_BYTE.HeadFound (R119). -/
def execFsmByteHeadFound (b : Int) (s : State) : Host.Outcome State Fault Refusal := fsmOperation fsmHeadFound b s

/-- FSM_BYTE.Sync (R120). -/
def execFsmByteSync (b : Int) (s : State) : Host.Outcome State Fault Refusal := fsmOperation fsmSync b s

/-- FSM_BYTE.Text (R121). -/
def execFsmByteText (b : Int) (s : State) : Host.Outcome State Fault Refusal := fsmOperation fsmText b s

/-- FSM_BYTE.Crc1 (R122). -/
def execFsmByteCrc1 (b : Int) (s : State) : Host.Outcome State Fault Refusal := fsmOperation fsmCrc1 b s

/-- FSM_BYTE.Crc2 (R123). -/
def execFsmByteCrc2 (b : Int) (s : State) : Host.Outcome State Fault Refusal := fsmOperation fsmCrc2 b s

/-- FSM_BYTE.End (R124). -/
def execFsmByteEnd (b : Int) (s : State) : Host.Outcome State Fault Refusal := fsmOperation fsmEnd b s

end Sys2Proof.Machine
end

