-- ==== Sys2Proof/Machine/Link.lean ====
section
/-! DEFINITION. The bit link (41_bitsync.md R113) and its test port BIT_IN (R114). -/

namespace Sys2Proof.Machine

/-- The new bit enters at bit 7, the oldest bit leaves at bit 0 (R113, R44). -/
def shiftBit (bit : Bool) (l : Link) : Link where
  outbits := (l.outbits >>> 1) ||| ((BitVec.ofBool bit).zeroExtend 8 <<< 7)
  nbits := l.nbits + 1

/-- `nbits` after an FSM_BYTE call: 0 on an accepted frame, else less the bits consumed (R113). -/
def linkAfter (r : FsmResult) (s : State) : State :=
  match r with
  | .accepted => { s with link := { s.link with nbits := 0 } }
  | .consumed n => { s with link := { s.link with nbits := s.link.nbits - n } }

/-- LINK(bit) (R113). -/
def linkBit (bit : Bool) (s : State) : Except Fault State :=
  let s := { s with link := shiftBit bit s.link }
  if 8 ≤ s.link.nbits then (fsmByte s.link.outbits s).map fun p => linkAfter p.1 p.2
  else .ok s

/-- BIT_IN (R114). -/
def execBitIn (v : Int) (s : State) : Host.Outcome State Fault Refusal :=
  runOnly s (withOperand (operandBit v) fun bit => ofExcept (linkBit bit (beginOp s)))

end Sys2Proof.Machine
end

