-- ==== Sys2Proof/Machine/BitSync.lean ====
section
/-! DEFINITION. The bit synchronizer (41_bitsync.md): BS_FEED and its sub-steps, in the order of R94. -/

namespace Sys2Proof.Machine

/-- A circular buffer of BITLEN reals (R24). -/
abbrev Ring := Vector Real64 BITLEN

/-- `B[(i) mod BITLEN]` (R42). -/
def ringGet (v : Ring) (i : Nat) : Real64 := v[i % BITLEN]'(Nat.mod_lt i (by decide))

/-- `B[(i) mod BITLEN] <- x` (R42). -/
def ringSet (v : Ring) (i : Nat) (x : Real64) : Ring := v.set (i % BITLEN) x (Nat.mod_lt i (by decide))

/-- `Σ_{k=0}^{n-1} B[(is + k) mod BITLEN]` (R101, R105). -/
def windowSum (v : Ring) (is n : Nat) : Real64 := Real64.sum ((List.range n).map fun k => ringGet v (is + k))

/-- `C = Σ_{i=0}^{BITLEN-1} H[i] * csample[(is + i) mod BITLEN]` (R104). -/
def correlator (t : Trig) (v : Ring) (is : Nat) : Real64 :=
  Real64.sum ((List.range BITLEN).map fun i => (hWeight t i).mul (ringGet v (is + i)))

/-- `MOD4PI(x)` (R100). -/
def mod4pi (x : Real64) : Except Fault Real64 := do
  let r := Real64.fmod x FOURPI
  let below ← ltChecked r Real64.zero
  let r := if below then r.add FOURPI else r
  let above ← geChecked r FOURPI
  .ok (if above then r.sub FOURPI else r)

/-- `is <- (is + BITLEN - 1) mod BITLEN` (R95). -/
def prevIndex (is : Nat) : Nat := (is + BITLEN - 1) % BITLEN

/-- `lin <- LIN_A * real(|s|) + LIN_B * lin` (R96). -/
def trackLevel (x : Int) (lin : Real64) : Real64 :=
  (LIN_A.mul (Real64.ofInt (x.natAbs : Int))).add (LIN_B.mul lin)

/-- `u <- (lin = 0) ? real(0) : real(s) / lin` (R97). -/
def normalise (x : Int) (lin : Real64) : Except Fault Real64 :=
  if lin.isNaN then .error .nanInLoop
  else .ok (if lin.isZero then Real64.zero else (Real64.ofInt x).div lin)

/-- One variable-frequency oscillator: its phase, drift, buffer, and the oscillator value of this sample. -/
structure Vfo where
  phi : Real64
  df : Real64
  ring : Ring
  osc : Real64
deriving DecidableEq, Repr

/-- The argument of MOD4PI: `(phi + DPHI) - VFOPLL * df`, with the drift of the previous sample (R98, R162). -/
def phaseArg (dphi phi df : Real64) : Real64 := (phi.add dphi).sub (VFOPLL.mul df)

/-- One VFO step (R98, R99): the phase from the drift of the previous sample, the buffer entry, the drift with the
new entry, the half-angle oscillator. -/
def vfoStep (t : Trig) (dphi u2 : Real64) (is : Nat) (phi df : Real64) (ring : Ring) : Except Fault Vfo := do
  let phi ← mod4pi (phaseArg dphi phi df)
  let ring := ringSet ring is (u2.mul (sinOf t phi))
  .ok { phi := phi, df := windowSum ring is DF_LEN, ring := ring, osc := cosOf t (phi.div (Real64.ofInt 2)) }

/-- Steps 1 to 5 of BS_FEED (R95 to R102): index, level, both VFOs, mixers. -/
def bsFront (par : Params) (x : Int) (b : Bsync) : Except Fault Bsync := do
  let is := prevIndex b.is
  let lin := trackLevel x b.lin
  let u ← normalise x lin
  let u2 := u.mul u
  let h ← vfoStep par.trig DPHI_H u2 is b.phiH b.dfH b.hsample
  let l ← vfoStep par.trig DPHI_L u2 is b.phiL b.dfL b.lsample
  .ok { b with
    is := is, lin := lin
    phiH := h.phi, dfH := h.df, hsample := h.ring
    phiL := l.phi, dfL := l.df, lsample := l.ring
    isample := ringSet b.isample is (u.mul (l.osc.add h.osc))
    qsample := ringSet b.qsample is (u.mul (l.osc.sub h.osc))
    csample := ringSet b.csample is (l.osc.mul h.osc) }

/-- `real(BITLEN div 4) + ea` (R103). -/
def clockThreshold (ea : Real64) : Real64 := (Real64.ofInt ((BITLEN / 4 : Nat) : Int)).add ea

/-- `BITPLL * (C - ppC)` (R105, R106). -/
def timingError (c ppC : Real64) : Real64 := BITPLL.mul (c.sub ppC)

/-- The Q branch (R105): a local minimum at the previous tick. -/
def sliceQ (par : Params) (c : Real64) (b : Bsync) : Except Fault Bsync := do
  let (sg, bit) ← slice b.sgQ (windowSum b.qsample b.is par.integLen)
  let ea ← clampEa (timingError c b.ppC).neg
  .ok { b with sgQ := sg, bit := bit, ea := ea, bitValid := true }

/-- The I branch (R106): a local maximum at the previous tick. -/
def sliceI (par : Params) (c : Real64) (b : Bsync) : Except Fault Bsync := do
  let (sg, bit) ← slice b.sgI (windowSum b.isample b.is par.integLen)
  let ea ← clampEa (timingError c b.ppC)
  .ok { b with sgI := sg, bit := bit, ea := ea, bitValid := true }

/-- Steps 6b and 6c (R105, R106, R108): at most one branch runs. -/
def bsSlice (par : Params) (c : Real64) (b : Bsync) : Except Fault Bsync := do
  let rising ← ltChecked b.pC c
  let belowOld ← ltChecked b.pC b.ppC
  let falling ← ltChecked c b.pC
  let aboveOld ← ltChecked b.ppC b.pC
  if rising && belowOld then sliceQ par c b
  else if falling && aboveOld then sliceI par c b
  else .ok b

/-- Steps 6b to 6d with the correlator's value (R105 to R109), and the clock at 0. -/
def tickWith (par : Params) (c : Real64) (b : Bsync) : Except Fault Bsync := do
  let b' ← bsSlice par c { b with clock := 0 }
  .ok { b' with ppC := b'.pC, pC := c }

/-- A tick (R103 to R109): steps 6a to 6d. -/
def bsTick (par : Params) (b : Bsync) : Except Fault Bsync := tickWith par (correlator par.trig b.csample b.is) b

/-- Step 6 (R103): the bit clock. -/
def bsClock (par : Params) (b : Bsync) : Except Fault Bsync := do
  let n := b.clock + 1
  let tick ← geChecked (Real64.ofInt (n : Int)) (clockThreshold b.ea)
  if tick then bsTick par b else .ok { b with clock := n }

/-- BS_FEED(s) (R94): the synchronizer's step, then LINK when it produced a bit. -/
def bsFeed (x : Int) (s : State) : Except Fault State := do
  let front ← bsFront s.par x { s.bsync with bitValid := false, bit := false }
  let b ← bsClock s.par front
  let s := { s with bsync := b }
  if b.bitValid then linkBit b.bit s else .ok s

/-- BS_FEED as an operation of the host (R94). -/
def execBsFeed (x : Int) (s : State) : Host.Outcome State Fault Refusal :=
  runOnly s (withOperand (operandS16 x) fun v => ofExcept (bsFeed v (beginOp s)))

/-- BS_FEED of a conditioned sample, issued by COND (R90, R94): the same step, without the host's admission. -/
def feedStream (x : Int) (s : State) : Host.Outcome State Fault Refusal := ofExcept (bsFeed x (beginOp s))

end Sys2Proof.Machine
end

