-- ==== Sys2Proof/Machine/Conditioner.lean ====
section
/-! DEFINITION. The baseband conditioner (40_conditioner.md): COND_BLOCK and its stages, in the order of R77. -/

namespace Sys2Proof.Machine

/-- The pairs of an IQ block, I first (R48). -/
def iqPairs : List Byte → List (Byte × Byte)
  | i :: q :: rest => (i, q) :: iqPairs rest
  | _ => []

/-- `255 - x` (R79). -/
def negByte (x : Byte) : Byte := 255#8 - x

/-- `ROTATE(rot_idx, I, Q)` (R79). -/
def rotatePair (r : Fin 4) (i q : Byte) : Byte × Byte :=
  match r with
  | 0 => (i, q)
  | 1 => (negByte q, i)
  | 2 => (negByte i, negByte q)
  | 3 => (q, negByte i)

/-- `v = x - 127` (R67, R80). -/
def offset127 (x : Byte) : Int := (x.toNat : Int) - 127

/-- The weight of the next pair of the window (R81). -/
def firWeight (cfg : Cfg) (n : Nat) : Int := if cfg.firHamming then cfg.hammingW.getD n 0 else 1

/-- `(x * 5) div 8`, toward zero (R82). -/
def fiveEighths (x : Int) : Int := (x * 5).tdiv 8

/-- `isqrt` digit by digit: adds `2^k` to the root while the square stays at most `n`. -/
def isqrtBits (n : Nat) : Nat → Nat → Nat
  | 0, r => r
  | k + 1, r => isqrtBits n k (if (r + 2 ^ k) * (r + 2 ^ k) ≤ n then r + 2 ^ k else r)

/-- `isqrt(n)`: the greatest integer whose square is at most `n` (R83). -/
def isqrt (n : Nat) : Nat := isqrtBits n (n.log2 / 2 + 1) 0

/-- `ENVELOPE(oi, oq)` (R83). -/
def envelope (d : Nat) (oi oq : Int) : Int :=
  min 32767 ((isqrt (oi * oi + oq * oq).toNat * outScale d * 8 : Nat) : Int)

/-- The running state of COND_BLOCK's first loop: the conditioner, `P` and `X` so far (R77). -/
structure CondRun where
  cond : Cond
  pairs : List (Int × Int)
  samples : List Int
deriving DecidableEq, Repr

/-- `POSTDOWN(e)` (R85). -/
def postDown (cfg : Cfg) (e : Int) (r : CondRun) : CondRun :=
  let acc := r.cond.postAcc + e
  let cnt := r.cond.postCnt + 1
  if cnt = cfg.post then
    { r with cond := { r.cond with postAcc := 0, postCnt := 0 }, samples := r.samples ++ [min 32767 acc] }
  else { r with cond := { r.cond with postAcc := acc, postCnt := cnt } }

/-- The end of a decimation window (R81, R82, R83): attenuate an odd output, append it to `P`, pass its envelope on. -/
def windowDone (par : Params) (cfg : Cfg) (ai aq : Int) (r : CondRun) : CondRun :=
  let oi := if r.cond.decOdd then fiveEighths ai else ai
  let oq := if r.cond.decOdd then fiveEighths aq else aq
  postDown cfg (envelope par.downsample oi oq)
    { r with
      cond := { r.cond with decAccI := 0, decAccQ := 0, decCnt := 0, decOdd := !r.cond.decOdd }
      pairs := r.pairs ++ [(oi, oq)] }

/-- `DECIMATE(vi, vq)` (R81). -/
def decimate (par : Params) (cfg : Cfg) (vi vq : Int) (r : CondRun) : CondRun :=
  let w := firWeight cfg r.cond.decCnt
  let ai := r.cond.decAccI + w * vi
  let aq := r.cond.decAccQ + w * vq
  let cnt := r.cond.decCnt + 1
  if cnt = par.downsample then windowDone par cfg ai aq r
  else { r with cond := { r.cond with decAccI := ai, decAccQ := aq, decCnt := cnt } }

/-- One IQ pair of COND_BLOCK (R77): rotate, convert, decimate. -/
def condPair (par : Params) (cfg : Cfg) (r : CondRun) (p : Byte × Byte) : CondRun :=
  let (i, q) := rotatePair r.cond.rotIdx p.1 p.2
  decimate par cfg (offset127 i) (offset127 q)
    { r with cond := { r.cond with rotIdx := r.cond.rotIdx + 1 } }

/-- The pairs of a block, in index order (R77, R54). -/
def condPairs (par : Params) (cfg : Cfg) (c : Cond) (ps : List (Byte × Byte)) : CondRun :=
  ps.foldl (condPair par cfg) { cond := c, pairs := [], samples := [] }

/-- `sat16`: clamp to -32768..32767 (R86). -/
def sat16 (n : Int) : Int := max (-32768) (min 32767 n)

/-- `sat16(trunc(y))` (R86). An infinity saturates; what a NaN truncates to is free (log 19). -/
def satTrunc (y : Real64) : Int :=
  if y.isNaN then sat16 (Config.truncNaN y)
  else if y.isInf then (if y.negative then -32768 else 32767)
  else sat16 y.truncFinite

/-- `DEEMPH(X)` (R86): the new `deemph_y` and the samples. -/
def deemph (a : Real64) : Real64 → List Int → Real64 × List Int
  | y, [] => (y, [])
  | y, x :: xs =>
    let y' := y.add (a.mul ((Real64.ofInt x).sub y))
    let rest := deemph a y' xs
    (rest.1, satTrunc y' :: rest.2)

/-- `(Σ real(x)) / real(n)` over a list of `n` values, in order (R87, R88). -/
def meanOf (xs : List Int) : Real64 :=
  (Real64.sum (xs.map Real64.ofInt)).div (Real64.ofInt (xs.length : Int))

/-- `DCBLOCK(X)` (R87): the new `dc_avg` and the samples. -/
def dcBlock (avg : Real64) (xs : List Int) : Real64 × List Int :=
  if xs.isEmpty then (avg, xs)
  else
    let avg' := (DC_ALPHA.mul avg).add (((Real64.ofInt 1).sub DC_ALPHA).mul (meanOf xs))
    (avg', xs.map fun x => satTrunc ((Real64.ofInt x).sub avg'))

/-- The mean absolute deviation `(Σ |real(x) - mean|) / real(n)` (R88). -/
def deviationOf (xs : List Int) : Real64 :=
  let mean := meanOf xs
  (Real64.sum (xs.map fun x => ((Real64.ofInt x).sub mean).abs)).div (Real64.ofInt (xs.length : Int))

/-- `silent` of R88. -/
def isSilent (cfg : Cfg) (ps : List (Int × Int)) : Bool :=
  decide (0 < cfg.squelchL) &&
    Real64.le (deviationOf (ps.map Prod.fst)) (Real64.ofInt (cfg.squelchL : Int)) &&
    Real64.le (deviationOf (ps.map Prod.snd)) (Real64.ofInt (cfg.squelchL : Int))

/-- `SQUELCH(P)` (R88, R89): the new count and the two flags. -/
def squelch (cfg : Cfg) (ps : List (Int × Int)) (c : Cond) : Cond :=
  if ps.isEmpty then { c with mute := false, hopRequest := false }
  else
    let count := if isSilent cfg ps then c.silentCount + 1 else 0
    { c with silentCount := count, mute := muteFlag cfg count, hopRequest := hopFlag cfg count }

/-- The optional stages on the samples of a block (R84): de-emphasis, then the DC blocker. -/
def optionalStages (cfg : Cfg) (c : Cond) (xs : List Int) : Cond × List Int :=
  let (y, xs) := if cfg.deemphEn then deemph cfg.deemphA c.deemphY xs else (c.deemphY, xs)
  let (avg, xs) := if cfg.dcblockEn then dcBlock c.dcAvg xs else (c.dcAvg, xs)
  ({ c with deemphY := y, dcAvg := avg }, xs)

/-- What COND_BLOCK does to the conditioner, and the samples it sends on, muted ones zeroed (R77, R89). -/
def conditionBlock (par : Params) (cfg : Cfg) (c : Cond) (data : List Byte) : Cond × List Int :=
  let r := condPairs par cfg c (iqPairs data)
  let (c, xs) := optionalStages cfg r.cond r.samples
  let c := squelch cfg r.pairs c
  (c, if c.mute then List.replicate xs.length 0 else xs)

/-- The events of a block (R89). -/
def squelchEvents (c : Cond) : List Event :=
  (if c.mute then [Event.squelchMute] else []) ++ (if c.hopRequest then [Event.hopRequest] else [])

/-- COND_BLOCK on an admitted block (R77): the samples join the stream to BSYNC (R54, R90). -/
def condBlock (data : List Byte) (s : State) : State :=
  let (c, xs) := conditionBlock s.par s.cfg s.cond data
  { s with
    cond := c
    stream := s.stream ++ xs
    out := { s.out with events := s.out.events ++ squelchEvents c } }

/-- COND_BLOCK (R77). -/
def execCondBlock (data : List Int) (s : State) : Host.Outcome State Fault Refusal :=
  runOnly s (withOperand (operandIq data) fun bytes => .next (condBlock bytes (beginOp s)))

end Sys2Proof.Machine
end

