-- ==== Sys2Proof/Machine/CrcOps.lean ====
section
/-! DEFINITION. The combinational operations of 43_crc.md section 3. They read only their operands, write no state, and
are admitted in both phases (10_state.md R18). -/

namespace Sys2Proof.Machine

/-- A combinational operation: no state but its result (R53). -/
def combinational (r : OpResult) (s : State) : Host.Outcome State Fault Refusal := .next (setResult r (beginOp s))

/-- CRC_GEN (R137). -/
def execCrcGen (data : List Int) (s : State) : Host.Outcome State Fault Refusal :=
  withOperand (operandSeq data) fun bytes => combinational (.u16 (crcGen bytes)) s

/-- CRC_CHECK (R138). -/
def execCrcCheck (data : List Int) (s : State) : Host.Outcome State Fault Refusal :=
  withOperand (operandSeq data) fun bytes => combinational (.truth (crcCheck bytes)) s

/-- CRC_FOLD (R135). -/
def execCrcFold (crc b : Int) (s : State) : Host.Outcome State Fault Refusal :=
  withOperand (operandCrcByte crc b) fun p => combinational (.u16 (crcFold p.1 p.2)) s

/-- CRC_FOLD_REV (R136). -/
def execCrcFoldRev (crc b : Int) (s : State) : Host.Outcome State Fault Refusal :=
  withOperand (operandCrcByte crc b) fun p => combinational (.u16 (crcFoldRev p.1 p.2)) s

/-- ODD_PARITY (R139). -/
def execOddParity (c : Int) (s : State) : Host.Outcome State Fault Refusal :=
  withOperand (operandU8 c) fun v => combinational (.u8 (oddByte v)) s

end Sys2Proof.Machine
end

