-- ==== Sys2Proof/Machine/System.lean ====
section
/-! DEFINITION. RESET (70_reset_and_hazards.md R158) and the host's configuration writes (10_state.md R17). -/

namespace Sys2Proof.Machine

/-- Every state element at its reset value, `phase <- RUN` (R158). The configuration registers, the parameters, the
run's records and what is still in flight to and from the host stay (log 9). -/
def resetState (s : State) : State :=
  { s with
    phase := .run
    cond := Cond.reset
    bsync := Bsync.reset
    link := Link.reset
    fsm := Fsm.reset
    out := Outputs.empty }

/-- RESET (R158), admitted in both phases. -/
def execReset (s : State) : Host.Outcome State Fault Refusal := .next (resetState s)

/-- Is a configuration value in its range (R17)? -/
def cfgInRange (d : Nat) : CfgWrite → Bool
  | .post n => decide (1 ≤ n) && decide (n ≤ 16)
  | .firHamming _ => true
  | .hammingW ws => decide (ws.length = d)
  | .squelchL n => decide (0 ≤ n)
  | .singleFreq _ => true
  | .deemphEn _ => true
  | .deemphA a => Real64.lt Real64.zero a && Real64.le a (Real64.ofInt 1)
  | .dcblockEn _ => true

/-- The register a configuration write stores to (R17). -/
def cfgStore (w : CfgWrite) (c : Cfg) : Cfg :=
  match w with
  | .post n => { c with post := n.toNat }
  | .firHamming v => { c with firHamming := v }
  | .hammingW ws => { c with hammingW := ws }
  | .squelchL n => { c with squelchL := n.toNat }
  | .singleFreq v => { c with singleFreq := v }
  | .deemphEn v => { c with deemphEn := v }
  | .deemphA a => { c with deemphA := a }
  | .dcblockEn v => { c with dcblockEn := v }

/-- A configuration write (R17): locked in RUN, refused out of range, stored otherwise; the lock is tested first
(R147). -/
def configWrite (w : CfgWrite) (s : State) : Host.Outcome State Fault Refusal :=
  if s.phase = .run then .refused .cfgLocked
  else if cfgInRange s.par.downsample w then .next { beginOp s with cfg := cfgStore w s.cfg }
  else .refused .cfgRange

end Sys2Proof.Machine
end

