-- ==== Sys2Proof/Machine/Dispatch.lean ====
section
/-! DEFINITION. exec: one arm per row of spec/opcode_table.json. -/

namespace Sys2Proof.Machine

def exec (i : Instr) (s : State) : Host.Outcome State Fault Refusal :=
  match i with
  | .reset => Sys2Proof.Machine.execReset s
  | .condBlock data => Sys2Proof.Machine.execCondBlock data s
  | .bsFeed x => Sys2Proof.Machine.execBsFeed x s
  | .bitIn v => Sys2Proof.Machine.execBitIn v s
  | .fsmByteHeadLost b => Sys2Proof.Machine.execFsmByteHeadLost b s
  | .fsmByteHeadFound b => Sys2Proof.Machine.execFsmByteHeadFound b s
  | .fsmByteSync b => Sys2Proof.Machine.execFsmByteSync b s
  | .fsmByteText b => Sys2Proof.Machine.execFsmByteText b s
  | .fsmByteCrc1 b => Sys2Proof.Machine.execFsmByteCrc1 b s
  | .fsmByteCrc2 b => Sys2Proof.Machine.execFsmByteCrc2 b s
  | .fsmByteEnd b => Sys2Proof.Machine.execFsmByteEnd b s
  | .crcGen data => Sys2Proof.Machine.execCrcGen data s
  | .crcCheck data => Sys2Proof.Machine.execCrcCheck data s
  | .crcFold crc b => Sys2Proof.Machine.execCrcFold crc b s
  | .crcFoldRev crc b => Sys2Proof.Machine.execCrcFoldRev crc b s
  | .oddParity c => Sys2Proof.Machine.execOddParity c s

end Sys2Proof.Machine
end

