-- ==== Sys2Proof/Machine/Fetch.lean ====
section
/-! DEFINITION. What the block does next (20_memory.md R52, R54, R55): feed the oldest conditioned sample to BSYNC, or
serve the oldest host item, or idle (60_exceptions.md R155). The block has no program counter and fetches no
instructions (10_state.md R16): the operation is the host's, and the decoder inserts the `state` tag in its key. -/

namespace Sys2Proof.Machine

/-- What a step does, with the state from which it is done (the item taken out of its queue). -/
inductive Fetched where
  /-- Nothing is pending. -/
  | idle
  /-- BS_FEED of a conditioned sample. -/
  | feed (x : Int) (s : State)
  /-- A configuration write. -/
  | cfgWrite (w : CfgWrite) (s : State)
  /-- An operation of the host. -/
  | instr (i : Instr) (s : State)
  /-- A transaction that selects no operation. -/
  | reject (r : Reject) (key : Byte) (operands : List Int) (s : State)
deriving DecidableEq, Repr

/-- The oldest host item (R54). -/
def fetchHost (s : State) : Fetched :=
  match s.inbox with
  | [] => .idle
  | .cfgWrite w :: rest => .cfgWrite w { s with inbox := rest }
  | .op key operands :: rest =>
    match decode (formKey key s.fsm.state) operands with
    | .ok i => .instr i { s with inbox := rest }
    | .error r => .reject r (formKey key s.fsm.state) operands { s with inbox := rest }

/-- Is the oldest host item a COND_BLOCK (key `op` 1, `rsv` 0)? -/
def nextIsCondBlock (s : State) : Bool :=
  match s.inbox with
  | .op key _ :: _ => decide (keyOp key = 1) && !keyRsv key
  | _ => false

/-- What the block does next. While conditioned samples are pending, BSYNC takes the oldest; only COND may move
instead, when the next host item is a COND_BLOCK and `schedule` says so (R55; log 8). -/
def fetch (s : State) : Fetched :=
  match s.stream with
  | [] => fetchHost s
  | x :: xs =>
    if nextIsCondBlock s then
      if s.schedule.headD false then fetchHost { s with schedule := s.schedule.tail }
      else .feed x { s with stream := xs, schedule := s.schedule.tail }
    else .feed x { s with stream := xs }

/-- Is an operation with this key one that needs RUN (R18, R146)? -/
def keyNeedsRun (key : Byte) : Bool := decide (1 ≤ keyOp key) && decide (keyOp key ≤ 4)

/-- A transaction that selects no operation, in the priority of R147: RESERVED_OP, then NOT_RESET, then BAD_OPERAND;
`state = 7` is a fault (R64; DEDUCED, safe: after the refusals, log 16). -/
def rejected (r : Reject) (key : Byte) (operands : List Int) (s : State) : Host.Outcome State Fault Refusal :=
  match r with
  | .reservedOp => .refused .reservedOp
  | .noKey => .refused .reservedOp
  | .operandShape =>
    if keyNeedsRun key && decide (s.phase = .config) then .refused .notReset else .refused .badOperand
  | .badState =>
    if s.phase = .config then .refused .notReset
    else if operands.length = 1 && operands.all isU8 then .fault .badState
    else .refused .badOperand

/-- The transaction of a row's bits: its key and its operand values. -/
def itemOfTableWord (nbits w : Nat) : HostItem :=
  match tableWordBytes nbits w with
  | [] => .op 0#8 []
  | key :: rest => .op key (operandsOfBytes key rest)

/-- The state in which the next step runs the transaction of a row's bits: it is the oldest host item, no conditioned
sample is pending, and for FSM_BYTE the frame machine is in the state the row names, because the decoder inserts that
state in the key (R61). -/
def placeTableWord (s : State) (nbits w : Nat) : State :=
  let key : Byte := BitVec.ofNat 8 (w % 2 ^ nbits)
  { s with
    inbox := itemOfTableWord nbits w :: s.inbox
    stream := []
    fsm := if keyOp key = 4 then { s.fsm with state := keySt key } else s.fsm }

end Sys2Proof.Machine
end

