-- ==== Sys2Proof/Machine/Step.lean ====
section
/-! DEFINITION. One step of the block. -/

namespace Sys2Proof.Machine

/-- One step: what `fetch` found, run, and a refusal of the spec recorded as its mark (`settle`). An idle step keeps the
state (R155); the outputs of the operation before are not held after it either (R31, R38; log 10). -/
def step (s : State) : Host.Outcome State Fault Refusal :=
  match fetch s with
  | .idle => .next (beginOp s)
  | .feed x t => feedStream x t
  | .cfgWrite w t => settle t (configWrite w t)
  | .instr i t => settle t (exec i t)
  | .reject r key operands t => settle t (rejected r key operands t)

/-- `s` with the instruction whose bits are `w` placed where the next step takes its operation. -/
def State.withFetchWord (s : State) (nbits w : Nat) : State := placeTableWord s nbits w

end Sys2Proof.Machine
end

