-- ==== Sys2Proof/Machine/Layout.lean ====
section
/-! DEFINITION. The layout of an accepted frame, for the consumer of the frame output (00_scope.md R4, 30_encoding.md
R72, R73). The block never checks it: no rule of the frame machine reads a field. -/

namespace Sys2Proof.Machine

/-- The fields of a frame, in their order (R72). -/
inductive FrameField where
  | soh
  | mode
  | address
  | ack
  | label
  | blockId
  | stx
  | seqNo
  | flightId
  | text
  | terminator
  | crc
deriving DecidableEq, Repr

/-- Every field, in the order of the layout (R72). -/
def frameFields : List FrameField :=
  [.soh, .mode, .address, .ack, .label, .blockId, .stx, .seqNo, .flightId, .text, .terminator, .crc]

/-- The raw index and the length of a field in a frame of `len` bytes (R72). The layout is that of a frame of at least
27 bytes; in a shorter one, which the block accepts all the same, the text is empty and the positions overlap
(DESIGN CHOICE, safe, log 28). -/
def FrameField.place (len : Nat) : FrameField → Nat × Nat
  | .soh => (0, 1)
  | .mode => (1, 1)
  | .address => (2, 7)
  | .ack => (9, 1)
  | .label => (10, 2)
  | .blockId => (12, 1)
  | .stx => (13, 1)
  | .seqNo => (14, 4)
  | .flightId => (18, 6)
  | .text => (24, len - 27)
  | .terminator => (len - 3, 1)
  | .crc => (len - 2, 2)

/-- The bytes of a field of a frame record (R72, R74). -/
def FrameRecord.field (r : FrameRecord) (f : FrameField) : List Byte :=
  (r.bytes.drop (f.place r.len).1).take (f.place r.len).2

/-- A content byte without its parity bit, as the consumer takes it (R73); the block itself never strips it. -/
def stripParity (b : Byte) : Byte := b &&& 0x7F#8

end Sys2Proof.Machine
end

