-- ==== Sys2Proof/Safety.lean ====
section
/-! DEFINITION. What a run is and what is observed of it (60_exceptions.md R157), what counts as a safe run (R145), the
invariant of the states a run reaches, and the premises on the host (R90, R156). -/

namespace Sys2Proof.Safety

open Sys2Proof.Machine

/-- Nothing is pending: no host item and no conditioned sample (R157). -/
def finished (s : State) : Bool := s.inbox.isEmpty && s.stream.isEmpty

/-- The observation of a run (R157): frames, squelch bits per COND_BLOCK, the results of BS_FEED and of the operations that
return a value, events, the fault, and the final state with its refusal marks. The events are kept per operation, those
of COND_BLOCKs apart from those of the other operations (`condEvents`, `events`): R144 orders events only within one
operation and R157 says only "the events", so how the lists of different operations stand together is the model's
(DESIGN CHOICE, safe, log 27). R157 lists "the results of the operations that return values" without an order: that the
results of BS_FEED (`bits`) and those of the other operations (`results`) are two lists, each in the order served, is
the model's (DESIGN CHOICE, safe, log 29). -/
structure Observation where
  frames : List FrameRecord
  squelch : List (Bool × Bool)
  bits : List (Bool × Bool)
  results : List OpResult
  condEvents : List (List Event)
  events : List (List Event)
  fault : Option Fault
  final : State
deriving DecidableEq, Repr

/-- Did the step from `s` run an operation of the host for which `p` holds? -/
def ranOperation (p : Instr → Bool) (s : State) : Bool :=
  match fetch s with
  | .instr i t =>
    match exec i t with
    | .next _ => p i
    | _ => false
  | _ => false

/-- COND_BLOCK, whose squelch bits the host gets back (R156). -/
def isCondBlock : Instr → Bool
  | .condBlock _ => true
  | _ => false

/-- BS_FEED, whose `bit_valid` and `bit` the host gets back (R62, R156). -/
def isBsFeed : Instr → Bool
  | .bsFeed _ => true
  | _ => false

/-- Does the step from `s` feed a conditioned sample to BSYNC? -/
def feedsSample (s : State) : Bool :=
  match fetch s with
  | .feed _ _ => true
  | _ => false

/-- The observation after one more step, from `s` to `t`. Each operation adds one list of events, to those of COND or to
those of the other agents, so no list depends on how COND and BSYNC interleave (R55; DESIGN CHOICE, safe, log 27). A
BS_FEED of the host adds its result to `bits`, another operation its own to `results`, so the order of the one kind
beside the other is not observed (DESIGN CHOICE, safe, log 29). -/
def Observation.extend (o : Observation) (s t : State) : Observation :=
  { o with
    frames := o.frames ++ t.out.frame.toList
    squelch := o.squelch ++ (if ranOperation isCondBlock s then [(t.cond.mute, t.cond.hopRequest)] else [])
    bits := o.bits ++ (if ranOperation isBsFeed s then [(t.bsync.bitValid, t.bsync.bit)] else [])
    results := o.results ++ t.out.result.toList
    condEvents := o.condEvents ++ (if ranOperation isCondBlock s then [t.out.events] else [])
    events :=
      o.events ++ (if feedsSample s || ranOperation (fun i => !isCondBlock i) s then [t.out.events] else [])
    final := t }

/-- At most `n` steps of a run, which ends when nothing is pending or at the first fault (R157). The refusal marks are
in the final state. -/
def observe : Nat → Observation → Observation
  | 0, o => o
  | n + 1, o =>
    if finished o.final then o
    else
      match step o.final with
      | .next t => observe n (o.extend o.final t)
      | .fault f => { o with fault := some f }
      | .refused _ => o

/-- The observation a run starts with. -/
def Observation.start (s : State) : Observation where
  frames := []
  squelch := []
  bits := []
  results := []
  condEvents := []
  events := []
  fault := none
  final := s

/-- A safe run: `n` steps from `s` meet no fault (R145). -/
def safeRun (n : Nat) (s : State) : Bool := (observe n (Observation.start s)).fault.isNone

/-- The configuration registers are in their ranges (R17) and the parameters in theirs (R6). -/
def ConfigOk (s : State) : Prop :=
  1 ≤ s.par.downsample ∧ 1 ≤ s.cfg.post ∧ s.cfg.post ≤ 16 ∧ s.cfg.hammingW.length = s.par.downsample ∧
    Real64.lt Real64.zero s.cfg.deemphA = true ∧ Real64.le s.cfg.deemphA (Real64.ofInt 1) = true

/-- The conditioner's counters are in their ranges (R20, R21) and the pending samples are s16 (R68). -/
def CondOk (s : State) : Prop :=
  s.cond.decCnt < s.par.downsample ∧ s.cond.postCnt < s.cfg.post ∧ 0 ≤ s.cond.postAcc ∧
    ∀ x ∈ s.stream, isS16 x = true

/-- The synchronizer's index and timing adjustment are in their ranges (R25, R27, R111). -/
def BsyncOk (s : State) : Prop :=
  s.bsync.is < BITLEN ∧ Real64.le (Real64.neg EA_MAX) s.bsync.ea = true ∧ Real64.le s.bsync.ea EA_MAX = true

/-- The bit link holds fewer than 8 bits between operations (R32, R113). -/
def LinkOk (s : State) : Prop := s.link.nbits < 8

/-- The frame machine's tag is one of the seven, and its counters and its buffer are in the ranges its state allows
(R34 to R36, R43, R66, R118 to R123). -/
def FsmOk (s : State) : Prop :=
  s.fsm.syncBitsHave ≤ SYNC_MAX ∧ s.fsm.consecutivePrekey ≤ PREKEY_MIN + 1 ∧
    ((s.fsm.state = stHeadLost ∧ s.fsm.raw = [] ∧ s.fsm.consecutivePrekey ≤ PREKEY_MIN) ∨
      (s.fsm.state = stHeadFound ∧ s.fsm.raw = []) ∨
      (s.fsm.state = stSync ∧ s.fsm.raw = [] ∧ s.fsm.syncBitsHave < SYNC_MAX) ∨
      (s.fsm.state = stText ∧ 1 ≤ s.fsm.raw.length ∧ s.fsm.raw.length ≤ MAXBLK + 1) ∨
      (s.fsm.state = stCrc1 ∧ 2 ≤ s.fsm.raw.length ∧ s.fsm.raw.length ≤ MAXBLK + 1) ∨
      (s.fsm.state = stCrc2 ∧ 3 ≤ s.fsm.raw.length ∧ s.fsm.raw.length ≤ MAXBLK + 2) ∨
      (s.fsm.state = stEnd ∧ 4 ≤ s.fsm.raw.length ∧ s.fsm.raw.length ≤ RAW_CAP))

/-- The invariant of every state a run reaches: the configuration always, the agents' state once RESET has given it a
value (R18, R161). -/
def Inv (s : State) : Prop :=
  ConfigOk s ∧ (s.phase = .run → CondOk s ∧ BsyncOk s ∧ LinkOk s ∧ FsmOk s)

/-- A finite value of size at most `n`. -/
def Bounded (n : Nat) (x : Real64) : Prop := x.isFinite = true ∧ x.units ≤ n * oneUnits

/-- The real state of the synchronizer is bounded as its rules bound it: the level by the sample range, `u` by 512
(R97: `|u| <= 1 / LIN_A`), the buffers and sums by that and by oscillators of size at most 1. -/
def NumericOk (s : State) : Prop :=
  s.par.integLen ≤ 2 ^ 20 ∧
    (s.bsync.lin.negative = false ∧ Bounded (2 ^ 16) s.bsync.lin) ∧
    (Bounded 16 s.bsync.phiH ∧ Bounded 16 s.bsync.phiL) ∧
    (Bounded (20 * 2 ^ 18) s.bsync.dfH ∧ Bounded (20 * 2 ^ 18) s.bsync.dfL) ∧
    (Bounded 64 s.bsync.pC ∧ Bounded 64 s.bsync.ppC) ∧
    ∀ i, Bounded (2 ^ 18) (ringGet s.bsync.hsample i) ∧ Bounded (2 ^ 18) (ringGet s.bsync.lsample i) ∧
      Bounded 1024 (ringGet s.bsync.isample i) ∧ Bounded 1024 (ringGet s.bsync.qsample i) ∧
      Bounded 1 (ringGet s.bsync.csample i)

/-! ### The words the statements are written in -/

/-- `s` with exactly the given outputs of one operation; `bit_valid` and `bit` are 0 outside a BS_FEED (R31, R38). -/
def opOutputs (s : State) (frame : Option FrameRecord) (events : List Event) (result : Option OpResult) : State :=
  { s with
    out := { frame := frame, events := events, result := result }
    bsync := { s.bsync with bitValid := false, bit := false } }

/-- `sync_forming` after `k` bits of `b`: the 40 bits from bit `k` up of the byte set above the word (R120). -/
def syncWindow (b : Byte) (w : Word40) (k : Nat) : Word40 := (b ++ w).extractLsb' k 40

/-- The sync word is found at bit `k` of `b` (R120): 40 bits are held and at most 3 differ. -/
def syncHit (b : Byte) (w : Word40) (held k : Nat) : Prop :=
  40 ≤ held + k ∧ popcount (syncWindow b w k ^^^ 0x0116162AAB#40) ≤ 3

/-- The frame machine back in HeadLost (R117), with `crc_err` as given, and the signs of BSYNC cleared. -/
def headLost (s : State) (crcErr : Bool) : State :=
  { s with
    fsm := { s.fsm with state := 0#3, consecutivePrekey := 0, raw := [], crcErr := crcErr }
    bsync := { s.bsync with sgI := .zero, sgQ := .zero } }

/-- The level after a sample (R96). -/
def levelAfter (s : State) (x : Int) : Real64 :=
  (LIN_A.mul (Real64.ofInt (x.natAbs : Int))).add (LIN_B.mul s.bsync.lin)

/-- `u` of a sample (R97). -/
def ratioOf (s : State) (x : Int) : Real64 :=
  if (levelAfter s x).isZero then Real64.zero else (Real64.ofInt x).div (levelAfter s x)

/-- `Σ_{k=0}^{n-1} f(k)`, folded left to right from real zero (R11). -/
def sumTo (n : Nat) (f : Nat → Real64) : Real64 := (List.range n).foldl (fun acc k => acc.add (f k)) Real64.zero

/-- The correlator of R104 with the weights of R93: `Σ_{i=0}^{39} SIN(((2 * PI) * i) / 40) * csample[(is + i) mod 40]`. -/
def correlation (t : Trig) (csample : Ring) (is : Nat) : Real64 :=
  sumTo 40 fun i =>
    (sinOf t ((((Real64.ofInt 2).mul PI).mul (Real64.ofInt (i : Int))).div (Real64.ofInt 40))).mul
      (csample[(is + i) % 40]'(Nat.mod_lt _ (by decide)))

/-- `Σ_{k=0}^{n-1} B[(is + k) mod 40]` (R101, R105). -/
def recentSum (b : Ring) (is n : Nat) : Real64 := sumTo n fun k => b[(is + k) % 40]'(Nat.mod_lt _ (by decide))

/-- The synchronizer after R95 to R102, for given new phases. -/
def afterMixers (s : State) (x : Int) (phiH phiL : Real64) : Bsync :=
  let b := s.bsync
  let is := (b.is + 39) % 40
  let u := ratioOf s x
  let hs := ringSet b.hsample is ((u.mul u).mul (sinOf s.par.trig phiH))
  let ls := ringSet b.lsample is ((u.mul u).mul (sinOf s.par.trig phiL))
  let oscH := cosOf s.par.trig (phiH.div (Real64.ofInt 2))
  let oscL := cosOf s.par.trig (phiL.div (Real64.ofInt 2))
  { b with
    bitValid := false, bit := false
    is := is, lin := levelAfter s x
    phiH := phiH, hsample := hs, dfH := recentSum hs is 20
    phiL := phiL, lsample := ls, dfL := recentSum ls is 20
    isample := ringSet b.isample is (u.mul (oscL.add oscH))
    qsample := ringSet b.qsample is (u.mul (oscL.sub oscH))
    csample := ringSet b.csample is (oscL.mul oscH) }

/-- BS_FEED of a list of samples, one after the other (R111). -/
def feedAll : List Int → State → Except Fault State
  | [], s => .ok s
  | x :: xs, s => do
    let t ← bsFeed x s
    feedAll xs t

/-! ### Premises on the host -/

/-- The host premise on block size (R77, 93_implementation_defined.md I7): no more bytes than `BLOCK_BYTES`, when that
is given. No operation tests it. -/
def blockFits (data : List Int) : Prop := ∀ n, Config.blockBytes = some n → data.length ≤ n

end Sys2Proof.Safety
end

