-- ==== Sys2Proof/Certificates/Slice0/Obligations.lean ====
section
/-! DEFINITION. The statements for the provers. Each docstring names the rules of spec/ a statement rests on.
`opOutputs s frame events result` is `s` with exactly those outputs of one operation; what a conclusion
`exec i s = .next t` does not change in its `t`, the instruction leaves unchanged. -/

open Sys2Proof Sys2Proof.Machine Sys2Proof.Safety

/-! ### Encoding and dispatch -/

/-- R61: exactly one row of the opcode table matches any key with `rsv = 0`, `op <= 9` and, for `op = 4`,
`st <= 6`; no row matches any other key. -/
def Obligations.OneRowPerKey : Prop :=
  ∀ key : Byte,
    opcodeRows.countP (fun r => r.fits key) =
      if keyRsv key = false ∧ keyOp key ≤ 9 ∧ (keyOp key = 4 → (keySt key).toNat ≤ 6) then 1 else 0

/-- R61: for FSM_BYTE the decoder inserts the frame machine's state in bits 6:4 of the key; the other keys stay as
they came. -/
def Obligations.DecoderInsertsStateTag : Prop :=
  ∀ (key : Byte) (st : BitVec 3),
    (keyOp key = 4 → keyRsv key = false → formKey key st = 0x04#8 ||| (st.zeroExtend 8 <<< 4)) ∧
      (keyOp key ≠ 4 → formKey key st = key)

/-- A few keys of 30_encoding.md R61, R62 with zero operands decode to the operation of their row. -/
def Obligations.TableWordsDecode : Prop :=
  decodeTableWord 8 0x00 = some .reset ∧
    decodeTableWord 8 0x01 = some (.condBlock []) ∧
    decodeTableWord 8 0x02 = some (.bsFeed 0) ∧
    decodeTableWord 8 0x03 = some (.bitIn 0) ∧
    decodeTableWord 8 0x24 = some (.fsmByteSync 0) ∧
    decodeTableWord 8 0x64 = some (.fsmByteEnd 0) ∧
    decodeTableWord 8 0x05 = some (.crcGen []) ∧
    decodeTableWord 8 0x07 = some (.crcFold 0 0) ∧
    decodeTableWord 8 0x09 = some (.oddParity 0) ∧
    decodeTableWord 8 0x0A = none ∧ decodeTableWord 8 0x82 = none ∧ decodeTableWord 8 0x74 = none

/-- Decoding the bytes of a well-formed operation gives it back, with every operand value its type admits. The
operand bytes' layout is the model's (log 13). -/
def Obligations.DecodeInvertsEncode : Prop :=
  ∀ i : Instr, i.wellFormed = true → decodeBytes (encode i) = .ok i

/-! ### The step -/

/-- When no conditioned sample is pending and the oldest host item decodes to an operation, the step is exec of it,
with the item taken; a refusal of R146 leaves its mark and the run goes on (log 11). -/
def Obligations.StepRunsDecodedOperation : Prop :=
  ∀ (s : State) (key : Byte) (ops : List Int) (rest : List HostItem) (i : Instr),
    s.stream = [] → s.inbox = .op key ops :: rest → decode (formKey key s.fsm.state) ops = .ok i →
      (∀ t, exec i { s with inbox := rest } = .next t → step s = .next t) ∧
        (∀ f, exec i { s with inbox := rest } = .fault f → step s = .fault f) ∧
        (∀ r, exec i { s with inbox := rest } = .refused r → r.isMark = true →
          step s = .next { opOutputs s none [] none with inbox := rest, refusals := s.refusals ++ [r] })

/-- R54, R55, R90: while conditioned samples are pending, the step is a BS_FEED of the oldest, unless the oldest host
item is a COND_BLOCK and the schedule's next entry lets COND move; where a COND_BLOCK waits, the step takes that entry
(log 8: the schedule, and that every other host operation waits, are the model's). -/
def Obligations.StepFeedsOldestSample : Prop :=
  ∀ (s : State) (x : Int) (xs : List Int), s.stream = x :: xs →
    ¬(nextIsCondBlock s = true ∧ s.schedule.headD false = true) →
      let u := opOutputs
        { s with stream := xs, schedule := if nextIsCondBlock s then s.schedule.tail else s.schedule } none [] none
      (∀ t, bsFeed x u = .ok t → step s = .next t) ∧ (∀ f, bsFeed x u = .error f → step s = .fault f)

/-- R55: COND may run ahead of the pending samples: when the next host item is a COND_BLOCK and the schedule says so, the
step is that COND_BLOCK, with the samples still pending (log 8). -/
def Obligations.CondMayRunAhead : Prop :=
  ∀ (s t : State) (key : Byte) (data : List Int) (rest : List HostItem) (more : List Bool),
    s.inbox = .op key data :: rest → keyOp key = 1 → keyRsv key = false → s.stream ≠ [] → s.schedule = true :: more →
      exec (.condBlock data) { s with inbox := rest, schedule := more } = .next t → step s = .next t

/-- R155, R31, R38: the block is idle whenever nothing is pending, and its state survives unchanged; the outputs of the
operation before are not held (log 10). -/
def Obligations.IdleKeepsState : Prop :=
  ∀ s : State, s.stream = [] → s.inbox = [] → step s = .next (opOutputs s none [] none)

/-- R64, R146: a key with `rsv = 1`, or `op` in 0xA..0xF, changes no state of the block: only the RESERVED_OP mark is left.
That the step answers a next state with the mark, and the run goes on, is the model's reading of R146 and R157 (log 11);
the outputs of the operation before are no longer held (log 10). -/
def Obligations.ReservedKeyLeavesOnlyItsMark : Prop :=
  ∀ (s : State) (key : Byte) (ops : List Int) (rest : List HostItem),
    s.stream = [] → s.inbox = .op key ops :: rest → (keyRsv key = true ∨ 10 ≤ keyOp key) →
      step s =
        .next { opOutputs s none [] none with inbox := rest, refusals := s.refusals ++ [.reservedOp] }

/-- R64: FSM_BYTE in RUN with `state` = 7 is the fault BAD_STATE. -/
def Obligations.TagSevenIsBadState : Prop :=
  ∀ (s : State) (key : Byte) (b : Int) (rest : List HostItem),
    s.stream = [] → s.inbox = .op key [b] :: rest → keyRsv key = false → keyOp key = 4 →
      s.phase = .run → s.fsm.state = 7#3 → 0 ≤ b → b < 256 → step s = .fault .badState

/-- R18, R146: before the first RESET every stateful operation is refused with NOT_RESET, whatever its operand. -/
def Obligations.StatefulOperationsNeedReset : Prop :=
  ∀ (s : State) (data : List Int) (n : Int), s.phase = .config →
    exec (.condBlock data) s = .refused .notReset ∧ exec (.bsFeed n) s = .refused .notReset ∧
      exec (.bitIn n) s = .refused .notReset ∧ exec (.fsmByteHeadLost n) s = .refused .notReset ∧
      exec (.fsmByteHeadFound n) s = .refused .notReset ∧ exec (.fsmByteSync n) s = .refused .notReset ∧
      exec (.fsmByteText n) s = .refused .notReset ∧ exec (.fsmByteCrc1 n) s = .refused .notReset ∧
      exec (.fsmByteCrc2 n) s = .refused .notReset ∧ exec (.fsmByteEnd n) s = .refused .notReset

/-- R63, R146: in RUN an operand outside its type is refused: ODD_IQ_BLOCK, BAD_BIT, else BAD_OPERAND. -/
def Obligations.OperandsOutsideTheirTypeAreRefused : Prop :=
  ∀ (s : State) (data : List Int) (n m : Int), s.phase = .run →
    (data.length % 2 = 1 → exec (.condBlock data) s = .refused .oddIqBlock) ∧
      (data.length % 2 = 0 → (∃ b ∈ data, b < 0 ∨ 255 < b) → exec (.condBlock data) s = .refused .badOperand) ∧
      ((∃ b ∈ data, b < 0 ∨ 255 < b) →
        exec (.crcGen data) s = .refused .badOperand ∧ exec (.crcCheck data) s = .refused .badOperand) ∧
      (n ≠ 0 → n ≠ 1 → exec (.bitIn n) s = .refused .badBit) ∧
      (n < -32768 ∨ 32767 < n → exec (.bsFeed n) s = .refused .badOperand) ∧
      (n < 0 ∨ 255 < n →
        exec (.fsmByteHeadLost n) s = .refused .badOperand ∧ exec (.fsmByteHeadFound n) s = .refused .badOperand ∧
          exec (.fsmByteSync n) s = .refused .badOperand ∧ exec (.fsmByteText n) s = .refused .badOperand ∧
          exec (.fsmByteCrc1 n) s = .refused .badOperand ∧ exec (.fsmByteCrc2 n) s = .refused .badOperand ∧
          exec (.fsmByteEnd n) s = .refused .badOperand ∧ exec (.oddParity n) s = .refused .badOperand) ∧
      (m < 0 ∨ 65535 < m ∨ n < 0 ∨ 255 < n →
        exec (.crcFold m n) s = .refused .badOperand ∧ exec (.crcFoldRev m n) s = .refused .badOperand)

/-! ### RESET and configuration -/

/-- R158: RESET, in either phase, gives every state element its reset value, sets `phase` to RUN, and changes neither
the configuration registers nor the run's refusal record. -/
def Obligations.ResetAssignsEveryResetValue : Prop :=
  ∀ s : State, ∃ t, exec .reset s = .next t ∧
    t.phase = .run ∧ t.cfg = s.cfg ∧ t.par = s.par ∧ t.refusals = s.refusals ∧
    t.cond.rotIdx = 0 ∧ t.cond.decAccI = 0 ∧ t.cond.decAccQ = 0 ∧ t.cond.decCnt = 0 ∧ t.cond.decOdd = false ∧
    t.cond.postAcc = 0 ∧ t.cond.postCnt = 0 ∧ t.cond.deemphY = Real64.zero ∧ t.cond.dcAvg = Real64.zero ∧
    t.cond.silentCount = 0 ∧ t.cond.mute = false ∧ t.cond.hopRequest = false ∧
    (∀ i, ringGet t.bsync.hsample i = Real64.zero ∧ ringGet t.bsync.lsample i = Real64.zero ∧
      ringGet t.bsync.isample i = Real64.zero ∧ ringGet t.bsync.qsample i = Real64.zero ∧
      ringGet t.bsync.csample i = Real64.zero) ∧
    t.bsync.is = 0 ∧ t.bsync.phiH = Real64.zero ∧ t.bsync.phiL = Real64.zero ∧ t.bsync.dfH = Real64.zero ∧
    t.bsync.dfL = Real64.zero ∧ t.bsync.clock = 0 ∧ t.bsync.ea = Real64.zero ∧ t.bsync.pC = Real64.zero ∧
    t.bsync.ppC = Real64.zero ∧ t.bsync.sgI = .zero ∧ t.bsync.sgQ = .zero ∧ t.bsync.lin = Real64.zero ∧
    t.bsync.bitValid = false ∧ t.bsync.bit = false ∧
    t.link.outbits = 0#8 ∧ t.link.nbits = 0 ∧
    t.fsm.state = 0#3 ∧ t.fsm.syncForming = 0#40 ∧ t.fsm.syncBitsHave = 0 ∧ t.fsm.consecutivePrekey = 0 ∧
    t.fsm.raw = [] ∧ t.fsm.crcErr = false ∧
    t.out.frame = none ∧ t.out.events = []

/-- R161, R158: from every machine at power-on, whatever the undefined state of its agents, RESET leads to the one
reset state. The value of the registers R6 leaves OPEN in it is the model's (logs 4, 5), and so is it that nothing stands
in the stream and the outputs at power-on (log 3). -/
def Obligations.PowerOnThenResetIsReset : Prop :=
  ∀ s : State, s.isPowerOn → s.inbox = [] → s.schedule = [] → exec .reset s = .next State.reset

/-- R17, R146: in RUN a configuration write changes no register: only the CFG_LOCKED mark is left. That the step answers a
next state with the mark, and the run goes on, is the model's reading of R146 and R157 (log 11); the outputs of the
operation before are no longer held (log 10). -/
def Obligations.ConfigWriteLockedInRun : Prop :=
  ∀ (s : State) (w : CfgWrite) (rest : List HostItem), s.stream = [] → s.inbox = .cfgWrite w :: rest →
    s.phase = .run →
      step s = .next { opOutputs s none [] none with inbox := rest, refusals := s.refusals ++ [.cfgLocked] }

/-- R17: in CONFIG a configuration write in range stores its register and nothing else of the configuration; out of range
it is refused with CFG_RANGE. In both cases the item is taken and the outputs of the operation before are no longer held
(log 10); that the run goes on after the refusal, with its mark, is the model's reading of R146 and R157 (log 11). -/
def Obligations.ConfigWriteStoresInRange : Prop :=
  ∀ (s : State) (rest : List HostItem) (w : CfgWrite), s.stream = [] → s.inbox = .cfgWrite w :: rest →
    s.phase = .config →
      let stored (c : Cfg) := Host.Outcome.next (φ := Fault) (ρ := Refusal)
        { opOutputs s none [] none with inbox := rest, cfg := c }
      let turnedAway := Host.Outcome.next (φ := Fault) (ρ := Refusal)
        { opOutputs s none [] none with inbox := rest, refusals := s.refusals ++ [.cfgRange] }
      (∀ n : Nat, w = .post n → step s = if 1 ≤ n ∧ n ≤ 16 then stored { s.cfg with post := n } else turnedAway) ∧
        (∀ n : Nat, w = .squelchL n → step s = stored { s.cfg with squelchL := n }) ∧
        (∀ n : Int, n < 0 → w = .post n ∨ w = .squelchL n → step s = turnedAway) ∧
        (∀ ws, w = .hammingW ws →
          step s = if ws.length = s.par.downsample then stored { s.cfg with hammingW := ws } else turnedAway) ∧
        (∀ a, w = .deemphA a →
          step s =
            if Real64.lt Real64.zero a = true ∧ Real64.le a (Real64.ofInt 1) = true then
              stored { s.cfg with deemphA := a }
            else turnedAway) ∧
        (∀ v, w = .firHamming v → step s = stored { s.cfg with firHamming := v }) ∧
        (∀ v, w = .singleFreq v → step s = stored { s.cfg with singleFreq := v }) ∧
        (∀ v, w = .deemphEn v → step s = stored { s.cfg with deemphEn := v }) ∧
        (∀ v, w = .dcblockEn v → step s = stored { s.cfg with dcblockEn := v })

/-- R17, R18: no step leaves RUN, and no step in RUN changes a configuration register or a parameter. -/
def Obligations.RunPhaseLocksConfiguration : Prop :=
  ∀ s t : State, s.phase = .run → step s = .next t → t.phase = .run ∧ t.cfg = s.cfg ∧ t.par = s.par

/-! ### Invariants -/

/-- The reset state meets the invariant of Safety.lean. -/
def Obligations.ResetStateMeetsInvariant : Prop := Inv State.reset

/-- R20, R21, R25, R27, R32, R34 to R36, R43, R66, R68, R111, R127: from every state that meets the invariant, every
step leads to a state that meets it: counters in their ranges, the state tag one of seven with the raw frame its
state allows, fewer than 8 bits in the link, `is` and `ea` in their ranges, pending samples in s16. -/
def Obligations.StepKeepsInvariant : Prop :=
  ∀ s t : State, Inv s → step s = .next t → Inv t

/-- R43, R64, R145: from a state in RUN that meets the invariant, no step is a RAW_OVERFLOW or BAD_STATE fault. -/
def Obligations.RunStatesNeverOverflowOrLoseTag : Prop :=
  ∀ (s : State) (f : Fault), Inv s → s.phase = .run → step s = .fault f → f = .nanInLoop

/-- R110, R145: with the reference `SIN` and `COS`, from a state in RUN whose real values are bounded, no step faults,
and the bounds are kept: a NaN never reaches a comparison of BS_FEED. -/
def Obligations.NoFaultUnderReferenceParameters : Prop :=
  ∀ s : State, s.par.trig = .reference → Inv s → NumericOk s → s.phase = .run →
    ∃ t, step s = .next t ∧ NumericOk t

/-- R111: `is` in `[0, BITLEN)` and `|ea| <= 2.0` after any number of samples. -/
def Obligations.IndexAndTimingStayInRange : Prop :=
  ∀ (xs : List Int) (s t : State), s.bsync.is < 40 →
    Real64.le (Real64.ofInt (-2)) s.bsync.ea = true → Real64.le s.bsync.ea (Real64.ofInt 2) = true →
    feedAll xs s = .ok t →
      t.bsync.is < 40 ∧ Real64.le (Real64.ofInt (-2)) t.bsync.ea = true ∧
        Real64.le t.bsync.ea (Real64.ofInt 2) = true

/-- R27: `clock <= 11` after every BS_FEED, given `|ea| <= 2.0`. -/
def Obligations.ClockStaysBelowTwelve : Prop :=
  ∀ (x : Int) (s t : State), s.bsync.clock ≤ 11 →
    Real64.le (Real64.ofInt (-2)) s.bsync.ea = true → Real64.le s.bsync.ea (Real64.ofInt 2) = true →
    bsFeed x s = .ok t → t.bsync.clock ≤ 11

/-! ### Baseband conditioner -/

/-- R78, R86, R87: COND_BLOCK on a well-formed block of `m` pairs answers a next state, with `k = floor((dec_cnt + m) / D)`
decimator outputs and `floor((post_cnt + k) / POST)` samples sent on, muted or not; the counters keep the rest. Of those
samples, in order: the de-emphasis replaces each by its state after it, the DC blocker subtracts the smoothed mean of
the block, each stage only where enabled, and a muted block sends zeros. `sat16(trunc(y))` of a finite `y` is its integer
part toward zero in the range of an s16. -/
def Obligations.CondBlockProducesTheSamplesDue : Prop :=
  (∀ y : Real64, y.isFinite = true →
    satTrunc y =
      max (-32768) (min 32767
        (if y.negative then -((y.units / 2 ^ 1074 : Nat) : Int) else ((y.units / 2 ^ 1074 : Nat) : Int)))) ∧
  ∀ (s : State) (data : List Int), s.phase = .run → (Instr.condBlock data).wellFormed = true →
    s.cond.decCnt < s.par.downsample → s.cond.postCnt < s.cfg.post →
      let m := data.length / 2
      let k := (s.cond.decCnt + m) / s.par.downsample
      let due := (condPairs s.par s.cfg s.cond (iqPairs (data.map (BitVec.ofInt 8)))).samples
      let y (j : Nat) : Real64 :=
        (due.take j).foldl (fun y x => y.add (s.cfg.deemphA.mul ((Real64.ofInt x).sub y))) s.cond.deemphY
      let x1 := if s.cfg.deemphEn then (List.range due.length).map fun j => satTrunc (y (j + 1)) else due
      let mean := (x1.foldl (fun acc x => acc.add (Real64.ofInt x)) Real64.zero).div (Real64.ofInt x1.length)
      let avg := (DC_ALPHA.mul s.cond.dcAvg).add (((Real64.ofInt 1).sub DC_ALPHA).mul mean)
      let x2 := if s.cfg.dcblockEn then x1.map fun x => satTrunc ((Real64.ofInt x).sub avg) else x1
      ∃ t xs, exec (.condBlock data) s = .next t ∧ t.stream = s.stream ++ xs ∧
        (condPairs s.par s.cfg s.cond (iqPairs (data.map (BitVec.ofInt 8)))).pairs.length = k ∧
        xs.length = (s.cond.postCnt + k) / s.cfg.post ∧
        t.cond.decCnt = (s.cond.decCnt + m) % s.par.downsample ∧
        t.cond.postCnt = (s.cond.postCnt + k) % s.cfg.post ∧
        (t.cond.rotIdx : Nat) = ((s.cond.rotIdx : Nat) + m) % 4 ∧
        (t.cond.decOdd = (s.cond.decOdd != decide (k % 2 = 1))) ∧
        xs = (if t.cond.mute then List.replicate x2.length 0 else x2) ∧
        t.cond.deemphY = (if s.cfg.deemphEn then y due.length else s.cond.deemphY) ∧
        t.cond.dcAvg = (if s.cfg.dcblockEn = true ∧ due ≠ [] then avg else s.cond.dcAvg)

/-- R8, R15, R53: COND_BLOCK changes only the conditioner, the stream and the outputs. -/
def Obligations.CondBlockFrame : Prop :=
  ∀ (s t : State) (data : List Int), exec (.condBlock data) s = .next t →
    t = { opOutputs s none t.out.events none with cond := t.cond, stream := t.stream }

/-- R79, R80, R81: one IQ pair inside a window: it is rotated by `rot_idx` quarter turns with `255 - x` as the
negation, converted as `x - 127`, weighted, and added to the window's sums; no sample is sent. -/
def Obligations.CondBlockAddsOneRotatedPair : Prop :=
  ∀ (s : State) (i q : Int), s.phase = .run → 0 ≤ i → i < 256 → 0 ≤ q → q < 256 →
    s.cond.decCnt + 1 < s.par.downsample →
      let w : Int := if s.cfg.firHamming then s.cfg.hammingW.getD s.cond.decCnt 0 else 1
      let v : Int × Int :=
        if s.cond.rotIdx = 0 then (i - 127, q - 127)
        else if s.cond.rotIdx = 1 then (255 - q - 127, i - 127)
        else if s.cond.rotIdx = 2 then (255 - i - 127, 255 - q - 127)
        else (q - 127, 255 - i - 127)
      exec (.condBlock [i, q]) s =
        .next { opOutputs s none [] none with
          cond := { s.cond with
            rotIdx := s.cond.rotIdx + 1
            decAccI := s.cond.decAccI + w * v.1
            decAccQ := s.cond.decAccQ + w * v.2
            decCnt := s.cond.decCnt + 1
            mute := false
            hopRequest := false } }

/-- R79 to R87: one IQ pair, in any position of the rotation, that ends a decimation window, squelch off: an odd output is
attenuated by 5/8 toward zero and its envelope joins the post sum. Where that ends the post-downsample window too, the
sum is saturated at 32767, each optional stage that is on filters it, and the sample is sent; otherwise the sum and its
count are kept, nothing is sent and the stages do not move. -/
def Obligations.CondBlockEndsBothWindows : Prop :=
  ∀ (s : State) (i q : Int), s.phase = .run → 0 ≤ i → i < 256 → 0 ≤ q → q < 256 →
    s.cond.decCnt + 1 = s.par.downsample → s.cfg.squelchL = 0 →
      let w : Int := if s.cfg.firHamming then s.cfg.hammingW.getD s.cond.decCnt 0 else 1
      let v : Int × Int :=
        if s.cond.rotIdx = 0 then (i - 127, q - 127)
        else if s.cond.rotIdx = 1 then (255 - q - 127, i - 127)
        else if s.cond.rotIdx = 2 then (255 - i - 127, 255 - q - 127)
        else (q - 127, 255 - i - 127)
      let sumI := s.cond.decAccI + w * v.1
      let sumQ := s.cond.decAccQ + w * v.2
      let oi := if s.cond.decOdd then (sumI * 5).tdiv 8 else sumI
      let oq := if s.cond.decOdd then (sumQ * 5).tdiv 8 else sumQ
      let acc := s.cond.postAcc + envelope s.par.downsample oi oq
      let ended : Cond := { s.cond with
        rotIdx := s.cond.rotIdx + 1
        decAccI := 0
        decAccQ := 0
        decCnt := 0
        decOdd := !s.cond.decOdd
        silentCount := 0
        mute := false
        hopRequest := false }
      let x := min 32767 acc
      let y := s.cond.deemphY.add (s.cfg.deemphA.mul ((Real64.ofInt x).sub s.cond.deemphY))
      let x1 := if s.cfg.deemphEn then satTrunc y else x
      let mean := (Real64.zero.add (Real64.ofInt x1)).div (Real64.ofInt 1)
      let avg := (DC_ALPHA.mul s.cond.dcAvg).add (((Real64.ofInt 1).sub DC_ALPHA).mul mean)
      let x2 := if s.cfg.dcblockEn then satTrunc ((Real64.ofInt x1).sub avg) else x1
      (s.cond.postCnt + 1 = s.cfg.post →
        exec (.condBlock [i, q]) s =
          .next { opOutputs s none [] none with
            stream := s.stream ++ [x2]
            cond := { ended with
              postAcc := 0
              postCnt := 0
              deemphY := if s.cfg.deemphEn then y else s.cond.deemphY
              dcAvg := if s.cfg.dcblockEn then avg else s.cond.dcAvg } }) ∧
        (s.cond.postCnt + 1 < s.cfg.post →
          exec (.condBlock [i, q]) s =
            .next { opOutputs s none [] none with
              cond := { ended with postAcc := acc, postCnt := s.cond.postCnt + 1 } })

/-- R83: the envelope is `min(32767, isqrt(oi^2 + oq^2) * OUT_SCALE * 8)`, where `isqrt` is the greatest integer whose
square is at most its argument; it lies in 0..32767. -/
def Obligations.EnvelopeIsSaturatedRoot : Prop :=
  ∀ (d : Nat) (oi oq : Int), ∃ r : Nat,
    (r * r : Int) ≤ oi * oi + oq * oq ∧ oi * oi + oq * oq < ((r + 1) * (r + 1) : Int) ∧
      envelope d oi oq = min 32767 ((r : Int) * (max 1 (32768 / (128 * d)) : Nat) * 8) ∧
      0 ≤ envelope d oi oq ∧ envelope d oi oq ≤ 32767

/-- R88, R89: the squelch flags of a block. A block is silent when the squelch is on and the mean absolute deviations of
both components over its decimated pairs are at most the level. With no decimated pair the count stays and both flags
are 0; otherwise a silent block counts up and another clears the count, and the flags say whether the count exceeds 1,
`mute` with a single frequency, `hop_request` with several; a set flag raises its event, and a muted block sends only
zeros. -/
def Obligations.SquelchFlagsFollowTheCount : Prop :=
  ∀ (s : State) (data : List Int), s.phase = .run → (Instr.condBlock data).wellFormed = true →
    let ps := (condPairs s.par s.cfg s.cond (iqPairs (data.map (BitVec.ofInt 8)))).pairs
    let n := Real64.ofInt ps.length
    let mean (f : Int × Int → Int) : Real64 :=
      (ps.foldl (fun acc p => acc.add (Real64.ofInt (f p))) Real64.zero).div n
    let dev (f : Int × Int → Int) : Real64 :=
      (ps.foldl (fun acc p => acc.add ((Real64.ofInt (f p)).sub (mean f)).abs) Real64.zero).div n
    let silent : Bool :=
      decide (0 < s.cfg.squelchL) && Real64.le (dev Prod.fst) (Real64.ofInt s.cfg.squelchL) &&
        Real64.le (dev Prod.snd) (Real64.ofInt s.cfg.squelchL)
    ∃ t xs, exec (.condBlock data) s = .next t ∧ t.stream = s.stream ++ xs ∧
      (ps = [] → t.cond.silentCount = s.cond.silentCount ∧ t.cond.mute = false ∧ t.cond.hopRequest = false) ∧
      (ps ≠ [] →
        t.cond.silentCount = (if silent then s.cond.silentCount + 1 else 0) ∧
          (t.cond.mute = true ↔ 1 < t.cond.silentCount ∧ s.cfg.singleFreq = true) ∧
          (t.cond.hopRequest = true ↔ 1 < t.cond.silentCount ∧ s.cfg.singleFreq = false)) ∧
      t.out.events =
        (if t.cond.mute = true then [.squelchMute] else if t.cond.hopRequest = true then [.hopRequest] else []) ∧
      (t.cond.mute = true → ∀ x ∈ xs, x = 0) ∧ (s.cfg.squelchL = 0 → t.cond.mute = false ∧ t.cond.hopRequest = false)

/-- R56: with the DC blocker and the squelch off, the block partition is not seen: two blocks give the samples and the
conditioner state of their concatenation. -/
def Obligations.PartitionIsNotSeen : Prop :=
  ∀ (s : State) (a b : List Int), s.phase = .run → (Instr.condBlock a).wellFormed = true →
    (Instr.condBlock b).wellFormed = true → s.cfg.dcblockEn = false → s.cfg.squelchL = 0 →
      ∃ ta tb t, exec (.condBlock a) s = .next ta ∧ exec (.condBlock b) ta = .next tb ∧
        exec (.condBlock (a ++ b)) s = .next t ∧ t.cond = tb.cond ∧ t.stream = tb.stream

/-- R55, R153: COND_BLOCK may run before or after a pending BS_FEED: both orders give the same state, the BS_FEED leaves the
same synchronizer with the same bit, frame, events and result, and so does the COND_BLOCK its outputs. Only which of the
two operations stands last in the outputs depends on the order. -/
def Obligations.CondAndSyncCommute : Prop :=
  ∀ (s a b : State) (x : Int) (data : List Int), s.phase = .run →
    exec (.condBlock data) s = .next a → feedStream x a = .next b →
      ∃ c d, feedStream x s = .next c ∧ exec (.condBlock data) c = .next d ∧
        opOutputs d none [] none = opOutputs b none [] none ∧
        c.bsync = b.bsync ∧ c.out = b.out ∧ d.out = a.out

/-! ### Bit synchronizer -/

/-- R92: the phase increments and `4 pi` are the binary64 values 0.6283185307179586, 0.3141592653589793 and
12.566370614359172. -/
def Obligations.PhaseIncrementsAreTheStatedValues : Prop :=
  DPHI_H = ⟨0x3FE41B2F769CF0E0#64⟩ ∧ DPHI_L = ⟨0x3FD41B2F769CF0E0#64⟩ ∧ FOURPI = ⟨0x402921FB54442D18#64⟩

/-- R100: `MOD4PI` of a finite value `x`. With `m` the exact remainder of `x` by `4 pi`, of the sign of `x`, it answers
`m`, moved up by `4 pi` where it is negative, and down again where that reaches `4 pi`; the answer is in `[0, 4 pi)`,
and a value already there is answered as it is. -/
def Obligations.PhaseReductionRange : Prop :=
  ∀ x : Real64, x.isFinite = true →
    (∃ m r : Real64, m.isFinite = true ∧ m.negative = x.negative ∧ m.units = x.units % FOURPI.units ∧
      mod4pi x = .ok r ∧
      (let up := if Real64.lt m Real64.zero then m.add FOURPI else m
       r = if Real64.le FOURPI up then up.sub FOURPI else up) ∧
      Real64.le Real64.zero r = true ∧ Real64.lt r FOURPI = true) ∧
      (Real64.le Real64.zero x = true → Real64.lt x FOURPI = true → mod4pi x = .ok x)

/-- R30, R96: after a sample that is not 0 the level is positive, and a positive level stays positive after every sample,
0 included. -/
def Obligations.LevelPositiveAfterSignal : Prop :=
  ∀ (s : State) (x : Int), s.bsync.lin.isFinite = true → isS16 x = true →
    (Real64.le Real64.zero s.bsync.lin = true → x ≠ 0 → Real64.lt Real64.zero (levelAfter s x) = true) ∧
      (Real64.lt Real64.zero s.bsync.lin = true → Real64.lt Real64.zero (levelAfter s x) = true)

/-- R107: while a sign is not latched, an integral that is not 0 latches its own sign and gives bit 1; an integral of 0
leaves the sign unlatched and gives bit 0. -/
def Obligations.FirstBitAfterClearIsOne : Prop :=
  ∀ v : Real64, v.isNaN = false →
    (v.isZero = false → slice .zero v = .ok (if v.negative then .minus else .plus, true)) ∧
      (v.isZero = true → slice .zero v = .ok (.zero, false))

/-- R93, R95 to R103: a BS_FEED between two ticks: index, level, both oscillators, mixers, and the clock counts up; no bit
is produced and nothing else changes. -/
def Obligations.BsFeedBetweenTicks : Prop :=
  ∀ (s : State) (x : Int) (phiH phiL : Real64), s.phase = .run → isS16 x = true →
    (levelAfter s x).isNaN = false →
    mod4pi ((s.bsync.phiH.add DPHI_H).sub (VFOPLL.mul s.bsync.dfH)) = .ok phiH →
    mod4pi ((s.bsync.phiL.add DPHI_L).sub (VFOPLL.mul s.bsync.dfL)) = .ok phiL →
    ((Real64.ofInt 10).add s.bsync.ea).isNaN = false →
    Real64.le ((Real64.ofInt 10).add s.bsync.ea) (Real64.ofInt (s.bsync.clock + 1 : Nat)) = false →
      exec (.bsFeed x) s =
        .next { opOutputs s none [] none with
          bsync := { afterMixers s x phiH phiL with clock := s.bsync.clock + 1 } }

/-- R93, R103 to R109, R113: a BS_FEED at a tick, with the sums written out (`correlation`, `recentSum`). At a local minimum of the correlator the Q branch slices, at a local
maximum the I branch, and the bit goes to LINK; otherwise no bit is produced and `ea` stays. The correlator history
shifts in every case. -/
def Obligations.BsFeedAtTick : Prop :=
  ∀ (s : State) (x : Int) (phiH phiL : Real64), s.phase = .run → isS16 x = true →
    (levelAfter s x).isNaN = false →
    mod4pi ((s.bsync.phiH.add DPHI_H).sub (VFOPLL.mul s.bsync.dfH)) = .ok phiH →
    mod4pi ((s.bsync.phiL.add DPHI_L).sub (VFOPLL.mul s.bsync.dfL)) = .ok phiL →
    ((Real64.ofInt 10).add s.bsync.ea).isNaN = false →
    Real64.le ((Real64.ofInt 10).add s.bsync.ea) (Real64.ofInt (s.bsync.clock + 1 : Nat)) = true →
      let m := afterMixers s x phiH phiL
      let c := correlation s.par.trig m.csample m.is
      let err := BITPLL.mul (c.sub m.ppC)
      let sumQ := recentSum m.qsample m.is s.par.integLen
      let sumI := recentSum m.isample m.is s.par.integLen
      let sgQ := if m.sgQ = .zero then signOf sumQ else m.sgQ
      let sgI := if m.sgI = .zero then signOf sumI else m.sgI
      c.isNaN = false → m.pC.isNaN = false → m.ppC.isNaN = false →
        (Real64.lt m.pC c = true → Real64.lt m.pC m.ppC = true → err.isNaN = false → sumQ.isNaN = false →
          let bit := Real64.lt Real64.zero (sumQ.mul (Real64.ofInt sgQ.toInt))
          (sumQ.mul (Real64.ofInt sgQ.toInt)).isNaN = false →
            exec (.bsFeed x) s =
              ofExcept (linkBit bit { opOutputs s none [] none with
                bsync := { m with
                  clock := 0, sgQ := sgQ, bit := bit, bitValid := true
                  ea := Real64.clamp err.neg (Real64.neg EA_MAX) EA_MAX
                  ppC := m.pC, pC := c } })) ∧
        (Real64.lt c m.pC = true → Real64.lt m.ppC m.pC = true → err.isNaN = false → sumI.isNaN = false →
          let bit := Real64.lt Real64.zero (sumI.mul (Real64.ofInt sgI.toInt))
          (sumI.mul (Real64.ofInt sgI.toInt)).isNaN = false →
            exec (.bsFeed x) s =
              ofExcept (linkBit bit { opOutputs s none [] none with
                bsync := { m with
                  clock := 0, sgI := sgI, bit := bit, bitValid := true
                  ea := Real64.clamp err (Real64.neg EA_MAX) EA_MAX
                  ppC := m.pC, pC := c } })) ∧
        (¬(Real64.lt m.pC c = true ∧ Real64.lt m.pC m.ppC = true) →
          ¬(Real64.lt c m.pC = true ∧ Real64.lt m.ppC m.pC = true) →
            exec (.bsFeed x) s =
              .next { opOutputs s none [] none with bsync := { m with clock := 0, ppC := m.pC, pC := c } })

/-- R100, R103, R105, R106, R110: a NaN that meets a comparison of BS_FEED is the fault NAN_IN_LOOP: in the reduction of
either phase (an infinite argument has the remainder NaN), in the clock's threshold, and at a tick in the correlator's
value, in the one of the tick before, in the one before that where it is compared, and in the integral of the branch
that runs. That a NaN faults also in the comparison of the level with 0 (R97) and in the clamp of `ea` is the model's
reading of R145 (log 18). -/
def Obligations.NanAtAComparisonIsAFault : Prop :=
  ∀ (s : State) (x : Int), s.phase = .run → isS16 x = true →
    let argH := (s.bsync.phiH.add DPHI_H).sub (VFOPLL.mul s.bsync.dfH)
    let argL := (s.bsync.phiL.add DPHI_L).sub (VFOPLL.mul s.bsync.dfL)
    let threshold := (Real64.ofInt 10).add s.bsync.ea
    ((levelAfter s x).isNaN = true → exec (.bsFeed x) s = .fault .nanInLoop) ∧
      (argH.isFinite = false → exec (.bsFeed x) s = .fault .nanInLoop) ∧
      (argL.isFinite = false → exec (.bsFeed x) s = .fault .nanInLoop) ∧
      ∀ phiH phiL, mod4pi argH = .ok phiH → mod4pi argL = .ok phiL →
        (threshold.isNaN = true → exec (.bsFeed x) s = .fault .nanInLoop) ∧
          (threshold.isNaN = false → Real64.le threshold (Real64.ofInt (s.bsync.clock + 1 : Nat)) = true →
            let m := afterMixers s x phiH phiL
            let c := correlation s.par.trig m.csample m.is
            let err := BITPLL.mul (c.sub m.ppC)
            (c.isNaN = true ∨ m.pC.isNaN = true → exec (.bsFeed x) s = .fault .nanInLoop) ∧
              (Real64.lt m.pC c = true ∨ Real64.lt c m.pC = true → m.ppC.isNaN = true →
                exec (.bsFeed x) s = .fault .nanInLoop) ∧
              (Real64.lt m.pC c = true → Real64.lt m.pC m.ppC = true →
                (recentSum m.qsample m.is s.par.integLen).isNaN = true ∨ err.isNaN = true →
                  exec (.bsFeed x) s = .fault .nanInLoop) ∧
              (Real64.lt c m.pC = true → Real64.lt m.ppC m.pC = true →
                (recentSum m.isample m.is s.par.integLen).isNaN = true ∨ err.isNaN = true →
                  exec (.bsFeed x) s = .fault .nanInLoop))

/-- R94 to R96, R145: with the reference `SIN` and `COS`, BS_FEED answers a next state for every s16 sample in every
state in RUN whose real values are bounded; the index moves down by one, the level follows the sample, and nothing
changes but BSYNC, LINK, FSM and the outputs. -/
def Obligations.BsFeedCompletes : Prop :=
  ∀ (s : State) (x : Int), s.par.trig = .reference → NumericOk s → BsyncOk s → LinkOk s → FsmOk s →
    s.phase = .run → isS16 x = true →
      ∃ t, exec (.bsFeed x) s = .next t ∧ t.bsync.is = (s.bsync.is + 39) % 40 ∧
        t.bsync.lin = (LIN_A.mul (Real64.ofInt (x.natAbs : Int))).add (LIN_B.mul s.bsync.lin) ∧
        (t.bsync.clock = s.bsync.clock + 1 ∨ t.bsync.clock = 0) ∧
        (t.bsync.bitValid = true → t.bsync.clock = 0) ∧
        t = { s with bsync := t.bsync, link := t.link, fsm := t.fsm, out := t.out }

/-! ### Bit link -/

/-- R113, R114, R44: with fewer than 7 bits held, BIT_IN shifts its bit in at bit 7 and counts it; nothing else
changes. -/
def Obligations.BitInShiftsIntoLink : Prop :=
  ∀ (s : State) (v : Int), s.phase = .run → v = 0 ∨ v = 1 → s.link.nbits < 7 →
    exec (.bitIn v) s =
      .next { opOutputs s none [] none with
        link := { outbits := (s.link.outbits >>> 1) ||| (if v = 1 then 0x80#8 else 0x00#8)
                  nbits := s.link.nbits + 1 } }

/-- R113, R116: the eighth bit hands the shift register to FSM_BYTE in the current state; an accepted frame leaves no
bit held, any other result `r` leaves `8 - r`. -/
def Obligations.EighthBitCallsFrameMachine : Prop :=
  ∀ (s : State) (v : Int), s.phase = .run → v = 0 ∨ v = 1 → s.link.nbits = 7 →
    let byte := (s.link.outbits >>> 1) ||| (if v = 1 then 0x80#8 else 0x00#8)
    let called := { opOutputs s none [] none with link := { outbits := byte, nbits := 8 } }
    (∀ u, fsmByte byte called = .ok (.accepted, u) →
      exec (.bitIn v) s = .next { u with link := { outbits := byte, nbits := 0 } }) ∧
      (∀ n u, fsmByte byte called = .ok (.consumed n, u) →
        exec (.bitIn v) s = .next { u with link := { outbits := byte, nbits := 8 - n } })

/-- R113, R114: BIT_IN answers a next state in every state in RUN that meets the invariant; fewer than 8 bits are held
after it, and it changes no BSYNC state but the signs, which the frame machine may clear, and otherwise only LINK, FSM
and the outputs. -/
def Obligations.BitInCompletes : Prop :=
  ∀ (s : State) (v : Int), s.phase = .run → v = 0 ∨ v = 1 → LinkOk s → FsmOk s →
    ∃ t, exec (.bitIn v) s = .next t ∧ t.link.nbits < 8 ∧
      t = { s with bsync := t.bsync, link := t.link, fsm := t.fsm, out := t.out } ∧
      t.bsync = { s.bsync with
        sgI := t.bsync.sgI, sgQ := t.bsync.sgQ, bitValid := false, bit := false } ∧
      (t.bsync.sgI = s.bsync.sgI ∧ t.bsync.sgQ = s.bsync.sgQ ∨ t.bsync.sgI = .zero ∧ t.bsync.sgQ = .zero)

/-! ### Frame state machine -/

/-- R118: FSM_BYTE in HeadLost. -/
def Obligations.HeadLostCountsPrekey : Prop :=
  ∀ (s : State) (b : Int), s.phase = .run → 0 ≤ b → b < 256 →
    exec (.fsmByteHeadLost b) s =
      .next
        (if b = 255 then
          if 24 < s.fsm.consecutivePrekey + 1 then
            { opOutputs s none [.headFound] (some (.fsm 1)) with
              fsm := { s.fsm with consecutivePrekey := s.fsm.consecutivePrekey + 1, state := 1#3 } }
          else
            { opOutputs s none [] (some (.fsm 1)) with
              fsm := { s.fsm with consecutivePrekey := s.fsm.consecutivePrekey + 1 } }
        else
          { opOutputs s none [] (some (.fsm 1)) with
            fsm := { s.fsm with consecutivePrekey := 0, raw := [] }
            bsync := { s.bsync with sgI := .zero, sgQ := .zero, bitValid := false, bit := false } })

/-- R119, R164: FSM_BYTE in HeadFound: 0xFF consumes one bit and changes nothing; any other byte enters Sync with
cleared registers and all its 8 bits are taken there in the same call. -/
def Obligations.HeadFoundHandsByteToSync : Prop :=
  ∀ (s : State) (b : Int), s.phase = .run → 0 ≤ b → b < 256 →
    exec (.fsmByteHeadFound b) s =
      .next
        (if b = 255 then opOutputs s none [] (some (.fsm 1))
        else
          { opOutputs s none [] (some (.fsm 8)) with
            fsm := { s.fsm with
              state := 2#3
              syncForming := (BitVec.ofInt 40 b) <<< 32
              syncBitsHave := 8
              raw := [] } })

/-- R120, R117, R70: FSM_BYTE in Sync. Bits are taken oldest first; the first bit after which 40 are held and at most 3
differ from 0x0116162AAB ends in Text with `raw = [0x01]`; without one, the 55th bit ends in HeadLost; otherwise all 8
bits are consumed. -/
def Obligations.SyncTakesBitsOldestFirst : Prop :=
  ∀ (s : State) (b : Int), s.phase = .run → 0 ≤ b → b < 256 →
    let byte : Byte := BitVec.ofInt 8 b
    let w := s.fsm.syncForming
    let held := s.fsm.syncBitsHave
    (∀ j, j < 8 → (∀ k, 1 ≤ k → k ≤ j → ¬syncHit byte w held k ∧ held + k < 55) → syncHit byte w held (j + 1) →
      exec (.fsmByteSync b) s =
        .next { opOutputs s none [.syncFound] (some (.fsm ((j + 1 : Nat) : Int))) with
          fsm := { s.fsm with
            state := 3#3
            syncForming := syncWindow byte w (j + 1)
            syncBitsHave := held + (j + 1)
            raw := [0x01#8] } }) ∧
      (∀ j, j < 8 → (∀ k, 1 ≤ k → k ≤ j → ¬syncHit byte w held k ∧ held + k < 55) →
        ¬syncHit byte w held (j + 1) → 55 ≤ held + (j + 1) →
        exec (.fsmByteSync b) s =
          .next { opOutputs s none [.syncTimeout] (some (.fsm ((j + 1 : Nat) : Int))) with
            fsm := { s.fsm with
              state := 0#3
              consecutivePrekey := 0
              raw := []
              syncForming := syncWindow byte w (j + 1)
              syncBitsHave := held + (j + 1) }
            bsync := { s.bsync with sgI := .zero, sgQ := .zero, bitValid := false, bit := false } }) ∧
      ((∀ k, 1 ≤ k → k ≤ 8 → ¬syncHit byte w held k ∧ held + k < 55) →
        exec (.fsmByteSync b) s =
          .next { opOutputs s none [] (some (.fsm 8)) with
            fsm := { s.fsm with syncForming := syncWindow byte w 8, syncBitsHave := held + 8 } })

/-- R121, R43: FSM_BYTE in Text with room in the buffer: the byte is appended; more than 244 bytes after SOH return to
HeadLost, tested first; 0x83 and 0x97 lead to Crc1; any other byte stays in Text. With the buffer full it is the fault
RAW_OVERFLOW. -/
def Obligations.TextAppendsUntilTerminator : Prop :=
  ∀ (s : State) (b : Int), s.phase = .run → 0 ≤ b → b < 256 →
    (s.fsm.raw.length < 247 →
      exec (.fsmByteText b) s =
        .next
          (if 244 < s.fsm.raw.length then
            headLost (opOutputs s none [.textOverflow] (some (.fsm 8))) s.fsm.crcErr
          else if b = 0x83 ∨ b = 0x97 then
            { opOutputs s none [] (some (.fsm 8)) with
              fsm := { s.fsm with raw := s.fsm.raw ++ [BitVec.ofInt 8 b], state := 4#3 } }
          else
            { opOutputs s none [] (some (.fsm 8)) with
              fsm := { s.fsm with raw := s.fsm.raw ++ [BitVec.ofInt 8 b] } })) ∧
      (s.fsm.raw.length = 247 → exec (.fsmByteText b) s = .fault .rawOverflow)

/-- R122, R43: FSM_BYTE in Crc1: with room in the buffer the first CRC byte is appended and Crc2 follows; with the buffer
full it is the fault RAW_OVERFLOW. -/
def Obligations.FirstCrcByteIsAppended : Prop :=
  ∀ (s : State) (b : Int), s.phase = .run → 0 ≤ b → b < 256 →
    (s.fsm.raw.length < 247 →
      exec (.fsmByteCrc1 b) s =
        .next { opOutputs s none [] (some (.fsm 8)) with
          fsm := { s.fsm with raw := s.fsm.raw ++ [BitVec.ofInt 8 b], state := 5#3 } }) ∧
      (s.fsm.raw.length = 247 → exec (.fsmByteCrc1 b) s = .fault .rawOverflow)

/-- R123, R43: FSM_BYTE in Crc2: with room in the buffer the second CRC byte is appended and End follows; with the buffer
full it is the fault RAW_OVERFLOW. -/
def Obligations.SecondCrcByteIsAppended : Prop :=
  ∀ (s : State) (b : Int), s.phase = .run → 0 ≤ b → b < 256 →
    (s.fsm.raw.length < 247 →
      exec (.fsmByteCrc2 b) s =
        .next { opOutputs s none [] (some (.fsm 8)) with
          fsm := { s.fsm with raw := s.fsm.raw ++ [BitVec.ofInt 8 b], state := 6#3 } }) ∧
      (s.fsm.raw.length = 247 → exec (.fsmByteCrc2 b) s = .fault .rawOverflow)

/-- R124, R125, R117: FSM_BYTE in End. A zero CRC emits the frame; otherwise the first single-bit flip, byte index
outer and bit index inner, whose CRC is zero is emitted as corrected; with none the frame is dropped. -/
def Obligations.EndJudgesTheFrame : Prop :=
  ∀ (s : State) (b : Int), s.phase = .run → 0 ≤ b → b < 256 →
    let raw := s.fsm.raw
    let flip (i j : Nat) := raw.modify i (fun v => v ^^^ (1#8 <<< j))
    (crcGen raw = 0#16 →
      exec (.fsmByteEnd b) s =
        .next (headLost (opOutputs s (some { bytes := raw, len := raw.length, crcCorrected := false })
          [.frameAccepted] (some (.fsm (-1)))) false)) ∧
      (∀ i j, crcGen raw ≠ 0#16 → i < raw.length → j < 8 → crcGen (flip i j) = 0#16 →
        (∀ i' j', i' < raw.length → j' < 8 → i' < i ∨ i' = i ∧ j' < j → crcGen (flip i' j') ≠ 0#16) →
        exec (.fsmByteEnd b) s =
          .next (headLost (opOutputs s (some { bytes := flip i j, len := raw.length, crcCorrected := true })
            [.frameCorrected] (some (.fsm (-1)))) true)) ∧
      (crcGen raw ≠ 0#16 → (∀ i j, i < raw.length → j < 8 → crcGen (flip i j) ≠ 0#16) →
        exec (.fsmByteEnd b) s =
          .next (headLost (opOutputs s none [.crcFail] (some (.fsm 8))) true))

/-- R128, R124: a frame of at most 247 bytes with one bit flipped is put right in End: the frame emitted is the frame
before the flip. -/
def Obligations.SingleFlipIsCorrected : Prop :=
  ∀ (s : State) (b : Int) (frame : List Byte) (i j : Nat), s.phase = .run → 0 ≤ b → b < 256 →
    frame.length ≤ 247 → crcGen frame = 0#16 → i < frame.length → j < 8 → s.fsm.raw = flipBit frame i j →
      exec (.fsmByteEnd b) s =
        .next (headLost (opOutputs s (some { bytes := frame, len := frame.length, crcCorrected := true })
          [.frameCorrected] (some (.fsm (-1)))) true)

/-- R128, R124: a frame of at most 247 bytes with two bits flipped is dropped in End. -/
def Obligations.DoubleFlipIsDropped : Prop :=
  ∀ (s : State) (b : Int) (frame : List Byte) (i j i' j' : Nat), s.phase = .run → 0 ≤ b → b < 256 →
    frame.length ≤ 247 → crcGen frame = 0#16 → i < frame.length → j < 8 → i' < frame.length → j' < 8 →
    (i, j) ≠ (i', j') → s.fsm.raw = flipBit (flipBit frame i j) i' j' →
      exec (.fsmByteEnd b) s = .next (headLost (opOutputs s none [.crcFail] (some (.fsm 8))) true)

/-- R127: End is entered only by Crc2, Crc2 only by Crc1, and Crc1 only by Text on 0x83 or 0x97; Crc1 and Crc2 consume
one byte each. -/
def Obligations.EndOnlyAfterTerminatorAndTwoBytes : Prop :=
  ∀ (s t : State) (b : Byte) (r : FsmResult), fsmByte b s = .ok (r, t) →
    (t.fsm.state = 6#3 ↔ s.fsm.state = 5#3) ∧ (t.fsm.state = 5#3 ↔ s.fsm.state = 4#3) ∧
      (t.fsm.state = 4#3 ↔ s.fsm.state = 3#3 ∧ s.fsm.raw.length ≤ 244 ∧ (b = 0x83#8 ∨ b = 0x97#8)) ∧
      (s.fsm.state = 4#3 ∨ s.fsm.state = 5#3 → r = .consumed 8 ∧ t.fsm.raw = s.fsm.raw ++ [b])

/-- R72: in a frame of at least 27 bytes the fields SOH, mode, address, ack, label, block id, STX, seq no, flight id, text,
terminator and CRC have the lengths of the table and, one after the other, are the frame. -/
def Obligations.FrameLayoutCoversTheFrame : Prop :=
  ∀ r : FrameRecord, r.len = r.bytes.length → 27 ≤ r.len →
    frameFields.flatMap r.field = r.bytes ∧
      frameFields.map (fun f => (r.field f).length) = [1, 1, 7, 1, 2, 1, 1, 4, 6, r.len - 27, 1, 2] ∧
      r.field .soh = r.bytes.take 1 ∧ r.field .text = (r.bytes.drop 24).take (r.len - 27) ∧
      r.field .crc = r.bytes.drop (r.len - 2)

/-! ### CRC engine and parity -/

/-- R137, R53: CRC_GEN returns the reflected register of the sequence, in both phases, and changes no state. -/
def Obligations.CrcGenReturnsReflectedRegister : Prop :=
  ∀ (s : State) (data : List Int), (∀ b ∈ data, 0 ≤ b ∧ b < 256) →
    exec (.crcGen data) s =
      .next (opOutputs s none [] (some (.u16
        (rev16 (data.foldl (fun r b => crcFold r (revByte (BitVec.ofInt 8 b))) 0#16)))))

/-- R138, R53: CRC_CHECK returns whether the non-reflected register is 0, in both phases, and changes no state. -/
def Obligations.CrcCheckTestsPlainRegister : Prop :=
  ∀ (s : State) (data : List Int), (∀ b ∈ data, 0 ≤ b ∧ b < 256) →
    exec (.crcCheck data) s =
      .next (opOutputs s none [] (some (.truth
        (decide (data.foldl (fun c b => crcFold c (BitVec.ofInt 8 b)) 0#16 = 0#16)))))

/-- R135, R136, R131: CRC_FOLD and CRC_FOLD_REV return the table step of the byte and of the reversed byte, in both
phases, and change no state. -/
def Obligations.CrcFoldsReturnTableStep : Prop :=
  ∀ (s : State) (crc : Word16) (b : Byte),
    exec (.crcFold crc.toNat b.toNat) s =
        .next (opOutputs s none [] (some (.u16 ((crc <<< 8) ^^^ crcTab ((crc >>> 8).setWidth 8 ^^^ b))))) ∧
      exec (.crcFoldRev crc.toNat b.toNat) s =
        .next (opOutputs s none [] (some (.u16 ((crc <<< 8) ^^^ crcTab ((crc >>> 8).setWidth 8 ^^^ b.reverse)))))

/-- R139, R141, R133: ODD_PARITY returns `c` with bit 7 set when its low 7 bits have an even number of ones; for a
7-bit character the result has an odd number of ones; a `c` from 0x80 up is returned as it is. -/
def Obligations.OddParityMakesOddBytes : Prop :=
  ∀ (s : State) (c : Byte), ∃ r : Byte,
    exec (.oddParity c.toNat) s = .next (opOutputs s none [] (some (.u8 r))) ∧
      r.extractLsb' 0 7 = c.extractLsb' 0 7 ∧ (c.toNat < 128 → popcount r % 2 = 1) ∧ (128 ≤ c.toNat → r = c)

/-- R140: the CRC of a sequence followed by its trailer, low byte of the CRC first, is zero; with the bytes of the trailer
in the other order it is not in general. -/
def Obligations.TrailerMakesCrcZero : Prop :=
  (∀ data : List Byte,
    crcGen (data ++ [(crcGen data).extractLsb' 0 8, (crcGen data).extractLsb' 8 8]) = 0#16) ∧
    crcGen [0x01#8] = 0x1189#16 ∧ crcGen [0x01#8, 0x11#8, 0x89#8] = 0xCF5C#16

/-- R142: CRC_GEN and the register of CRC_CHECK are linear over XOR for sequences of equal length. -/
def Obligations.CrcIsLinear : Prop :=
  ∀ a b : List Byte, a.length = b.length →
    crcGen (List.zipWith (fun x y => x ^^^ y) a b) = crcGen a ^^^ crcGen b ∧
      crcPlain (List.zipWith (fun x y => x ^^^ y) a b) = crcPlain a ^^^ crcPlain b

/-- R132, R134: the reversals are involutions, and `rev16` reverses all 16 bits. -/
def Obligations.ReversalsAreInvolutions : Prop :=
  (∀ b : Byte, revByte b = b.reverse ∧ revByte (revByte b) = b) ∧
    ∀ x : Word16, rev16 x = x.reverse ∧ rev16 (rev16 x) = x
end

