-- ==== Sys2Proof/Laws/State.lean ====
section
/-! SUPPORT. What each named update of the state leaves in each field: one lemma a field and update, true by unfolding. -/

namespace Sys2Proof.Machine

variable (s : State)

/-! ### beginOp -/

@[simp] theorem beginOp_par : (beginOp s).par = s.par := rfl
@[simp] theorem beginOp_phase : (beginOp s).phase = s.phase := rfl
@[simp] theorem beginOp_cfg : (beginOp s).cfg = s.cfg := rfl
@[simp] theorem beginOp_cond : (beginOp s).cond = s.cond := rfl
@[simp] theorem beginOp_bsync : (beginOp s).bsync = { s.bsync with bitValid := false, bit := false } := rfl
@[simp] theorem beginOp_link : (beginOp s).link = s.link := rfl
@[simp] theorem beginOp_fsm : (beginOp s).fsm = s.fsm := rfl
@[simp] theorem beginOp_out : (beginOp s).out = Outputs.empty := rfl
@[simp] theorem beginOp_stream : (beginOp s).stream = s.stream := rfl
@[simp] theorem beginOp_inbox : (beginOp s).inbox = s.inbox := rfl
@[simp] theorem beginOp_refusals : (beginOp s).refusals = s.refusals := rfl
@[simp] theorem beginOp_schedule : (beginOp s).schedule = s.schedule := rfl

/-! ### raiseEvent -/

@[simp] theorem raiseEvent_par (e : Event) : (raiseEvent e s).par = s.par := rfl
@[simp] theorem raiseEvent_phase (e : Event) : (raiseEvent e s).phase = s.phase := rfl
@[simp] theorem raiseEvent_cfg (e : Event) : (raiseEvent e s).cfg = s.cfg := rfl
@[simp] theorem raiseEvent_cond (e : Event) : (raiseEvent e s).cond = s.cond := rfl
@[simp] theorem raiseEvent_bsync (e : Event) : (raiseEvent e s).bsync = s.bsync := rfl
@[simp] theorem raiseEvent_link (e : Event) : (raiseEvent e s).link = s.link := rfl
@[simp] theorem raiseEvent_fsm (e : Event) : (raiseEvent e s).fsm = s.fsm := rfl
@[simp] theorem raiseEvent_out (e : Event) : (raiseEvent e s).out = { s.out with events := s.out.events ++ [e] } := rfl
@[simp] theorem raiseEvent_stream (e : Event) : (raiseEvent e s).stream = s.stream := rfl
@[simp] theorem raiseEvent_inbox (e : Event) : (raiseEvent e s).inbox = s.inbox := rfl
@[simp] theorem raiseEvent_refusals (e : Event) : (raiseEvent e s).refusals = s.refusals := rfl
@[simp] theorem raiseEvent_schedule (e : Event) : (raiseEvent e s).schedule = s.schedule := rfl

/-! ### setResult -/

@[simp] theorem setResult_par (r : OpResult) : (setResult r s).par = s.par := rfl
@[simp] theorem setResult_phase (r : OpResult) : (setResult r s).phase = s.phase := rfl
@[simp] theorem setResult_cfg (r : OpResult) : (setResult r s).cfg = s.cfg := rfl
@[simp] theorem setResult_cond (r : OpResult) : (setResult r s).cond = s.cond := rfl
@[simp] theorem setResult_bsync (r : OpResult) : (setResult r s).bsync = s.bsync := rfl
@[simp] theorem setResult_link (r : OpResult) : (setResult r s).link = s.link := rfl
@[simp] theorem setResult_fsm (r : OpResult) : (setResult r s).fsm = s.fsm := rfl
@[simp] theorem setResult_out (r : OpResult) : (setResult r s).out = { s.out with result := some r } := rfl
@[simp] theorem setResult_stream (r : OpResult) : (setResult r s).stream = s.stream := rfl
@[simp] theorem setResult_inbox (r : OpResult) : (setResult r s).inbox = s.inbox := rfl
@[simp] theorem setResult_refusals (r : OpResult) : (setResult r s).refusals = s.refusals := rfl
@[simp] theorem setResult_schedule (r : OpResult) : (setResult r s).schedule = s.schedule := rfl

/-! ### emitFrame -/

@[simp] theorem emitFrame_par (bytes : List Byte) (flag : Bool) : (emitFrame bytes flag s).par = s.par := rfl
@[simp] theorem emitFrame_phase (bytes : List Byte) (flag : Bool) : (emitFrame bytes flag s).phase = s.phase := rfl
@[simp] theorem emitFrame_cfg (bytes : List Byte) (flag : Bool) : (emitFrame bytes flag s).cfg = s.cfg := rfl
@[simp] theorem emitFrame_cond (bytes : List Byte) (flag : Bool) : (emitFrame bytes flag s).cond = s.cond := rfl
@[simp] theorem emitFrame_bsync (bytes : List Byte) (flag : Bool) : (emitFrame bytes flag s).bsync = s.bsync := rfl
@[simp] theorem emitFrame_link (bytes : List Byte) (flag : Bool) : (emitFrame bytes flag s).link = s.link := rfl
@[simp] theorem emitFrame_fsm (bytes : List Byte) (flag : Bool) : (emitFrame bytes flag s).fsm = s.fsm := rfl
@[simp] theorem emitFrame_out (bytes : List Byte) (flag : Bool) : (emitFrame bytes flag s).out = { s.out with frame := some { bytes := bytes, len := bytes.length, crcCorrected := flag } } := rfl
@[simp] theorem emitFrame_stream (bytes : List Byte) (flag : Bool) : (emitFrame bytes flag s).stream = s.stream := rfl
@[simp] theorem emitFrame_inbox (bytes : List Byte) (flag : Bool) : (emitFrame bytes flag s).inbox = s.inbox := rfl
@[simp] theorem emitFrame_refusals (bytes : List Byte) (flag : Bool) : (emitFrame bytes flag s).refusals = s.refusals := rfl
@[simp] theorem emitFrame_schedule (bytes : List Byte) (flag : Bool) : (emitFrame bytes flag s).schedule = s.schedule := rfl

/-! ### setTag -/

@[simp] theorem setTag_par (tag : BitVec 3) : (setTag tag s).par = s.par := rfl
@[simp] theorem setTag_phase (tag : BitVec 3) : (setTag tag s).phase = s.phase := rfl
@[simp] theorem setTag_cfg (tag : BitVec 3) : (setTag tag s).cfg = s.cfg := rfl
@[simp] theorem setTag_cond (tag : BitVec 3) : (setTag tag s).cond = s.cond := rfl
@[simp] theorem setTag_bsync (tag : BitVec 3) : (setTag tag s).bsync = s.bsync := rfl
@[simp] theorem setTag_link (tag : BitVec 3) : (setTag tag s).link = s.link := rfl
@[simp] theorem setTag_fsm (tag : BitVec 3) : (setTag tag s).fsm = { s.fsm with state := tag } := rfl
@[simp] theorem setTag_out (tag : BitVec 3) : (setTag tag s).out = s.out := rfl
@[simp] theorem setTag_stream (tag : BitVec 3) : (setTag tag s).stream = s.stream := rfl
@[simp] theorem setTag_inbox (tag : BitVec 3) : (setTag tag s).inbox = s.inbox := rfl
@[simp] theorem setTag_refusals (tag : BitVec 3) : (setTag tag s).refusals = s.refusals := rfl
@[simp] theorem setTag_schedule (tag : BitVec 3) : (setTag tag s).schedule = s.schedule := rfl

/-! ### clearRaw -/

@[simp] theorem clearRaw_par : (clearRaw s).par = s.par := rfl
@[simp] theorem clearRaw_phase : (clearRaw s).phase = s.phase := rfl
@[simp] theorem clearRaw_cfg : (clearRaw s).cfg = s.cfg := rfl
@[simp] theorem clearRaw_cond : (clearRaw s).cond = s.cond := rfl
@[simp] theorem clearRaw_bsync : (clearRaw s).bsync = s.bsync := rfl
@[simp] theorem clearRaw_link : (clearRaw s).link = s.link := rfl
@[simp] theorem clearRaw_fsm : (clearRaw s).fsm = { s.fsm with raw := [] } := rfl
@[simp] theorem clearRaw_out : (clearRaw s).out = s.out := rfl
@[simp] theorem clearRaw_stream : (clearRaw s).stream = s.stream := rfl
@[simp] theorem clearRaw_inbox : (clearRaw s).inbox = s.inbox := rfl
@[simp] theorem clearRaw_refusals : (clearRaw s).refusals = s.refusals := rfl
@[simp] theorem clearRaw_schedule : (clearRaw s).schedule = s.schedule := rfl

/-! ### clearSigns -/

@[simp] theorem clearSigns_par : (clearSigns s).par = s.par := rfl
@[simp] theorem clearSigns_phase : (clearSigns s).phase = s.phase := rfl
@[simp] theorem clearSigns_cfg : (clearSigns s).cfg = s.cfg := rfl
@[simp] theorem clearSigns_cond : (clearSigns s).cond = s.cond := rfl
@[simp] theorem clearSigns_bsync : (clearSigns s).bsync = { s.bsync with sgI := .zero, sgQ := .zero } := rfl
@[simp] theorem clearSigns_link : (clearSigns s).link = s.link := rfl
@[simp] theorem clearSigns_fsm : (clearSigns s).fsm = s.fsm := rfl
@[simp] theorem clearSigns_out : (clearSigns s).out = s.out := rfl
@[simp] theorem clearSigns_stream : (clearSigns s).stream = s.stream := rfl
@[simp] theorem clearSigns_inbox : (clearSigns s).inbox = s.inbox := rfl
@[simp] theorem clearSigns_refusals : (clearSigns s).refusals = s.refusals := rfl
@[simp] theorem clearSigns_schedule : (clearSigns s).schedule = s.schedule := rfl

/-! ### setPrekey -/

@[simp] theorem setPrekey_par (n : Nat) : (setPrekey n s).par = s.par := rfl
@[simp] theorem setPrekey_phase (n : Nat) : (setPrekey n s).phase = s.phase := rfl
@[simp] theorem setPrekey_cfg (n : Nat) : (setPrekey n s).cfg = s.cfg := rfl
@[simp] theorem setPrekey_cond (n : Nat) : (setPrekey n s).cond = s.cond := rfl
@[simp] theorem setPrekey_bsync (n : Nat) : (setPrekey n s).bsync = s.bsync := rfl
@[simp] theorem setPrekey_link (n : Nat) : (setPrekey n s).link = s.link := rfl
@[simp] theorem setPrekey_fsm (n : Nat) : (setPrekey n s).fsm = { s.fsm with consecutivePrekey := n } := rfl
@[simp] theorem setPrekey_out (n : Nat) : (setPrekey n s).out = s.out := rfl
@[simp] theorem setPrekey_stream (n : Nat) : (setPrekey n s).stream = s.stream := rfl
@[simp] theorem setPrekey_inbox (n : Nat) : (setPrekey n s).inbox = s.inbox := rfl
@[simp] theorem setPrekey_refusals (n : Nat) : (setPrekey n s).refusals = s.refusals := rfl
@[simp] theorem setPrekey_schedule (n : Nat) : (setPrekey n s).schedule = s.schedule := rfl

/-! ### setCrcErr -/

@[simp] theorem setCrcErr_par (v : Bool) : (setCrcErr v s).par = s.par := rfl
@[simp] theorem setCrcErr_phase (v : Bool) : (setCrcErr v s).phase = s.phase := rfl
@[simp] theorem setCrcErr_cfg (v : Bool) : (setCrcErr v s).cfg = s.cfg := rfl
@[simp] theorem setCrcErr_cond (v : Bool) : (setCrcErr v s).cond = s.cond := rfl
@[simp] theorem setCrcErr_bsync (v : Bool) : (setCrcErr v s).bsync = s.bsync := rfl
@[simp] theorem setCrcErr_link (v : Bool) : (setCrcErr v s).link = s.link := rfl
@[simp] theorem setCrcErr_fsm (v : Bool) : (setCrcErr v s).fsm = { s.fsm with crcErr := v } := rfl
@[simp] theorem setCrcErr_out (v : Bool) : (setCrcErr v s).out = s.out := rfl
@[simp] theorem setCrcErr_stream (v : Bool) : (setCrcErr v s).stream = s.stream := rfl
@[simp] theorem setCrcErr_inbox (v : Bool) : (setCrcErr v s).inbox = s.inbox := rfl
@[simp] theorem setCrcErr_refusals (v : Bool) : (setCrcErr v s).refusals = s.refusals := rfl
@[simp] theorem setCrcErr_schedule (v : Bool) : (setCrcErr v s).schedule = s.schedule := rfl

/-! ### resetFrame -/

@[simp] theorem resetFrame_par : (resetFrame s).par = s.par := rfl
@[simp] theorem resetFrame_phase : (resetFrame s).phase = s.phase := rfl
@[simp] theorem resetFrame_cfg : (resetFrame s).cfg = s.cfg := rfl
@[simp] theorem resetFrame_cond : (resetFrame s).cond = s.cond := rfl
@[simp] theorem resetFrame_bsync : (resetFrame s).bsync = { s.bsync with sgI := .zero, sgQ := .zero } := rfl
@[simp] theorem resetFrame_link : (resetFrame s).link = s.link := rfl
@[simp] theorem resetFrame_fsm : (resetFrame s).fsm = { s.fsm with consecutivePrekey := 0, raw := [] } := rfl
@[simp] theorem resetFrame_out : (resetFrame s).out = s.out := rfl
@[simp] theorem resetFrame_stream : (resetFrame s).stream = s.stream := rfl
@[simp] theorem resetFrame_inbox : (resetFrame s).inbox = s.inbox := rfl
@[simp] theorem resetFrame_refusals : (resetFrame s).refusals = s.refusals := rfl
@[simp] theorem resetFrame_schedule : (resetFrame s).schedule = s.schedule := rfl

/-! ### goHeadLost -/

@[simp] theorem goHeadLost_par : (goHeadLost s).par = s.par := rfl
@[simp] theorem goHeadLost_phase : (goHeadLost s).phase = s.phase := rfl
@[simp] theorem goHeadLost_cfg : (goHeadLost s).cfg = s.cfg := rfl
@[simp] theorem goHeadLost_cond : (goHeadLost s).cond = s.cond := rfl
@[simp] theorem goHeadLost_bsync : (goHeadLost s).bsync = { s.bsync with sgI := .zero, sgQ := .zero } := rfl
@[simp] theorem goHeadLost_link : (goHeadLost s).link = s.link := rfl
@[simp] theorem goHeadLost_fsm : (goHeadLost s).fsm = { s.fsm with state := stHeadLost, consecutivePrekey := 0, raw := [] } := rfl
@[simp] theorem goHeadLost_out : (goHeadLost s).out = s.out := rfl
@[simp] theorem goHeadLost_stream : (goHeadLost s).stream = s.stream := rfl
@[simp] theorem goHeadLost_inbox : (goHeadLost s).inbox = s.inbox := rfl
@[simp] theorem goHeadLost_refusals : (goHeadLost s).refusals = s.refusals := rfl
@[simp] theorem goHeadLost_schedule : (goHeadLost s).schedule = s.schedule := rfl

/-! ### markRefused -/

@[simp] theorem markRefused_par (r : Refusal) : (markRefused r s).par = s.par := rfl
@[simp] theorem markRefused_phase (r : Refusal) : (markRefused r s).phase = s.phase := rfl
@[simp] theorem markRefused_cfg (r : Refusal) : (markRefused r s).cfg = s.cfg := rfl
@[simp] theorem markRefused_cond (r : Refusal) : (markRefused r s).cond = s.cond := rfl
@[simp] theorem markRefused_bsync (r : Refusal) : (markRefused r s).bsync = s.bsync := rfl
@[simp] theorem markRefused_link (r : Refusal) : (markRefused r s).link = s.link := rfl
@[simp] theorem markRefused_fsm (r : Refusal) : (markRefused r s).fsm = s.fsm := rfl
@[simp] theorem markRefused_out (r : Refusal) : (markRefused r s).out = s.out := rfl
@[simp] theorem markRefused_stream (r : Refusal) : (markRefused r s).stream = s.stream := rfl
@[simp] theorem markRefused_inbox (r : Refusal) : (markRefused r s).inbox = s.inbox := rfl
@[simp] theorem markRefused_refusals (r : Refusal) : (markRefused r s).refusals = s.refusals ++ [r] := rfl
@[simp] theorem markRefused_schedule (r : Refusal) : (markRefused r s).schedule = s.schedule := rfl

/-! ### resetState -/

@[simp] theorem resetState_par : (resetState s).par = s.par := rfl
@[simp] theorem resetState_phase : (resetState s).phase = .run := rfl
@[simp] theorem resetState_cfg : (resetState s).cfg = s.cfg := rfl
@[simp] theorem resetState_cond : (resetState s).cond = Cond.reset := rfl
@[simp] theorem resetState_bsync : (resetState s).bsync = Bsync.reset := rfl
@[simp] theorem resetState_link : (resetState s).link = Link.reset := rfl
@[simp] theorem resetState_fsm : (resetState s).fsm = Fsm.reset := rfl
@[simp] theorem resetState_out : (resetState s).out = Outputs.empty := rfl
@[simp] theorem resetState_stream : (resetState s).stream = s.stream := rfl
@[simp] theorem resetState_inbox : (resetState s).inbox = s.inbox := rfl
@[simp] theorem resetState_refusals : (resetState s).refusals = s.refusals := rfl
@[simp] theorem resetState_schedule : (resetState s).schedule = s.schedule := rfl

/-! ### syncShift -/

@[simp] theorem syncShift_par (v : Bool) : (syncShift v s).par = s.par := rfl
@[simp] theorem syncShift_phase (v : Bool) : (syncShift v s).phase = s.phase := rfl
@[simp] theorem syncShift_cfg (v : Bool) : (syncShift v s).cfg = s.cfg := rfl
@[simp] theorem syncShift_cond (v : Bool) : (syncShift v s).cond = s.cond := rfl
@[simp] theorem syncShift_bsync (v : Bool) : (syncShift v s).bsync = s.bsync := rfl
@[simp] theorem syncShift_link (v : Bool) : (syncShift v s).link = s.link := rfl
@[simp] theorem syncShift_fsm (v : Bool) : (syncShift v s).fsm = { s.fsm with syncForming := (s.fsm.syncForming >>> 1) ||| ((BitVec.ofBool v).zeroExtend 40 <<< 39), syncBitsHave := s.fsm.syncBitsHave + 1 } := rfl
@[simp] theorem syncShift_out (v : Bool) : (syncShift v s).out = s.out := rfl
@[simp] theorem syncShift_stream (v : Bool) : (syncShift v s).stream = s.stream := rfl
@[simp] theorem syncShift_inbox (v : Bool) : (syncShift v s).inbox = s.inbox := rfl
@[simp] theorem syncShift_refusals (v : Bool) : (syncShift v s).refusals = s.refusals := rfl
@[simp] theorem syncShift_schedule (v : Bool) : (syncShift v s).schedule = s.schedule := rfl

/-! ### enterSync -/

@[simp] theorem enterSync_par : (enterSync s).par = s.par := rfl
@[simp] theorem enterSync_phase : (enterSync s).phase = s.phase := rfl
@[simp] theorem enterSync_cfg : (enterSync s).cfg = s.cfg := rfl
@[simp] theorem enterSync_cond : (enterSync s).cond = s.cond := rfl
@[simp] theorem enterSync_bsync : (enterSync s).bsync = s.bsync := rfl
@[simp] theorem enterSync_link : (enterSync s).link = s.link := rfl
@[simp] theorem enterSync_fsm : (enterSync s).fsm = { s.fsm with state := stSync, syncForming := 0#40, syncBitsHave := 0, raw := [] } := rfl
@[simp] theorem enterSync_out : (enterSync s).out = s.out := rfl
@[simp] theorem enterSync_stream : (enterSync s).stream = s.stream := rfl
@[simp] theorem enterSync_inbox : (enterSync s).inbox = s.inbox := rfl
@[simp] theorem enterSync_refusals : (enterSync s).refusals = s.refusals := rfl
@[simp] theorem enterSync_schedule : (enterSync s).schedule = s.schedule := rfl

/-! ### acceptFrame -/

@[simp] theorem acceptFrame_par (bytes : List Byte) (c : Bool) : (acceptFrame bytes c s).par = s.par := rfl
@[simp] theorem acceptFrame_phase (bytes : List Byte) (c : Bool) : (acceptFrame bytes c s).phase = s.phase := rfl
@[simp] theorem acceptFrame_cfg (bytes : List Byte) (c : Bool) : (acceptFrame bytes c s).cfg = s.cfg := rfl
@[simp] theorem acceptFrame_cond (bytes : List Byte) (c : Bool) : (acceptFrame bytes c s).cond = s.cond := rfl
@[simp] theorem acceptFrame_bsync (bytes : List Byte) (c : Bool) : (acceptFrame bytes c s).bsync = { s.bsync with sgI := .zero, sgQ := .zero } := rfl
@[simp] theorem acceptFrame_link (bytes : List Byte) (c : Bool) : (acceptFrame bytes c s).link = s.link := rfl
@[simp] theorem acceptFrame_fsm (bytes : List Byte) (c : Bool) : (acceptFrame bytes c s).fsm = { s.fsm with state := stHeadLost, consecutivePrekey := 0, raw := [] } := rfl
@[simp] theorem acceptFrame_out (bytes : List Byte) (c : Bool) : (acceptFrame bytes c s).out = { s.out with frame := some { bytes := bytes, len := bytes.length, crcCorrected := c }, events := s.out.events ++ [if c then .frameCorrected else .frameAccepted] } := rfl
@[simp] theorem acceptFrame_stream (bytes : List Byte) (c : Bool) : (acceptFrame bytes c s).stream = s.stream := rfl
@[simp] theorem acceptFrame_inbox (bytes : List Byte) (c : Bool) : (acceptFrame bytes c s).inbox = s.inbox := rfl
@[simp] theorem acceptFrame_refusals (bytes : List Byte) (c : Bool) : (acceptFrame bytes c s).refusals = s.refusals := rfl
@[simp] theorem acceptFrame_schedule (bytes : List Byte) (c : Bool) : (acceptFrame bytes c s).schedule = s.schedule := rfl

end Sys2Proof.Machine
end

