-- ==== Sys2Proof/Laws/Ops.lean ====
section
/-! SUPPORT. What the shared operations of Machine/Ops.lean and Machine/Operands.lean can do: operands, admission,
outcomes, and the push to the raw frame. -/

namespace Sys2Proof.Machine

/-! ### Operand types (30_encoding.md R63) -/

theorem isU8_iff {n : Int} : isU8 n = true ↔ 0 ≤ n ∧ n < 256 := by simp [isU8]

theorem isU16_iff {n : Int} : isU16 n = true ↔ 0 ≤ n ∧ n < 65536 := by simp [isU16]

theorem isS16_iff {n : Int} : isS16 n = true ↔ -32768 ≤ n ∧ n < 32768 := by simp [isS16]

theorem isBit_iff {n : Int} : isBit n = true ↔ n = 0 ∨ n = 1 := by simp [isBit]

/-- A u8 is the value of its byte. -/
theorem toNat_ofInt_u8 {n : Int} (h : isU8 n = true) : ((BitVec.ofInt 8 n).toNat : Int) = n := by
  rw [isU8_iff] at h
  simp only [BitVec.toNat_ofInt]
  omega

/-- A u16 is the value of its 16-bit word. -/
theorem toNat_ofInt_u16 {n : Int} (h : isU16 n = true) : ((BitVec.ofInt 16 n).toNat : Int) = n := by
  rw [isU16_iff] at h
  simp only [BitVec.toNat_ofInt]
  omega

/-- Every byte is a u8. -/
theorem isU8_toNat (b : Byte) : isU8 (b.toNat : Int) = true := by
  rw [isU8_iff]
  have := b.isLt
  omega

theorem operandU8_ok {n : Int} (h : isU8 n = true) : operandU8 n = .ok (BitVec.ofInt 8 n) := by simp [operandU8, h]

theorem operandU8_error {n : Int} (h : isU8 n = false) : operandU8 n = .error .badOperand := by simp [operandU8, h]

theorem operandU16_ok {n : Int} (h : isU16 n = true) : operandU16 n = .ok (BitVec.ofInt 16 n) := by
  simp [operandU16, h]

theorem operandS16_ok {n : Int} (h : isS16 n = true) : operandS16 n = .ok n := by simp [operandS16, h]

theorem operandS16_error {n : Int} (h : isS16 n = false) : operandS16 n = .error .badOperand := by
  simp [operandS16, h]

theorem operandBit_ok {n : Int} (h : isBit n = true) : operandBit n = .ok (decide (n = 1)) := by simp [operandBit, h]

theorem operandBit_error {n : Int} (h : isBit n = false) : operandBit n = .error .badBit := by simp [operandBit, h]

theorem operandSeq_ok {ns : List Int} (h : ns.all isU8 = true) :
    operandSeq ns = .ok (ns.map (BitVec.ofInt 8)) := by rw [operandSeq, if_pos h]

theorem operandSeq_error {ns : List Int} (h : ns.all isU8 = false) : operandSeq ns = .error .badOperand := by
  rw [operandSeq, h]
  rfl

theorem operandIq_ok {ns : List Int} (h2 : ns.length % 2 = 0) (h : ns.all isU8 = true) :
    operandIq ns = .ok (ns.map (BitVec.ofInt 8)) := by
  rw [operandIq, if_neg (by omega), operandSeq_ok h]

theorem operandIq_odd {ns : List Int} (h2 : ns.length % 2 = 1) : operandIq ns = .error .oddIqBlock := by
  rw [operandIq, if_pos h2]

theorem operandCrcByte_ok {crc b : Int} (hc : isU16 crc = true) (hb : isU8 b = true) :
    operandCrcByte crc b = .ok (BitVec.ofInt 16 crc, BitVec.ofInt 8 b) := by
  rw [operandCrcByte, operandU16_ok hc, operandU8_ok hb]

/-! ### Admission and outcomes (60_exceptions.md R145, R146) -/

variable {s t : State} {o k : Host.Outcome State Fault Refusal}

theorem runOnly_run (h : s.phase = .run) : runOnly s k = k := by simp [runOnly, h]

theorem runOnly_config (h : s.phase = .config) : runOnly s k = .refused .notReset := by simp [runOnly, h]

/-- A stateful operation that answers a next state was in RUN. -/
theorem runOnly_next (h : runOnly s k = .next t) : s.phase = .run ∧ k = .next t := by
  unfold runOnly at h
  split at h
  · cases h
  · refine ⟨?_, h⟩
    cases hp : s.phase <;> simp_all

@[simp] theorem withOperand_ok {α : Type} (a : α) (f : α → Host.Outcome State Fault Refusal) :
    withOperand (.ok a) f = f a := rfl

@[simp] theorem withOperand_error {α : Type} (r : Refusal) (f : α → Host.Outcome State Fault Refusal) :
    withOperand (.error r) f = .refused r := rfl

/-- An operation that answers a next state had its operand in its type. -/
theorem withOperand_next {α : Type} {e : Except Refusal α} {f : α → Host.Outcome State Fault Refusal}
    (h : withOperand e f = .next t) : ∃ a, e = .ok a ∧ f a = .next t := by
  cases e with
  | ok a => exact ⟨a, rfl, h⟩
  | error r => cases h

@[simp] theorem ofExcept_ok (u : State) : ofExcept (.ok u) = .next u := rfl

@[simp] theorem ofExcept_error (f : Fault) : ofExcept (.error f) = .fault f := rfl

theorem ofExcept_next {e : Except Fault State} (h : ofExcept e = .next t) : e = .ok t := by
  cases e with
  | ok a => rw [ofExcept_ok] at h; cases h; rfl
  | error f => cases h

@[simp] theorem settle_next : settle s (.next t) = .next t := rfl

@[simp] theorem settle_fault (f : Fault) : settle s (.fault f) = .fault f := rfl

/-- A refusal of R146 leaves the state with its mark. -/
theorem settle_refused {r : Refusal} (h : r.isMark = true) :
    settle s (.refused r) = .next (markRefused r (beginOp s)) := by simp [settle, h]

/-- What an operation's outcome is after `settle`, when it is a next state. -/
theorem settle_cases (h : settle s o = .next t) :
    o = .next t ∨ ∃ r, o = .refused r ∧ r.isMark = true ∧ t = markRefused r (beginOp s) := by
  cases o with
  | next u => exact .inl h
  | fault f => cases h
  | refused r =>
    simp only [settle] at h
    split at h
    · next hr => exact .inr ⟨r, rfl, hr, by cases h; rfl⟩
    · cases h

/-! ### The raw-frame buffer (20_memory.md R43) -/

/-- A push with room appends the byte. -/
theorem pushRaw_ok {b : Byte} (h : s.fsm.raw.length ≠ RAW_CAP) :
    pushRaw b s = .ok { s with fsm := { s.fsm with raw := s.fsm.raw ++ [b] } } := by simp [pushRaw, h]

/-- A push into a full buffer is the fault RAW_OVERFLOW. -/
theorem pushRaw_full {b : Byte} (h : s.fsm.raw.length = RAW_CAP) : pushRaw b s = .error .rawOverflow := by
  simp [pushRaw, h]

/-- A push that succeeds had room and appended the byte. -/
theorem pushRaw_cases {b : Byte} (h : pushRaw b s = .ok t) :
    s.fsm.raw.length ≠ RAW_CAP ∧ t = { s with fsm := { s.fsm with raw := s.fsm.raw ++ [b] } } := by
  unfold pushRaw at h
  split at h
  · cases h
  · next hr => exact ⟨hr, by cases h; rfl⟩

end Sys2Proof.Machine
end

