-- ==== Sys2Proof/Laws/FrameFsm.lean ====
section
/-! SUPPORT. What FSM_BYTE can do in each state of the frame machine (42_frame_fsm.md), and what it never changes
(20_memory.md R53). -/

namespace Sys2Proof.Machine

variable {s t : State} {b : Byte} {r : FsmResult}

/-- A change FSM_BYTE may make (R53, R117): its own state, the outputs, and the signs of BSYNC, kept or cleared. -/
def FsmFrame (s t : State) : Prop :=
  (t = { s with fsm := t.fsm, out := t.out } ∨
    t = { s with fsm := t.fsm, out := t.out, bsync := { s.bsync with sgI := .zero, sgQ := .zero } }) ∧
    t.out.result = s.out.result

theorem FsmFrame.link (h : FsmFrame s t) : t.link = s.link := by rcases h.1 with h | h <;> rw [h]

theorem FsmFrame.cond (h : FsmFrame s t) : t.cond = s.cond := by rcases h.1 with h | h <;> rw [h]

theorem FsmFrame.cfg (h : FsmFrame s t) : t.cfg = s.cfg := by rcases h.1 with h | h <;> rw [h]

theorem FsmFrame.par (h : FsmFrame s t) : t.par = s.par := by rcases h.1 with h | h <;> rw [h]

theorem FsmFrame.phase (h : FsmFrame s t) : t.phase = s.phase := by rcases h.1 with h | h <;> rw [h]

theorem FsmFrame.stream (h : FsmFrame s t) : t.stream = s.stream := by rcases h.1 with h | h <;> rw [h]

theorem FsmFrame.refl (s : State) : FsmFrame s s := ⟨.inl rfl, rfl⟩

theorem FsmFrame.trans {u : State} (h : FsmFrame s t) (h' : FsmFrame t u) : FsmFrame s u := by
  refine ⟨?_, h'.2.trans h.2⟩
  rcases h.1 with h | h <;> rcases h'.1 with h' | h' <;> rw [h'] <;> rw [h] <;> first | exact .inl rfl | exact .inr rfl

/-! ### The states -/

/-- HeadLost (R118): it counts the pre-key, or returns to the start of the count; it consumes one bit. -/
theorem fsmHeadLost_cases (h : fsmHeadLost b s = .ok (r, t)) :
    r = .consumed 1 ∧
      (b = PREKEY_BYTE ∧ s.fsm.consecutivePrekey + 1 ≤ PREKEY_MIN ∧
          t = setPrekey (s.fsm.consecutivePrekey + 1) s ∨
        b = PREKEY_BYTE ∧ PREKEY_MIN < s.fsm.consecutivePrekey + 1 ∧
          t = raiseEvent .headFound (setTag stHeadFound (setPrekey (s.fsm.consecutivePrekey + 1) s)) ∨
        b ≠ PREKEY_BYTE ∧ t = resetFrame s) := by
  simp only [fsmHeadLost] at h
  split at h
  · next hb =>
    split at h
    · next hn => cases h; exact ⟨rfl, .inr (.inl ⟨hb, hn, rfl⟩)⟩
    · next hn => cases h; exact ⟨rfl, .inl ⟨hb, by omega, rfl⟩⟩
  · next hb => cases h; exact ⟨rfl, .inr (.inr ⟨hb, rfl⟩)⟩

/-- The match of Sync empties the raw frame first, so its one byte always has room (R120). -/
theorem syncMatch_eq (s : State) :
    syncMatch s = .ok (raiseEvent .syncFound
      { s with fsm := { s.fsm with state := stText, raw := [oddByte chSOH] } }) := rfl

/-- One more bit of Sync (R120): a match, a timeout, or the next bit. -/
theorem syncScan_succ (b : Byte) (n : Nat) (s : State) :
    syncScan b (n + 1) s =
      if SYNC_BITS ≤ s.fsm.syncBitsHave + 1 ∧
          syncDistance (syncShift (b.getLsbD (7 - n)) s).fsm.syncForming ≤ SYNC_TOL then
        .ok (.consumed (7 - n + 1), raiseEvent .syncFound
          { syncShift (b.getLsbD (7 - n)) s with
            fsm := { (syncShift (b.getLsbD (7 - n)) s).fsm with state := stText, raw := [oddByte chSOH] } })
      else if SYNC_BITS ≤ s.fsm.syncBitsHave + 1 ∧ SYNC_MAX ≤ s.fsm.syncBitsHave + 1 then
        .ok (.consumed (7 - n + 1), raiseEvent .syncTimeout (goHeadLost (syncShift (b.getLsbD (7 - n)) s)))
      else syncScan b n (syncShift (b.getLsbD (7 - n)) s) := by
  simp only [syncScan, syncMatch_eq, syncShift_fsm]
  by_cases h1 : SYNC_BITS ≤ s.fsm.syncBitsHave + 1
  · simp only [h1, if_true, true_and]
    rfl
  · simp only [h1, if_false, false_and]

/-- The state after Sync has taken `k` more bits, which make the word `w`. -/
def syncTaken (w : Word40) (k : Nat) (s : State) : State :=
  { s with fsm := { s.fsm with syncForming := w, syncBitsHave := s.fsm.syncBitsHave + k } }

/-- What the last `n` bits of a byte do in Sync (R120): all are taken below the limit, or the `k`-th ends in Text, or
it ends in HeadLost at the limit; before it no limit was met. -/
theorem syncScan_cases {n : Nat} (hn : n ≤ 8) (h : syncScan b n s = .ok (r, t)) :
    (r = .consumed 8 ∧ (∃ w, t = syncTaken w n s) ∧
        (n = 0 ∨ s.fsm.syncBitsHave + n < SYNC_BITS ∨ s.fsm.syncBitsHave + n < SYNC_MAX)) ∨
      ∃ k w, 1 ≤ k ∧ k ≤ n ∧ r = .consumed (8 - n + k) ∧ SYNC_BITS ≤ s.fsm.syncBitsHave + k ∧
        (k = 1 ∨ s.fsm.syncBitsHave + k ≤ SYNC_MAX) ∧
        (t = raiseEvent .syncFound
            { syncTaken w k s with fsm := { (syncTaken w k s).fsm with state := stText, raw := [oddByte chSOH] } } ∨
          SYNC_MAX ≤ s.fsm.syncBitsHave + k ∧ t = raiseEvent .syncTimeout (goHeadLost (syncTaken w k s))) := by
  induction n generalizing s with
  | zero =>
    simp only [syncScan, Except.ok.injEq, Prod.mk.injEq] at h
    exact .inl ⟨h.1.symm, ⟨s.fsm.syncForming, h.2.symm⟩, .inl rfl⟩
  | succ n ih =>
    rw [syncScan_succ] at h
    have hr : FsmResult.consumed (7 - n + 1) = .consumed (8 - (n + 1) + 1) := by congr 1; omega
    split at h
    · next hm =>
      rw [hr] at h
      cases h
      exact .inr ⟨1, _, le_refl _, by omega, rfl, hm.1, .inl rfl, .inl rfl⟩
    · split at h
      · next hx =>
        rw [hr] at h
        cases h
        exact .inr ⟨1, _, le_refl _, by omega, rfl, hx.1, .inl rfl, .inr ⟨hx.2, rfl⟩⟩
      · next hx =>
        have hlim : s.fsm.syncBitsHave + 1 < SYNC_MAX := by
          have : SYNC_BITS ≤ SYNC_MAX := by decide
          omega
        have e1 : (syncShift (b.getLsbD (7 - n)) s).fsm.syncBitsHave = s.fsm.syncBitsHave + 1 := rfl
        have e2 : ∀ w k, syncTaken w k (syncShift (b.getLsbD (7 - n)) s) = syncTaken w (k + 1) s := by
          intro w k
          simp only [syncTaken, syncShift, Nat.add_assoc, Nat.add_comm 1 k]
        rcases ih (by omega) h with ⟨h1, ⟨w, h2⟩, h3⟩ | ⟨k, w, hk1, hk2, hk3, hk4, hk5, hk6⟩
        · rw [e1] at h3
          refine .inl ⟨h1, ⟨w, by rw [h2, e2]⟩, .inr ?_⟩
          omega
        · rw [e1] at hk4 hk5 hk6
          rw [e2] at hk6
          refine .inr ⟨k + 1, w, by omega, by omega, by rw [hk3]; congr 1; omega, by omega, .inr (by omega), ?_⟩
          rcases hk6 with h6 | ⟨h6, h7⟩
          · exact .inl h6
          · exact .inr ⟨by omega, h7⟩

/-- HeadFound (R119): a pre-key byte changes nothing; any other byte is taken by Sync with cleared registers. -/
theorem fsmHeadFound_cases (h : fsmHeadFound b s = .ok (r, t)) :
    b = PREKEY_BYTE ∧ r = .consumed 1 ∧ t = s ∨ b ≠ PREKEY_BYTE ∧ fsmSync b (enterSync s) = .ok (r, t) := by
  unfold fsmHeadFound at h
  split at h
  · next hb => cases h; exact .inl ⟨hb, rfl, rfl⟩
  · next hb => exact .inr ⟨hb, h⟩

/-- A new byte of the raw frame. -/
def pushed (b : Byte) (s : State) : State := { s with fsm := { s.fsm with raw := s.fsm.raw ++ [b] } }

/-- Text (R121): the byte is appended, then the overflow test, then the terminator test. -/
theorem fsmText_cases (h : fsmText b s = .ok (r, t)) :
    s.fsm.raw.length ≠ RAW_CAP ∧ r = .consumed 8 ∧
      (MAXBLK < s.fsm.raw.length ∧ t = raiseEvent .textOverflow (goHeadLost (pushed b s)) ∨
        s.fsm.raw.length ≤ MAXBLK ∧ isTerminator b = true ∧ t = setTag stCrc1 (pushed b s) ∨
        s.fsm.raw.length ≤ MAXBLK ∧ isTerminator b = false ∧ t = pushed b s) := by
  simp only [fsmText] at h
  by_cases hr : s.fsm.raw.length = RAW_CAP
  · rw [pushRaw_full hr] at h
    cases h
  · rw [pushRaw_ok hr] at h
    simp only [Except.bind, bind, List.length_append, List.length_singleton, Nat.add_sub_cancel] at h
    refine ⟨hr, ?_⟩
    split at h
    · next ho => cases h; exact ⟨rfl, .inl ⟨ho, rfl⟩⟩
    · next ho =>
      split at h
      · next ht => cases h; exact ⟨rfl, .inr (.inl ⟨by omega, ht, rfl⟩)⟩
      · next ht => cases h; exact ⟨rfl, .inr (.inr ⟨by omega, by simpa using ht, rfl⟩)⟩

/-- Crc1 (R122). -/
theorem fsmCrc1_cases (h : fsmCrc1 b s = .ok (r, t)) :
    s.fsm.raw.length ≠ RAW_CAP ∧ r = .consumed 8 ∧ t = setTag stCrc2 (pushed b s) := by
  simp only [fsmCrc1] at h
  by_cases hr : s.fsm.raw.length = RAW_CAP
  · rw [pushRaw_full hr] at h
    cases h
  · rw [pushRaw_ok hr] at h
    cases h
    exact ⟨hr, rfl, rfl⟩

/-- Crc2 (R123). -/
theorem fsmCrc2_cases (h : fsmCrc2 b s = .ok (r, t)) :
    s.fsm.raw.length ≠ RAW_CAP ∧ r = .consumed 8 ∧ t = setTag stEnd (pushed b s) := by
  simp only [fsmCrc2] at h
  by_cases hr : s.fsm.raw.length = RAW_CAP
  · rw [pushRaw_full hr] at h
    cases h
  · rw [pushRaw_ok hr] at h
    cases h
    exact ⟨hr, rfl, rfl⟩

/-- End (R124): accepted, accepted after a correction, or dropped. -/
theorem fsmEnd_cases (h : fsmEnd b s = .ok (r, t)) :
    crcGen s.fsm.raw = 0#16 ∧ r = .accepted ∧ t = acceptFrame s.fsm.raw false (setCrcErr false s) ∨
      crcGen s.fsm.raw ≠ 0#16 ∧
        ((∃ bytes, firstCorrection s.fsm.raw = some bytes ∧ r = .accepted ∧
            t = acceptFrame bytes true (setCrcErr true s)) ∨
          firstCorrection s.fsm.raw = none ∧ r = .consumed 8 ∧
            t = goHeadLost (raiseEvent .crcFail (setCrcErr true s))) := by
  unfold fsmEnd at h
  split at h
  · next hc => cases h; exact .inl ⟨hc, rfl, rfl⟩
  · next hc =>
    split at h
    · next bytes hb => cases h; exact .inr ⟨hc, .inl ⟨bytes, hb, rfl, rfl⟩⟩
    · next hb => cases h; exact .inr ⟨hc, .inr ⟨hb, rfl, rfl⟩⟩

/-! ### FSM_BYTE -/

/-- FSM_BYTE runs the rule of the current state; state 7 has none (R116). -/
theorem fsmByte_cases (h : fsmByte b s = .ok (r, t)) :
    s.fsm.state = stHeadLost ∧ fsmHeadLost b s = .ok (r, t) ∨
      s.fsm.state = stHeadFound ∧ fsmHeadFound b s = .ok (r, t) ∨
      s.fsm.state = stSync ∧ fsmSync b s = .ok (r, t) ∨ s.fsm.state = stText ∧ fsmText b s = .ok (r, t) ∨
      s.fsm.state = stCrc1 ∧ fsmCrc1 b s = .ok (r, t) ∨ s.fsm.state = stCrc2 ∧ fsmCrc2 b s = .ok (r, t) ∨
      s.fsm.state = stEnd ∧ fsmEnd b s = .ok (r, t) := by
  have hs : s.fsm.state = 0#3 ∨ s.fsm.state = 1#3 ∨ s.fsm.state = 2#3 ∨ s.fsm.state = 3#3 ∨ s.fsm.state = 4#3 ∨
      s.fsm.state = 5#3 ∨ s.fsm.state = 6#3 ∨ s.fsm.state = 7#3 := by
    generalize s.fsm.state = v
    revert v
    decide
  unfold fsmByte at h
  rcases hs with hs | hs | hs | hs | hs | hs | hs | hs <;> simp only [hs] at h
  · exact .inl ⟨hs, h⟩
  · exact .inr (.inl ⟨hs, h⟩)
  · exact .inr (.inr (.inl ⟨hs, h⟩))
  · exact .inr (.inr (.inr (.inl ⟨hs, h⟩)))
  · exact .inr (.inr (.inr (.inr (.inl ⟨hs, h⟩))))
  · exact .inr (.inr (.inr (.inr (.inr (.inl ⟨hs, h⟩)))))
  · exact .inr (.inr (.inr (.inr (.inr (.inr ⟨hs, h⟩)))))
  · cases h

/-- The bits an FSM_BYTE consumes (R116): 1 to 8, unless it accepts a frame. -/
def FsmResult.inRange : FsmResult → Prop
  | .accepted => True
  | .consumed n => 1 ≤ n ∧ n ≤ 8

theorem consumed_inRange {n : Nat} (h1 : 1 ≤ n) (h2 : n ≤ 8) : (FsmResult.consumed n).inRange := ⟨h1, h2⟩

theorem acceptFrame_frame (bytes : List Byte) (c v : Bool) (s : State) :
    FsmFrame s (acceptFrame bytes c (setCrcErr v s)) := by
  refine ⟨.inr ?_, by simp⟩
  simp only [acceptFrame, goHeadLost, resetFrame, clearRaw, setPrekey, clearSigns, setTag, raiseEvent, emitFrame,
    setCrcErr]

theorem dropFrame_frame (v : Bool) (s : State) : FsmFrame s (goHeadLost (raiseEvent .crcFail (setCrcErr v s))) :=
  ⟨.inr rfl, rfl⟩

theorem fsmSync_frame (h : fsmSync b s = .ok (r, t)) : FsmFrame s t ∧ r.inRange := by
  rcases syncScan_cases (le_refl 8) h with ⟨h1, ⟨w, h2⟩, -⟩ | ⟨k, w, hk1, hk2, hk3, -, -, hk6⟩
  · subst h1 h2
    exact ⟨⟨.inl rfl, rfl⟩, consumed_inRange (by decide) (by decide)⟩
  · subst hk3
    refine ⟨?_, consumed_inRange (by omega) (by omega)⟩
    rcases hk6 with h6 | ⟨-, h6⟩ <;> subst h6
    · exact ⟨.inl rfl, rfl⟩
    · exact ⟨.inr rfl, rfl⟩

/-- What FSM_BYTE never changes, and the range of its result (R53, R116). -/
theorem fsmByte_frame (h : fsmByte b s = .ok (r, t)) : FsmFrame s t ∧ r.inRange := by
  rcases fsmByte_cases h with ⟨-, h⟩ | ⟨-, h⟩ | ⟨-, h⟩ | ⟨-, h⟩ | ⟨-, h⟩ | ⟨-, h⟩ | ⟨-, h⟩
  · rcases fsmHeadLost_cases h with ⟨rfl, ⟨-, -, rfl⟩ | ⟨-, -, rfl⟩ | ⟨-, rfl⟩⟩
    · exact ⟨⟨.inl rfl, rfl⟩, consumed_inRange (by decide) (by decide)⟩
    · exact ⟨⟨.inl rfl, rfl⟩, consumed_inRange (by decide) (by decide)⟩
    · exact ⟨⟨.inr rfl, rfl⟩, consumed_inRange (by decide) (by decide)⟩
  · rcases fsmHeadFound_cases h with ⟨-, rfl, rfl⟩ | ⟨-, h⟩
    · exact ⟨FsmFrame.refl _, consumed_inRange (by decide) (by decide)⟩
    · have hs := fsmSync_frame h
      exact ⟨FsmFrame.trans ⟨.inl rfl, rfl⟩ hs.1, hs.2⟩
  · exact fsmSync_frame h
  · rcases fsmText_cases h with ⟨-, rfl, ⟨-, rfl⟩ | ⟨-, -, rfl⟩ | ⟨-, -, rfl⟩⟩
    · exact ⟨⟨.inr rfl, rfl⟩, consumed_inRange (by decide) (by decide)⟩
    · exact ⟨⟨.inl rfl, rfl⟩, consumed_inRange (by decide) (by decide)⟩
    · exact ⟨⟨.inl rfl, rfl⟩, consumed_inRange (by decide) (by decide)⟩
  · obtain ⟨-, rfl, rfl⟩ := fsmCrc1_cases h
    exact ⟨⟨.inl rfl, rfl⟩, consumed_inRange (by decide) (by decide)⟩
  · obtain ⟨-, rfl, rfl⟩ := fsmCrc2_cases h
    exact ⟨⟨.inl rfl, rfl⟩, consumed_inRange (by decide) (by decide)⟩
  · rcases fsmEnd_cases h with ⟨-, h1, h2⟩ | ⟨-, ⟨bytes, -, h1, h2⟩ | ⟨-, h1, h2⟩⟩ <;> rw [h1, h2]
    · exact ⟨acceptFrame_frame _ _ _ _, trivial⟩
    · exact ⟨acceptFrame_frame _ _ _ _, trivial⟩
    · exact ⟨dropFrame_frame _ _, consumed_inRange (by decide) (by decide)⟩

end Sys2Proof.Machine
end

