-- ==== Sys2Proof/Laws/Link.lean ====
section
/-! SUPPORT. What LINK can do (41_bitsync.md R113), and what it never changes. -/

namespace Sys2Proof.Machine

variable {s t : State} {bit : Bool}

/-- The state in which LINK calls FSM_BYTE (R113): the bit is in. -/
def bitTaken (bit : Bool) (s : State) : State := { s with link := shiftBit bit s.link }

/-- LINK with fewer than 7 bits held only takes the bit (R113). -/
theorem linkBit_short (h : s.link.nbits < 7) : linkBit bit s = .ok (bitTaken bit s) := by
  have h8 : ¬8 ≤ s.link.nbits + 1 := by omega
  exact if_neg h8

/-- LINK with 7 or more bits held calls FSM_BYTE on the shift register (R113). -/
theorem linkBit_call (h : 7 ≤ s.link.nbits) :
    linkBit bit s =
      (fsmByte (shiftBit bit s.link).outbits (bitTaken bit s)).map fun p => linkAfter p.1 p.2 := by
  have h8 : 8 ≤ s.link.nbits + 1 := by omega
  exact if_pos h8

/-- What LINK can do: take the bit, or take it and pass a byte on. -/
theorem linkBit_cases (h : linkBit bit s = .ok t) :
    s.link.nbits < 7 ∧ t = bitTaken bit s ∨
      7 ≤ s.link.nbits ∧ ∃ r u, fsmByte (shiftBit bit s.link).outbits (bitTaken bit s) = .ok (r, u) ∧ t = linkAfter r u := by
  by_cases hn : s.link.nbits < 7
  · rw [linkBit_short hn] at h
    cases h
    exact .inl ⟨hn, rfl⟩
  · rw [linkBit_call (by omega)] at h
    cases hf : fsmByte (shiftBit bit s.link).outbits (bitTaken bit s) with
    | error f => rw [hf] at h; cases h
    | ok p =>
      rw [hf] at h
      cases h
      exact .inr ⟨by omega, p.1, p.2, rfl, rfl⟩

/-- LINK changes only its own state, the frame machine's, the outputs, and the signs of BSYNC, kept or cleared. -/
theorem linkBit_frame (h : linkBit bit s = .ok t) :
    (t = { s with link := t.link, fsm := t.fsm, out := t.out } ∨
      t = { s with
        link := t.link, fsm := t.fsm, out := t.out
        bsync := { s.bsync with sgI := .zero, sgQ := .zero } }) ∧
      t.out.result = s.out.result := by
  rcases linkBit_cases h with ⟨-, rfl⟩ | ⟨-, r, u, hf, rfl⟩
  · exact ⟨.inl rfl, rfl⟩
  · have hu := (fsmByte_frame hf).1
    cases r <;> simp only [linkAfter] <;> (refine ⟨?_, hu.2⟩) <;> rcases hu.1 with hu | hu <;> rw [hu] <;>
      first | exact .inl rfl | exact .inr rfl

/-- After LINK fewer than 8 bits are held, when fewer were held before (R32). -/
theorem linkBit_nbits (hn : s.link.nbits < 8) (h : linkBit bit s = .ok t) : t.link.nbits < 8 := by
  rcases linkBit_cases h with ⟨h7, rfl⟩ | ⟨-, r, u, hf, rfl⟩
  · simp only [bitTaken, shiftBit]
    omega
  · obtain ⟨hu, hr⟩ := fsmByte_frame hf
    cases r with
    | accepted => simp [linkAfter]
    | consumed n =>
      have hl : u.link.nbits = s.link.nbits + 1 := by rw [hu.link]; rfl
      simp only [FsmResult.inRange] at hr
      simp only [linkAfter]
      omega

end Sys2Proof.Machine
end

