-- ==== Sys2Proof/Laws/Numeric.lean ====
section
/-! SUPPORT. The arithmetic of Machine/Numeric.lean: one rounding lies between the representable numbers that enclose
the exact result, an operation on numbers that are no NaN has the sign and the size its exact result has, and the
order of magnitudes is the order of values. -/

namespace Sys2Proof

theorem pow2_eq (n : Nat) : pow2 n = 2 ^ n := by
  have h : (2 ^ 255 * 2 : Nat) = 2 ^ 256 := by norm_num
  rw [pow2, h, ← pow_mul, ← pow_add, Nat.mod_add_div]

theorem oneUnits_pos : 0 < oneUnits := by rw [oneUnits, pow2_eq]; positivity

/-! ### Sign and magnitude -/

theorem mag_lt (x : Real64) : x.mag < 2 ^ 63 := Nat.mod_lt _ (by positivity)

theorem mag_ofMag {neg : Bool} {m : Nat} (h : m < 2 ^ 63) : (Real64.ofMag neg m).mag = m := by
  cases neg <;> simp [Real64.ofMag, Real64.mag, BitVec.toNat_ofNat] <;> omega

theorem negative_ofMag {neg : Bool} {m : Nat} (h : m < 2 ^ 63) : (Real64.ofMag neg m).negative = neg := by
  cases neg <;> simp [Real64.ofMag, Real64.negative, BitVec.toNat_ofNat] <;> omega

theorem infMag_lt : infMag < 2 ^ 63 := by decide

/-- A value is its sign and its magnitude. -/
theorem ofMag_eta (x : Real64) : Real64.ofMag x.negative x.mag = x := by
  obtain ⟨b⟩ := x
  have hb := b.isLt
  have : (if (Real64.mk b).negative = true then 2 ^ 63 + (Real64.mk b).mag else (Real64.mk b).mag) = b.toNat := by
    simp only [Real64.negative, Real64.mag, decide_eq_true_eq]
    split <;> omega
  rw [Real64.ofMag, this, BitVec.ofNat_toNat, BitVec.setWidth_eq]

/-! ### Rounding -/

theorem nearestEven_le {num step n : Nat} (hs : 0 < step) (h : num ≤ n * step) : nearestEven num step ≤ n := by
  have hd := Nat.div_add_mod num step
  have hm := Nat.mod_lt num hs
  have hq : num / step ≤ n := Nat.div_le_of_le_mul (by rwa [Nat.mul_comm] at h)
  rcases Nat.lt_or_ge (num / step) n with hlt | hge
  · have := Nat.mod_lt (num / step) (show 0 < 2 by omega)
    unfold nearestEven; simp only; split_ifs <;> omega
  · have he : num / step = n := le_antisymm hq hge
    have hr : num % step = 0 := by
      rw [he, Nat.mul_comm] at hd; omega
    unfold nearestEven
    simp only [hr, he]
    split_ifs <;> omega

theorem le_nearestEven {num step n : Nat} (hs : 0 < step) (h : n * step ≤ num) : n ≤ nearestEven num step := by
  have hq : n ≤ num / step := (Nat.le_div_iff_mul_le hs).2 h
  unfold nearestEven; simp only; split_ifs <;> omega

theorem unitsOfMag_small {m : Nat} (h : m < 2 ^ 53) : unitsOfMag m = m := by
  unfold unitsOfMag
  split_ifs with h0
  · omega
  · have h1 : m / 2 ^ 52 = 1 := by omega
    rw [h1, pow2_eq]; omega

theorem unitsOfMag_large {e f : Nat} (hf : f < 2 ^ 52) : unitsOfMag ((e + 1) * 2 ^ 52 + f) = (f + 2 ^ 52) * 2 ^ e := by
  have h1 : ((e + 1) * 2 ^ 52 + f) / 2 ^ 52 = e + 1 := by omega
  have h2 : ((e + 1) * 2 ^ 52 + f) % 2 ^ 52 = f := by omega
  unfold unitsOfMag
  rw [h1, h2, if_neg (by omega), pow2_eq, Nat.add_sub_cancel]

theorem unitsOfMag_lt_pow {m e : Nat} (h : m < (e + 1) * 2 ^ 52) : unitsOfMag m < 2 ^ (52 + e) := by
  rcases Nat.lt_or_ge m (2 ^ 52) with hs | hl
  · rw [unitsOfMag_small (by omega)]
    exact lt_of_lt_of_le hs (Nat.pow_le_pow_right (by omega) (by omega))
  · obtain ⟨k, f, hf, rfl⟩ : ∃ k f, f < 2 ^ 52 ∧ m = (k + 1) * 2 ^ 52 + f :=
      ⟨m / 2 ^ 52 - 1, m % 2 ^ 52, Nat.mod_lt _ (by positivity), by omega⟩
    rw [unitsOfMag_large hf]
    have hk : k + 1 ≤ e := by omega
    calc (f + 2 ^ 52) * 2 ^ k < 2 ^ 53 * 2 ^ k := by
          apply Nat.mul_lt_mul_of_pos_right (by omega) (by positivity)
      _ = 2 ^ (52 + (k + 1)) := by rw [← pow_add]; congr 1; omega
      _ ≤ 2 ^ (52 + e) := Nat.pow_le_pow_right (by omega) (by omega)

theorem pow_le_unitsOfMag {m e : Nat} (h : (e + 1) * 2 ^ 52 ≤ m) : 2 ^ (52 + e) ≤ unitsOfMag m := by
  obtain ⟨k, f, hf, rfl⟩ : ∃ k f, f < 2 ^ 52 ∧ m = (k + 1) * 2 ^ 52 + f :=
    ⟨m / 2 ^ 52 - 1, m % 2 ^ 52, Nat.mod_lt _ (by positivity), by omega⟩
  rw [unitsOfMag_large hf]
  calc 2 ^ (52 + e) ≤ 2 ^ (52 + k) := Nat.pow_le_pow_right (by omega) (by omega)
    _ = 2 ^ 52 * 2 ^ k := pow_add ..
    _ ≤ (f + 2 ^ 52) * 2 ^ k := Nat.mul_le_mul_right _ (by omega)

/-- The count of steps a rounding keeps, before infinity is cut off. -/
def roundSteps (num den : Nat) : Nat :=
  ((num / den).log2 - 52) * 2 ^ 52 + nearestEven num (den * pow2 ((num / den).log2 - 52))

theorem roundUnits_eq (num den : Nat) : roundUnits num den = min infMag (roundSteps num den) := by
  unfold roundUnits roundSteps
  simp only
  split_ifs with h
  · exact (min_eq_left h).symm
  · exact (min_eq_right (by omega)).symm

theorem roundSteps_le {num den m : Nat} (hd : 0 < den) (h : num ≤ unitsOfMag m * den) : roundSteps num den ≤ m := by
  have hq : num / den ≤ unitsOfMag m := Nat.div_le_of_le_mul (by rwa [Nat.mul_comm] at h)
  unfold roundSteps
  rcases Nat.lt_or_ge (num / den).log2 53 with hs | hl
  · have h0 : (num / den).log2 - 52 = 0 := by omega
    have hq53 : num / den < 2 ^ 53 := Nat.lt_log2_self.trans_le (Nat.pow_le_pow_right (by omega) (by omega))
    rw [h0, pow2_eq, pow_zero, mul_one, zero_mul, zero_add]
    rcases Nat.lt_or_ge m (2 ^ 53) with hm | hm
    · rw [unitsOfMag_small hm] at h
      exact nearestEven_le hd h
    · refine (nearestEven_le (n := 2 ^ 53) hd ?_).trans hm
      have := Nat.lt_mul_div_succ num hd
      calc num ≤ den * (num / den + 1) := this.le
        _ ≤ den * 2 ^ 53 := Nat.mul_le_mul_left _ hq53
        _ = 2 ^ 53 * den := Nat.mul_comm ..
  · obtain ⟨k, hk⟩ : ∃ k, (num / den).log2 = 53 + k := ⟨_, (Nat.add_sub_of_le hl).symm⟩
    have hne : num / den ≠ 0 := by
      intro h0; rw [h0] at hk; simp at hk; omega
    have hlow : 2 ^ (53 + k) ≤ num / den := by rw [← hk]; exact Nat.log2_self_le hne
    have hhigh : num / den < 2 ^ (54 + k) := by
      have := Nat.lt_log2_self (n := num / den)
      rw [hk] at this
      exact this.trans_le (Nat.pow_le_pow_right (by omega) (by omega))
    have hm : (k + 2) * 2 ^ 52 ≤ m := by
      by_contra hc
      have := unitsOfMag_lt_pow (m := m) (e := k + 1) (by omega)
      have h2 : (2 : Nat) ^ (52 + (k + 1)) = 2 ^ (53 + k) := by congr 1; omega
      omega
    have hsh : (num / den).log2 - 52 = k + 1 := by omega
    rw [hsh, pow2_eq]
    have hstep : 0 < den * 2 ^ (k + 1) := by positivity
    rcases Nat.lt_or_ge m ((k + 3) * 2 ^ 52) with hm2 | hm2
    · obtain ⟨f, hf, rfl⟩ : ∃ f, f < 2 ^ 52 ∧ m = (k + 1 + 1) * 2 ^ 52 + f :=
        ⟨m - (k + 2) * 2 ^ 52, by omega, by omega⟩
      rw [unitsOfMag_large hf] at h
      have := nearestEven_le (n := f + 2 ^ 52) hstep (by
        calc num ≤ (f + 2 ^ 52) * 2 ^ (k + 1) * den := h
          _ = (f + 2 ^ 52) * (den * 2 ^ (k + 1)) := by ring)
      linarith
    · have := nearestEven_le (num := num) (n := 2 ^ 53) hstep (by
        have h1 := Nat.lt_mul_div_succ num hd
        calc num ≤ den * (num / den + 1) := h1.le
          _ ≤ den * 2 ^ (54 + k) := Nat.mul_le_mul_left _ hhigh
          _ = 2 ^ 53 * (den * 2 ^ (k + 1)) := by
            rw [show 54 + k = 53 + (k + 1) by omega, pow_add]; ring)
      linarith

theorem le_roundSteps {num den m : Nat} (hd : 0 < den) (h : unitsOfMag m * den ≤ num) : m ≤ roundSteps num den := by
  have hq : unitsOfMag m ≤ num / den := (Nat.le_div_iff_mul_le hd).2 h
  unfold roundSteps
  rcases Nat.lt_or_ge (num / den).log2 53 with hs | hl
  · have h0 : (num / den).log2 - 52 = 0 := by omega
    have hq53 : num / den < 2 ^ 53 := Nat.lt_log2_self.trans_le (Nat.pow_le_pow_right (by omega) (by omega))
    have hm : m < 2 ^ 53 := by
      by_contra hc
      have h53 : 2 ^ (52 + 1) ≤ unitsOfMag m := pow_le_unitsOfMag (by omega)
      omega
    rw [unitsOfMag_small hm] at h
    rw [h0, pow2_eq, pow_zero, mul_one, zero_mul, zero_add]
    exact le_nearestEven hd h
  · obtain ⟨k, hk⟩ : ∃ k, (num / den).log2 = 53 + k := ⟨_, (Nat.add_sub_of_le hl).symm⟩
    have hhigh : num / den < 2 ^ (54 + k) := by
      have := Nat.lt_log2_self (n := num / den)
      rw [hk] at this
      exact this.trans_le (Nat.pow_le_pow_right (by omega) (by omega))
    have hne : num / den ≠ 0 := by
      intro h0; rw [h0] at hk; simp at hk; omega
    have hlow : 2 ^ (53 + k) ≤ num / den := by rw [← hk]; exact Nat.log2_self_le hne
    have hm : m < (k + 3) * 2 ^ 52 := by
      by_contra hc
      have := pow_le_unitsOfMag (m := m) (e := k + 2) (by omega)
      have h2 : (2 : Nat) ^ (52 + (k + 2)) = 2 ^ (54 + k) := by congr 1; omega
      omega
    have hsh : (num / den).log2 - 52 = k + 1 := by omega
    rw [hsh, pow2_eq]
    have hstep : 0 < den * 2 ^ (k + 1) := by positivity
    rcases Nat.lt_or_ge m ((k + 2) * 2 ^ 52) with hm2 | hm2
    · have := le_nearestEven (num := num) (n := 2 ^ 52) hstep (by
        calc 2 ^ 52 * (den * 2 ^ (k + 1)) = 2 ^ (53 + k) * den := by
              rw [show 53 + k = 52 + (k + 1) by omega, pow_add]; ring
          _ ≤ num / den * den := Nat.mul_le_mul_right _ hlow
          _ ≤ num := Nat.div_mul_le_self ..)
      linarith
    · obtain ⟨f, hf, rfl⟩ : ∃ f, f < 2 ^ 52 ∧ m = (k + 1 + 1) * 2 ^ 52 + f :=
        ⟨m - (k + 2) * 2 ^ 52, by omega, by omega⟩
      rw [unitsOfMag_large hf] at h
      have := le_nearestEven (n := f + 2 ^ 52) hstep (by
        calc (f + 2 ^ 52) * (den * 2 ^ (k + 1)) = (f + 2 ^ 52) * 2 ^ (k + 1) * den := by ring
          _ ≤ num := h)
      linarith

/-- A rounded result is at most every representable number the exact result is at most. -/
theorem roundUnits_le {num den m : Nat} (hd : 0 < den) (h : num ≤ unitsOfMag m * den) : roundUnits num den ≤ m := by
  rw [roundUnits_eq]; exact (min_le_right _ _).trans (roundSteps_le hd h)

/-- A rounded result is at least every representable number the exact result is at least. -/
theorem le_roundUnits {num den m : Nat} (hd : 0 < den) (hm : m ≤ infMag) (h : unitsOfMag m * den ≤ num) :
    m ≤ roundUnits num den := by
  rw [roundUnits_eq]; exact le_min hm (le_roundSteps hd h)

theorem roundUnits_le_infMag (num den : Nat) : roundUnits num den ≤ infMag := by
  rw [roundUnits_eq]; exact min_le_left _ _

theorem roundUnits_lt (num den : Nat) : roundUnits num den < 2 ^ 63 :=
  (roundUnits_le_infMag num den).trans_lt infMag_lt

/-- A representable result is not changed by rounding. -/
theorem roundUnits_exact {m den : Nat} (hd : 0 < den) (hm : m ≤ infMag) : roundUnits (unitsOfMag m * den) den = m :=
  le_antisymm (roundUnits_le hd le_rfl) (le_roundUnits hd hm le_rfl)

theorem roundUnits_unit {m : Nat} (hm : m ≤ infMag) : roundUnits (unitsOfMag m) 1 = m := by
  simpa using roundUnits_exact (m := m) (den := 1) one_pos hm

theorem unitsOfMag_zero : unitsOfMag 0 = 0 := by decide

theorem roundUnits_zero (den : Nat) : roundUnits 0 den = 0 := by
  rcases Nat.eq_zero_or_pos den with rfl | hd
  · rfl
  · simpa [unitsOfMag_zero] using roundUnits_exact (m := 0) hd (Nat.zero_le _)

/-- The order of magnitudes is the order of values. -/
theorem unitsOfMag_lt {m n : Nat} (hn : n ≤ infMag) (h : m < n) : unitsOfMag m < unitsOfMag n := by
  by_contra hc
  have := roundUnits_le (num := unitsOfMag n) (den := 1) (m := m) one_pos (by omega)
  rw [roundUnits_unit hn] at this
  omega

theorem unitsOfMag_le {m n : Nat} (hn : n ≤ infMag) (h : m ≤ n) : unitsOfMag m ≤ unitsOfMag n := by
  rcases Nat.lt_or_eq_of_le h with h | rfl
  · exact (unitsOfMag_lt hn h).le
  · exact le_rfl

theorem units_pos {x : Real64} (hx : x.isFinite = true) (h : x.isZero = false) : 0 < x.units := by
  simp only [Real64.isFinite, Real64.isZero, decide_eq_true_eq, decide_eq_false_iff_not] at hx h
  have := unitsOfMag_lt (m := 0) (n := x.mag) hx.le (by omega)
  rwa [unitsOfMag_zero] at this

/-! ### The classes of values -/

theorem isFinite_not_nan {x : Real64} (h : x.isFinite = true) : x.isNaN = false := by
  simp only [Real64.isFinite, Real64.isNaN, decide_eq_true_eq, decide_eq_false_iff_not] at h ⊢; omega

theorem isFinite_not_inf {x : Real64} (h : x.isFinite = true) : x.isInf = false := by
  simp only [Real64.isFinite, Real64.isInf, decide_eq_true_eq, decide_eq_false_iff_not] at h ⊢; omega

theorem ofMag_not_nan {neg : Bool} {m : Nat} (h : m ≤ infMag) : (Real64.ofMag neg m).isNaN = false := by
  have h63 : m < 2 ^ 63 := h.trans_lt infMag_lt
  simp only [Real64.isNaN, mag_ofMag h63, decide_eq_false_iff_not]; omega

theorem ofInt_not_nan (n : Int) : (Real64.ofInt n).isNaN = false := by
  unfold Real64.ofInt
  split
  · rfl
  · exact ofMag_not_nan (roundUnits_le_infMag _ _)

/-! ### Each operation on finite values: no NaN, and no larger than a bound its exact result keeps -/

theorem add_of_finite {x y : Real64} (hx : x.isFinite = true) (hy : y.isFinite = true) :
    x.add y = Real64.addFinite x y := by
  simp [Real64.add, isFinite_not_nan hx, isFinite_not_nan hy, isFinite_not_inf hx, isFinite_not_inf hy]

theorem add_finite_not_nan {x y : Real64} (hx : x.isFinite = true) (hy : y.isFinite = true) :
    (x.add y).isNaN = false := by
  rw [add_of_finite hx hy]
  unfold Real64.addFinite
  simp only
  split
  · exact ofMag_not_nan (Nat.zero_le _)
  · exact ofMag_not_nan (roundUnits_le_infMag _ _)

theorem value_natAbs (x : Real64) : x.value.natAbs = x.units := by
  unfold Real64.value; split <;> simp

theorem add_mag_le {x y : Real64} {m : Nat} (hx : x.isFinite = true) (hy : y.isFinite = true)
    (h : x.units + y.units ≤ unitsOfMag m) : (x.add y).mag ≤ m := by
  rw [add_of_finite hx hy]
  unfold Real64.addFinite
  simp only
  split
  · rw [mag_ofMag (by omega)]; omega
  · rw [mag_ofMag (roundUnits_lt _ _)]
    apply roundUnits_le one_pos
    have h1 := Int.natAbs_add_le x.value y.value
    rw [value_natAbs, value_natAbs] at h1
    omega

theorem mag_neg (x : Real64) : x.neg.mag = x.mag := mag_ofMag (mag_lt x)

theorem units_neg (x : Real64) : x.neg.units = x.units := by rw [Real64.units, mag_neg, Real64.units]

theorem neg_isFinite (x : Real64) : x.neg.isFinite = x.isFinite := by rw [Real64.isFinite, mag_neg, Real64.isFinite]

theorem neg_isNaN (x : Real64) : x.neg.isNaN = x.isNaN := by rw [Real64.isNaN, mag_neg, Real64.isNaN]

theorem sub_mag_le {x y : Real64} {m : Nat} (hx : x.isFinite = true) (hy : y.isFinite = true)
    (h : x.units + y.units ≤ unitsOfMag m) : (x.sub y).mag ≤ m :=
  add_mag_le hx (by rwa [neg_isFinite]) (by rwa [units_neg])

theorem sub_finite_not_nan {x y : Real64} (hx : x.isFinite = true) (hy : y.isFinite = true) :
    (x.sub y).isNaN = false := add_finite_not_nan hx (by rwa [neg_isFinite])

theorem mul_of_finite {x y : Real64} (hx : x.isFinite = true) (hy : y.isFinite = true) :
    x.mul y = Real64.ofMag (x.negative != y.negative) (roundUnits (x.units * y.units) oneUnits) := by
  simp [Real64.mul, isFinite_not_nan hx, isFinite_not_nan hy, isFinite_not_inf hx, isFinite_not_inf hy]

theorem mul_finite_not_nan {x y : Real64} (hx : x.isFinite = true) (hy : y.isFinite = true) :
    (x.mul y).isNaN = false := by
  rw [mul_of_finite hx hy]; exact ofMag_not_nan (roundUnits_le_infMag _ _)

theorem mul_mag_le {x y : Real64} {m : Nat} (hx : x.isFinite = true) (hy : y.isFinite = true)
    (h : x.units * y.units ≤ unitsOfMag m * oneUnits) : (x.mul y).mag ≤ m := by
  rw [mul_of_finite hx hy, mag_ofMag (roundUnits_lt _ _)]
  exact roundUnits_le oneUnits_pos h

theorem div_of_finite {x y : Real64} (hx : x.isFinite = true) (hy : y.isFinite = true) (h0 : y.isZero = false) :
    x.div y = Real64.ofMag (x.negative != y.negative) (roundUnits (x.units * oneUnits) y.units) := by
  simp [Real64.div, isFinite_not_nan hx, isFinite_not_nan hy, isFinite_not_inf hx, isFinite_not_inf hy, h0]

theorem div_mag_le {x y : Real64} {m : Nat} (hx : x.isFinite = true) (hy : y.isFinite = true) (h0 : y.isZero = false)
    (h : x.units * oneUnits ≤ unitsOfMag m * y.units) : (x.div y).mag ≤ m := by
  rw [div_of_finite hx hy h0, mag_ofMag (roundUnits_lt _ _)]
  exact roundUnits_le (units_pos hy h0) h

/-- A magnitude below infinity's is a finite value. -/
theorem isFinite_of_mag_le {x : Real64} {m : Nat} (h : x.mag ≤ m) (hm : m < infMag) : x.isFinite = true := by
  simp only [Real64.isFinite, decide_eq_true_eq]; omega

/-! ### Order -/

theorem le_iff {x y : Real64} :
    Real64.le x y = true ↔ x.isNaN = false ∧ y.isNaN = false ∧ x.key ≤ y.key := by
  simp [Real64.le, and_assoc]

theorem lt_iff {x y : Real64} :
    Real64.lt x y = true ↔ x.isNaN = false ∧ y.isNaN = false ∧ x.key < y.key := by
  simp [Real64.lt, and_assoc]

/-- A clamped number lies in its bounds. -/
theorem clamp_bounds {x lo hi : Real64} (hx : x.isNaN = false) (hl : lo.isNaN = false) (hh : hi.isNaN = false)
    (h : lo.key ≤ hi.key) :
    Real64.le lo (Real64.clamp x lo hi) = true ∧ Real64.le (Real64.clamp x lo hi) hi = true := by
  unfold Real64.clamp Real64.min Real64.max Real64.lt
  simp only [hx, hl, hh, Bool.not_false, Bool.true_and, decide_eq_true_eq]
  split_ifs <;> simp_all [le_iff]

end Sys2Proof
end

