-- ==== Sys2Proof/Laws/Trig.lean ====
section
/-! SUPPORT. The reference `SIN` and `COS` are finite and of size at most 1 on finite arguments, the bound that
60_exceptions.md R145 and 41_bitsync.md R110 rest on. -/

namespace Sys2Proof

theorem altSeries_le (r2 fuel k t : Nat) : altSeries r2 fuel k t ≤ t := by
  cases fuel with
  | zero => simp [altSeries]
  | succ n => exact Nat.sub_le _ _

theorem halfPiFixed_lt : halfPiFixed / 2 < pow2 trigBits := by decide

theorem sinQuadrant_le (r : Nat) : sinQuadrant r ≤ pow2 trigBits := by
  unfold sinQuadrant
  split
  · next h =>
    have := altSeries_le (r * r / pow2 trigBits) 36 1 r
    have := halfPiFixed_lt
    omega
  · exact altSeries_le _ _ _ _

/-- The magnitude of 1. -/
def oneMag : Nat := 1023 * 2 ^ 52

theorem unitsOfMag_oneMag : unitsOfMag oneMag = oneUnits := by decide +kernel

theorem oneUnits_split : pow2 trigBits * pow2 (1074 - trigBits) = oneUnits := by decide +kernel

theorem trigRound_mag_le (neg : Bool) {m : Nat} (h : m ≤ pow2 trigBits) : (trigRound neg m).mag ≤ oneMag := by
  rw [trigRound, mag_ofMag (roundUnits_lt _ _)]
  apply roundUnits_le (by decide)
  rw [unitsOfMag_oneMag, Nat.mul_one, ← oneUnits_split]
  exact Nat.mul_le_mul_right _ h

theorem ofInt_one_mag : (Real64.ofInt 1).mag = oneMag := by decide +kernel

/-- The reference sine of a finite value has size at most 1. -/
theorem sinReference_mag_le {x : Real64} (h : x.isFinite = true) : (sinReference x).mag ≤ oneMag := by
  unfold sinReference
  simp only [h, Bool.not_true, Bool.false_eq_true, if_false]
  split
  · next hx =>
    refine le_of_lt (lt_of_lt_of_le hx ?_)
    decide
  · apply trigRound_mag_le
    split <;> exact sinQuadrant_le _

/-- The reference cosine of a finite value has size at most 1. -/
theorem cosReference_mag_le {x : Real64} (h : x.isFinite = true) : (cosReference x).mag ≤ oneMag := by
  unfold cosReference
  simp only [h, Bool.not_true, Bool.false_eq_true, if_false]
  split
  · rw [ofInt_one_mag]
  · apply trigRound_mag_le
    split <;> exact sinQuadrant_le _

theorem sinReference_isFinite {x : Real64} (h : x.isFinite = true) : (sinReference x).isFinite = true :=
  isFinite_of_mag_le (sinReference_mag_le h) (by decide)

theorem cosReference_isFinite {x : Real64} (h : x.isFinite = true) : (cosReference x).isFinite = true :=
  isFinite_of_mag_le (cosReference_mag_le h) (by decide)

end Sys2Proof
end

