-- ==== Sys2Proof/Laws/BitSync.lean ====
section
/-! SUPPORT. What the sub-steps of BS_FEED can do (41_bitsync.md), and what BS_FEED never changes. -/

namespace Sys2Proof.Machine

/-! ### The circular buffers (20_memory.md R42) -/

/-- The element just written. -/
@[simp] theorem ringGet_ringSet_same (v : Ring) (i : Nat) (x : Real64) : ringGet (ringSet v i x) i = x := by
  simp [ringGet, ringSet]

/-- Every other element stays. -/
theorem ringGet_ringSet_other (v : Ring) {i j : Nat} (x : Real64) (h : i % BITLEN ≠ j % BITLEN) :
    ringGet (ringSet v i x) j = ringGet v j := by
  simp [ringGet, ringSet, Vector.getElem_set_ne, h]

/-- What holds of the new element and of every old one holds of every element. -/
theorem ringGet_ringSet_all {P : Real64 → Prop} {v : Ring} {i : Nat} {x : Real64} (hx : P x)
    (hv : ∀ j, P (ringGet v j)) (j : Nat) : P (ringGet (ringSet v i x) j) := by
  by_cases h : i % BITLEN = j % BITLEN
  · have : ringGet (ringSet v i x) j = x := by simp [ringGet, ringSet, h]
    rw [this]
    exact hx
  · rw [ringGet_ringSet_other v x h]
    exact hv j

/-- The index moves down by one and stays below BITLEN (R95). -/
theorem prevIndex_lt (i : Nat) : prevIndex i < BITLEN := Nat.mod_lt _ (by decide)

/-! ### Comparisons (R110) -/

theorem ltChecked_ok {x y : Real64} (hx : x.isNaN = false) (hy : y.isNaN = false) :
    ltChecked x y = .ok (Real64.lt x y) := by simp [ltChecked, hx, hy]

theorem geChecked_ok {x y : Real64} (hx : x.isNaN = false) (hy : y.isNaN = false) :
    geChecked x y = .ok (Real64.le y x) := by simp [geChecked, hx, hy]

/-- A NaN on either side of a comparison is the fault (R110). -/
theorem ltChecked_nan {x y : Real64} (h : x.isNaN = true ∨ y.isNaN = true) : ltChecked x y = .error .nanInLoop := by
  rcases h with h | h <;> simp [ltChecked, h]

/-- A NaN on either side of a comparison is the fault (R110). -/
theorem geChecked_nan {x y : Real64} (h : x.isNaN = true ∨ y.isNaN = true) : geChecked x y = .error .nanInLoop := by
  rcases h with h | h <;> simp [geChecked, h]

/-- A comparison that answers saw no NaN. -/
theorem ltChecked_cases {x y : Real64} {v : Bool} (h : ltChecked x y = .ok v) :
    x.isNaN = false ∧ y.isNaN = false ∧ v = Real64.lt x y := by
  unfold ltChecked at h
  split at h
  · cases h
  · next hn =>
    simp only [Bool.or_eq_true, not_or, Bool.not_eq_true] at hn
    cases h
    exact ⟨hn.1, hn.2, rfl⟩

/-- A comparison that answers saw no NaN. -/
theorem geChecked_cases {x y : Real64} {v : Bool} (h : geChecked x y = .ok v) :
    x.isNaN = false ∧ y.isNaN = false ∧ v = Real64.le y x := by
  unfold geChecked at h
  split at h
  · cases h
  · next hn =>
    simp only [Bool.or_eq_true, not_or, Bool.not_eq_true] at hn
    cases h
    exact ⟨hn.1, hn.2, rfl⟩

/-- The timing adjustment after a clamp is in its range (R105, R111). -/
theorem clampEa_cases {x y : Real64} (h : clampEa x = .ok y) :
    x.isNaN = false ∧ y = Real64.clamp x (Real64.neg EA_MAX) EA_MAX ∧
      Real64.le (Real64.neg EA_MAX) y = true ∧ Real64.le y EA_MAX = true := by
  unfold clampEa at h
  split at h
  · cases h
  · next hn =>
    have hx : x.isNaN = false := by simpa using hn
    have hy := Except.ok.inj h
    refine ⟨hx, hy.symm, ?_⟩
    rw [← hy]
    exact clamp_bounds hx (by decide +kernel) (by decide +kernel) (by decide +kernel)

/-! ### The sub-steps -/

/-- The threshold of the bit clock is `real(10) + ea` (R103). -/
theorem clockThreshold_eq (ea : Real64) : clockThreshold ea = (Real64.ofInt 10).add ea := rfl

variable {par : Params} {b b' : Bsync} {x : Int} {c : Real64}

/-- An error-or-value that continues had its first part answer. -/
theorem bind_ok {ε α β : Type} {e : Except ε α} {f : α → Except ε β} {y : β} (h : (e >>= f) = .ok y) :
    ∃ a, e = .ok a ∧ f a = .ok y := by
  cases e with
  | ok a => exact ⟨a, rfl, h⟩
  | error r => cases h

/-- What a VFO step gives (R98). -/
theorem vfoStep_cases {t : Trig} {dphi u2 phi df : Real64} {is : Nat} {ring : Ring} {v : Vfo}
    (h : vfoStep t dphi u2 is phi df ring = .ok v) :
    mod4pi (phaseArg dphi phi df) = .ok v.phi ∧ v.ring = ringSet ring is (u2.mul (sinOf t v.phi)) ∧
      v.df = windowSum v.ring is DF_LEN ∧ v.osc = cosOf t (v.phi.div (Real64.ofInt 2)) := by
  unfold vfoStep at h
  obtain ⟨p, hp, hv⟩ := bind_ok h
  injection hv with hv
  subst hv
  refine ⟨hp, ?_⟩
  simp only [and_self]

/-- What steps 1 to 5 leave as they were (R95 to R102). -/
theorem bsFront_cases (h : bsFront par x b = .ok b') :
    b'.is = prevIndex b.is ∧ b'.lin = trackLevel x b.lin ∧ b'.clock = b.clock ∧ b'.ea = b.ea ∧ b'.pC = b.pC ∧
      b'.ppC = b.ppC ∧ b'.sgI = b.sgI ∧ b'.sgQ = b.sgQ ∧ b'.bitValid = b.bitValid ∧ b'.bit = b.bit := by
  unfold bsFront at h
  obtain ⟨u, -, h⟩ := bind_ok h
  obtain ⟨hv, -, h⟩ := bind_ok h
  obtain ⟨lv, -, h⟩ := bind_ok h
  injection h with h
  subst h
  simp only [and_self]

/-- What a slicing changes (R105, R106): one sign, the bit and its flag, and `ea` within its bounds. -/
def Sliced (b b' : Bsync) : Prop :=
  b'.bitValid = true ∧ Real64.le (Real64.neg EA_MAX) b'.ea = true ∧ Real64.le b'.ea EA_MAX = true ∧
    b' = { b with sgI := b'.sgI, sgQ := b'.sgQ, bit := b'.bit, ea := b'.ea, bitValid := true }

theorem sliceQ_cases (h : sliceQ par c b = .ok b') : Sliced b b' ∧ b'.sgI = b.sgI := by
  obtain ⟨p, -, h⟩ := bind_ok h
  obtain ⟨ea, he, h⟩ := bind_ok h
  cases h
  exact ⟨⟨rfl, (clampEa_cases he).2.2.1, (clampEa_cases he).2.2.2, rfl⟩, rfl⟩

theorem sliceI_cases (h : sliceI par c b = .ok b') : Sliced b b' ∧ b'.sgQ = b.sgQ := by
  obtain ⟨p, -, h⟩ := bind_ok h
  obtain ⟨ea, he, h⟩ := bind_ok h
  cases h
  exact ⟨⟨rfl, (clampEa_cases he).2.2.1, (clampEa_cases he).2.2.2, rfl⟩, rfl⟩

/-- At most one branch slices (R106, R108). -/
theorem bsSlice_cases (h : bsSlice par c b = .ok b') : Sliced b b' ∨ b' = b := by
  obtain ⟨v1, -, h⟩ := bind_ok h
  obtain ⟨v2, -, h⟩ := bind_ok h
  obtain ⟨v3, -, h⟩ := bind_ok h
  obtain ⟨v4, -, h⟩ := bind_ok h
  split at h
  · exact .inl (sliceQ_cases h).1
  · split at h
    · exact .inl (sliceI_cases h).1
    · cases h
      exact .inr rfl

/-- A tick (R105 to R109), for the correlator's value. -/
theorem tickWith_cases (h : tickWith par c b = .ok b') :
    ∃ m, (Sliced { b with clock := 0 } m ∨ m = { b with clock := 0 }) ∧ b' = { m with ppC := b.pC, pC := c } := by
  obtain ⟨m, hm, h⟩ := bind_ok h
  have hc := bsSlice_cases hm
  refine ⟨m, hc, ?_⟩
  have hp : m.pC = b.pC := by
    rcases hc with hs | rfl
    · rw [hs.2.2.2]
    · rfl
  rw [← hp]
  cases h
  rfl

/-- The bit clock (R103): it counts, or it ticks at the threshold. -/
theorem bsClock_cases (h : bsClock par b = .ok b') :
    (clockThreshold b.ea).isNaN = false ∧
      (Real64.le (clockThreshold b.ea) (Real64.ofInt ((b.clock + 1 : Nat) : Int)) = false ∧
          b' = { b with clock := b.clock + 1 } ∨
        Real64.le (clockThreshold b.ea) (Real64.ofInt ((b.clock + 1 : Nat) : Int)) = true ∧
          tickWith par (correlator par.trig b.csample b.is) b = .ok b') := by
  unfold bsClock at h
  obtain ⟨v, hv, h⟩ := bind_ok h
  have hg := geChecked_cases hv
  refine ⟨hg.2.1, ?_⟩
  rw [hg.2.2] at h
  split at h
  · next ht => exact .inr ⟨ht, h⟩
  · next ht =>
    injection h with h
    exact .inl ⟨by simpa using ht, h.symm⟩

/-- BS_FEED as its two halves and LINK (R94). -/
theorem bsFeed_cases {s t : State} (h : bsFeed x s = .ok t) :
    ∃ f b, bsFront s.par x { s.bsync with bitValid := false, bit := false } = .ok f ∧ bsClock s.par f = .ok b ∧
      (b.bitValid = true ∧ linkBit b.bit { s with bsync := b } = .ok t ∨ b.bitValid = false ∧ t = { s with bsync := b }) := by
  obtain ⟨f, hf, h⟩ := bind_ok h
  obtain ⟨b, hb, h⟩ := bind_ok h
  refine ⟨f, b, hf, hb, ?_⟩
  split at h
  · next hv => exact .inl ⟨hv, h⟩
  · next hv => cases h; exact .inr ⟨by simpa using hv, rfl⟩

/-- BS_FEED changes only BSYNC, LINK, FSM and the outputs. -/
theorem bsFeed_frame {s t : State} (h : bsFeed x s = .ok t) :
    t = { s with bsync := t.bsync, link := t.link, fsm := t.fsm, out := t.out } := by
  obtain ⟨f, b, -, -, ⟨-, h⟩ | ⟨-, rfl⟩⟩ := bsFeed_cases h
  · rcases (linkBit_frame h).1 with h | h <;> rw [h]
  · rfl

/-! ### What the sub-steps give when no NaN is met -/

/-- A part that answers is passed on. -/
@[simp] theorem ok_bind {ε α β : Type} (a : α) (f : α → Except ε β) : (Except.ok a >>= f) = f a := rfl

/-- A part that fails is the result. -/
@[simp] theorem error_bind {ε α β : Type} (e : ε) (f : α → Except ε β) : (Except.error e >>= f) = .error e := rfl

/-- A VFO step whose phase reduction answers (R98). -/
theorem vfoStep_ok {t : Trig} {dphi u2 phi df p : Real64} {is : Nat} {ring : Ring}
    (h : mod4pi (phaseArg dphi phi df) = .ok p) :
    vfoStep t dphi u2 is phi df ring =
      .ok { phi := p
            df := windowSum (ringSet ring is (u2.mul (sinOf t p))) is DF_LEN
            ring := ringSet ring is (u2.mul (sinOf t p))
            osc := cosOf t (p.div (Real64.ofInt 2)) } := by
  simp only [vfoStep, h, ok_bind]

/-- The quotient of a level that is no NaN (R97). -/
theorem normalise_ok {lin : Real64} (x : Int) (h : lin.isNaN = false) :
    normalise x lin = .ok (if lin.isZero then Real64.zero else (Real64.ofInt x).div lin) := by
  simp only [normalise, h, Bool.false_eq_true, if_false]

/-- The slicer (R107). -/
theorem slice_ok {sg : Sgn} {v : Real64} (hv : v.isNaN = false)
    (hp : (v.mul (Real64.ofInt (latchSign sg v).toInt)).isNaN = false) :
    slice sg v = .ok (latchSign sg v, Real64.lt Real64.zero (v.mul (Real64.ofInt (latchSign sg v).toInt))) := by
  have hz : Real64.zero.isNaN = false := by decide
  simp only [slice, ltChecked_ok hv hz, ltChecked_ok hz hp, ok_bind]

theorem clampEa_ok {v : Real64} (h : v.isNaN = false) :
    clampEa v = .ok (Real64.clamp v (Real64.neg EA_MAX) EA_MAX) := by
  simp only [clampEa, h, Bool.false_eq_true, if_false]

/-- The choice of a branch (R105, R106, R108). -/
theorem bsSlice_ok (hc : c.isNaN = false) (hp : b.pC.isNaN = false) (hq : b.ppC.isNaN = false) :
    bsSlice par c b =
      if (Real64.lt b.pC c && Real64.lt b.pC b.ppC) = true then sliceQ par c b
      else if (Real64.lt c b.pC && Real64.lt b.ppC b.pC) = true then sliceI par c b
      else .ok b := by
  simp only [bsSlice, ltChecked_ok hp hc, ltChecked_ok hp hq, ltChecked_ok hc hp, ltChecked_ok hq hp, ok_bind]

/-- The bit clock below the threshold counts (R103). -/
theorem bsClock_count (hn : (clockThreshold b.ea).isNaN = false)
    (h : Real64.le (clockThreshold b.ea) (Real64.ofInt ((b.clock + 1 : Nat) : Int)) = false) :
    bsClock par b = .ok { b with clock := b.clock + 1 } := by
  simp only [bsClock, geChecked_ok (ofInt_not_nan _) hn, h, ok_bind, Bool.false_eq_true, if_false]

/-- The bit clock at the threshold ticks (R103). -/
theorem bsClock_tick (hn : (clockThreshold b.ea).isNaN = false)
    (h : Real64.le (clockThreshold b.ea) (Real64.ofInt ((b.clock + 1 : Nat) : Int)) = true) :
    bsClock par b = tickWith par (correlator par.trig b.csample b.is) b := by
  simp only [bsClock, geChecked_ok (ofInt_not_nan _) hn, h, ok_bind, if_true, bsTick]

/-- A tick whose slicing answers (R105 to R109). -/
theorem tickWith_ok (h : bsSlice par c { b with clock := 0 } = .ok b') :
    tickWith par c b = .ok { b' with ppC := b'.pC, pC := c } := by
  simp only [tickWith, h, ok_bind]

/-- BS_FEED whose two halves answer (R94). -/
theorem bsFeed_ok {s : State} {f : Bsync}
    (hf : bsFront s.par x { s.bsync with bitValid := false, bit := false } = .ok f) (hb : bsClock s.par f = .ok b) :
    bsFeed x s = if b.bitValid = true then linkBit b.bit { s with bsync := b } else .ok { s with bsync := b } := by
  unfold bsFeed
  rw [hf, ok_bind, hb, ok_bind]

end Sys2Proof.Machine
end

