-- ==== Sys2Proof/Laws/Conditioner.lean ====
section
/-! SUPPORT. What the stages of COND_BLOCK can do (40_conditioner.md): pairs, windows, sample counts and ranges. -/

namespace Sys2Proof.Machine

/-! ### IQ pairs (20_memory.md R48, R56) -/

theorem iqPairs_length (data : List Byte) : (iqPairs data).length = data.length / 2 := by
  induction data using iqPairs.induct with
  | case1 i q rest ih => simp only [iqPairs, List.length_cons, ih]; omega
  | case2 data h =>
    match data, h with
    | [], _ => rfl
    | [_], _ => simp [iqPairs]
    | a :: b :: r, h => exact absurd rfl (h a b r)

/-- The pairs of two blocks of whole pairs follow each other. -/
theorem iqPairs_append {a : List Byte} (h : a.length % 2 = 0) (b : List Byte) :
    iqPairs (a ++ b) = iqPairs a ++ iqPairs b := by
  induction a using iqPairs.induct with
  | case1 i q rest ih =>
    simp only [List.length_cons] at h
    simp only [List.cons_append, iqPairs, ih (by omega)]
  | case2 a hn =>
    match a, h, hn with
    | [], _, _ => rfl
    | [_], h, _ => simp at h
    | x :: y :: r, _, hn => exact absurd rfl (hn x y r)

variable {par : Params} {cfg : Cfg}

/-- The stages of one pair only append to `P` and `X`. -/
theorem condPair_prefix (c : Cond) (ps : List (Int × Int)) (xs : List Int) (p : Byte × Byte) :
    condPair par cfg ⟨c, ps, xs⟩ p =
      let r := condPair par cfg ⟨c, [], []⟩ p
      ⟨r.cond, ps ++ r.pairs, xs ++ r.samples⟩ := by
  simp only [condPair, decimate, windowDone, postDown]
  split
  · split <;> simp
  · simp

theorem foldl_condPair_prefix (qs : List (Byte × Byte)) (c : Cond) (ps : List (Int × Int)) (xs : List Int) :
    qs.foldl (condPair par cfg) ⟨c, ps, xs⟩ =
      let r := qs.foldl (condPair par cfg) ⟨c, [], []⟩
      ⟨r.cond, ps ++ r.pairs, xs ++ r.samples⟩ := by
  induction qs generalizing c ps xs with
  | nil => simp
  | cons q qs ih =>
    simp only [List.foldl_cons]
    rw [condPair_prefix c ps xs q, ih, ih (condPair par cfg ⟨c, [], []⟩ q).cond (condPair par cfg ⟨c, [], []⟩ q).pairs]
    simp only [List.append_assoc]

/-- The pairs of one block and then of another: the conditioner streams across the boundary (R56). -/
theorem condPairs_append (c : Cond) (a b : List (Byte × Byte)) :
    condPairs par cfg c (a ++ b) =
      let r := condPairs par cfg c a
      let u := condPairs par cfg r.cond b
      ⟨u.cond, r.pairs ++ u.pairs, r.samples ++ u.samples⟩ := by
  simp only [condPairs, List.foldl_append]
  exact foldl_condPair_prefix b _ _ _

/-! ### Ranges (R83, R85, R86) -/

theorem envelope_range (d : Nat) (oi oq : Int) : 0 ≤ envelope d oi oq ∧ envelope d oi oq ≤ 32767 := by
  simp only [envelope]
  omega

theorem sat16_isS16 (n : Int) : isS16 (sat16 n) = true := by
  rw [isS16_iff]
  simp only [sat16]
  omega

theorem satTrunc_isS16 (y : Real64) : isS16 (satTrunc y) = true := by
  unfold satTrunc
  split
  · exact sat16_isS16 _
  · split
    · split <;> decide
    · exact sat16_isS16 _

/-! ### Lengths (R84, R89): no stage changes the number of samples -/

@[simp] theorem deemph_length (a y : Real64) (xs : List Int) : (deemph a y xs).2.length = xs.length := by
  induction xs generalizing y with
  | nil => rfl
  | cons x xs ih => simp [deemph, ih]

@[simp] theorem dcBlock_length (avg : Real64) (xs : List Int) : (dcBlock avg xs).2.length = xs.length := by
  unfold dcBlock
  split <;> simp

@[simp] theorem optionalStages_length (c : Cond) (xs : List Int) :
    (optionalStages cfg c xs).2.length = xs.length := by
  unfold optionalStages
  cases h1 : cfg.deemphEn <;> cases h2 : cfg.dcblockEn <;> simp

/-- The optional stages write only the two filter registers. -/
theorem optionalStages_frame (c : Cond) (xs : List Int) :
    (optionalStages cfg c xs).1 =
      { c with deemphY := (optionalStages cfg c xs).1.deemphY, dcAvg := (optionalStages cfg c xs).1.dcAvg } := by
  unfold optionalStages
  cases h1 : cfg.deemphEn <;> cases h2 : cfg.dcblockEn <;> simp

/-- `sat16(trunc(y))` of a finite value (R86). -/
theorem satTrunc_of_finite {y : Real64} (h : y.isFinite = true) : satTrunc y = sat16 y.truncFinite := by
  simp only [satTrunc, isFinite_not_nan h, isFinite_not_inf h, Bool.false_eq_true, if_false]

/-- De-emphasis as one fold (R86): the state after each prefix of the samples. -/
theorem deemph_eq (a : Real64) (xs : List Int) (y : Real64) :
    deemph a y xs =
      (xs.foldl (fun y x => y.add (a.mul ((Real64.ofInt x).sub y))) y,
        (List.range xs.length).map fun j =>
          satTrunc ((xs.take (j + 1)).foldl (fun y x => y.add (a.mul ((Real64.ofInt x).sub y))) y)) := by
  induction xs generalizing y with
  | nil => rfl
  | cons x xs ih =>
    simp only [deemph, ih, List.length_cons, List.range_succ_eq_map, List.map_cons, List.map_map]
    simp [Function.comp_def]

/-- The mean of a block's samples as a fold (R87, R88). -/
theorem meanOf_eq (xs : List Int) :
    meanOf xs =
      (xs.foldl (fun acc x => acc.add (Real64.ofInt x)) Real64.zero).div (Real64.ofInt (xs.length : Int)) := by
  rw [meanOf, Real64.sum, List.foldl_map]

/-- De-emphasis of two runs of samples in a row (R86). -/
theorem deemph_append (a y : Real64) (xs ys : List Int) :
    deemph a y (xs ++ ys) =
      ((deemph a (deemph a y xs).1 ys).1, (deemph a y xs).2 ++ (deemph a (deemph a y xs).1 ys).2) := by
  induction xs generalizing y with
  | nil => rfl
  | cons x xs ih => simp [deemph, ih]

/-- The squelch writes only its count and its two flags. -/
theorem squelch_frame (ps : List (Int × Int)) (c : Cond) :
    squelch cfg ps c =
      { c with
        silentCount := (squelch cfg ps c).silentCount
        mute := (squelch cfg ps c).mute
        hopRequest := (squelch cfg ps c).hopRequest } := by
  unfold squelch
  split <;> rfl

/-- COND_BLOCK sends on as many samples as its first loop made, muted or not (R78, R89). -/
theorem conditionBlock_length (c : Cond) (data : List Byte) :
    (conditionBlock par cfg c data).2.length = (condPairs par cfg c (iqPairs data)).samples.length := by
  simp only [conditionBlock]
  split <;> simp

/-- A COND_BLOCK that answers ran in RUN on a well-formed block. -/
theorem execCondBlock_cases {s t : State} {data : List Int} (h : execCondBlock data s = .next t) :
    s.phase = .run ∧ (Instr.condBlock data).wellFormed = true ∧
      t = condBlock (data.map (BitVec.ofInt 8)) (beginOp s) := by
  obtain ⟨hp, h⟩ := runOnly_next h
  obtain ⟨bytes, hb, h⟩ := withOperand_next h
  unfold operandIq at hb
  split at hb
  · cases hb
  · next ho =>
    unfold operandSeq at hb
    split at hb
    · next ha =>
      cases hb
      cases h
      refine ⟨hp, ?_, rfl⟩
      simp only [Instr.wellFormed, ha, Bool.and_true, decide_eq_true_eq]
      omega
    · cases hb

end Sys2Proof.Machine
end

