-- ==== Sys2Proof/Laws/Crc.lean ====
section
/-! SUPPORT. The CRC step over XOR (43_crc.md R131, R135, R142), and the reversal of a byte (R132). -/

namespace Sys2Proof

/-- One step of the table's definition is linear over XOR. -/
theorem crcTabStep_xor (a b : Word16) : crcTabStep (a ^^^ b) = crcTabStep a ^^^ crcTabStep b := by
  unfold crcTabStep
  rw [BitVec.getLsbD_xor]
  cases ha : a.getLsbD 15 <;> cases hb : b.getLsbD 15 <;>
    simp only [Bool.xor_false, Bool.xor_true, if_true, if_false,
      Bool.false_eq_true, BitVec.shiftLeft_xor_distrib, bne_self_eq_false]
  · exact (BitVec.xor_assoc _ _ _)
  · rw [BitVec.xor_assoc, BitVec.xor_comm (b <<< 1), ← BitVec.xor_assoc]
  · rw [BitVec.xor_assoc, ← BitVec.xor_assoc CRC_POLY, BitVec.xor_comm CRC_POLY (b <<< 1), BitVec.xor_assoc,
      BitVec.xor_self, BitVec.xor_zero]

theorem crcTabSteps_xor (n : Nat) (a b : Word16) :
    crcTabSteps n (a ^^^ b) = crcTabSteps n a ^^^ crcTabSteps n b := by
  induction n generalizing a b with
  | zero => rfl
  | succ n ih => simp only [crcTabSteps, crcTabStep_xor, ih]

/-- `CRC_TAB` is linear over XOR (R131). -/
theorem crcTab_xor (a b : Byte) : crcTab (a ^^^ b) = crcTab a ^^^ crcTab b := by
  have h : (a ^^^ b).zeroExtend 16 <<< 8 = (a.zeroExtend 16 <<< 8) ^^^ (b.zeroExtend 16 <<< 8) := by
    ext i
    simp
    cases decide (i < 8) <;> simp
  rw [crcTab, h, crcTabSteps_xor]
  rfl

theorem crcTab_zero : crcTab 0#8 = 0#16 := by decide

/-- A fold step is linear over XOR. -/
theorem crcFold_xor (c d : Word16) (a b : Byte) : crcFold (c ^^^ d) (a ^^^ b) = crcFold c a ^^^ crcFold d b := by
  have h : (c ^^^ d).extractLsb' 8 8 ^^^ (a ^^^ b) =
      (c.extractLsb' 8 8 ^^^ a) ^^^ (d.extractLsb' 8 8 ^^^ b) := by
    ext i
    simp only [BitVec.getElem_xor, BitVec.getElem_extractLsb', BitVec.getLsbD_xor]
    generalize c.getLsbD (8 + i) = u
    generalize d.getLsbD (8 + i) = v
    cases u <;> cases v <;> cases a[i] <;> cases b[i] <;> rfl
  rw [crcFold, h, crcTab_xor, BitVec.shiftLeft_xor_distrib]
  simp only [crcFold]
  ac_rfl

/-- The reversal of a byte is linear over XOR. -/
theorem revByte_xor (a b : Byte) : revByte (a ^^^ b) = revByte a ^^^ revByte b := by
  have h : ∀ v : Byte, revByte v = v.reverse := by decide +kernel
  rw [h, h, h]
  apply BitVec.eq_of_getLsbD_eq
  intro i _
  simp [BitVec.getLsbD_reverse, BitVec.getMsbD_xor]

@[simp] theorem flipBit_length (raw : List Byte) (i j : Nat) : (flipBit raw i j).length = raw.length := by
  simp [flipBit]

end Sys2Proof
end

