-- ==== Sys2Proof/Laws/Decode.lean ====
section
/-! SUPPORT. What the decoder reads from each key of the opcode table (30_encoding.md R61, R62). -/

namespace Sys2Proof

@[simp] theorem decode_reset : decode 0x00#8 [] = .ok .reset := by
  simp [decode, keyRsv, keyOp]

@[simp] theorem decode_condBlock (ops : List Int) : decode 0x01#8 ops = .ok (.condBlock ops) := by
  simp [decode, keyRsv, keyOp]

@[simp] theorem decode_bsFeed (ops : List Int) : decode 0x02#8 ops = decodeOne .bsFeed ops := by
  simp [decode, keyRsv, keyOp]

@[simp] theorem decode_bitIn (ops : List Int) : decode 0x03#8 ops = decodeOne .bitIn ops := by
  simp [decode, keyRsv, keyOp]

@[simp] theorem decode_fsmByteHeadLost (ops : List Int) : decode 0x04#8 ops = decodeOne .fsmByteHeadLost ops := by
  simp [decode, keyRsv, keyOp, keySt, decodeFsm]

@[simp] theorem decode_fsmByteHeadFound (ops : List Int) : decode 0x14#8 ops = decodeOne .fsmByteHeadFound ops := by
  simp [decode, keyRsv, keyOp, keySt, decodeFsm]

@[simp] theorem decode_fsmByteSync (ops : List Int) : decode 0x24#8 ops = decodeOne .fsmByteSync ops := by
  simp [decode, keyRsv, keyOp, keySt, decodeFsm]

@[simp] theorem decode_fsmByteText (ops : List Int) : decode 0x34#8 ops = decodeOne .fsmByteText ops := by
  simp [decode, keyRsv, keyOp, keySt, decodeFsm]

@[simp] theorem decode_fsmByteCrc1 (ops : List Int) : decode 0x44#8 ops = decodeOne .fsmByteCrc1 ops := by
  simp [decode, keyRsv, keyOp, keySt, decodeFsm]

@[simp] theorem decode_fsmByteCrc2 (ops : List Int) : decode 0x54#8 ops = decodeOne .fsmByteCrc2 ops := by
  simp [decode, keyRsv, keyOp, keySt, decodeFsm]

@[simp] theorem decode_fsmByteEnd (ops : List Int) : decode 0x64#8 ops = decodeOne .fsmByteEnd ops := by
  simp [decode, keyRsv, keyOp, keySt, decodeFsm]

@[simp] theorem decode_crcGen (ops : List Int) : decode 0x05#8 ops = .ok (.crcGen ops) := by
  simp [decode, keyRsv, keyOp]

@[simp] theorem decode_crcCheck (ops : List Int) : decode 0x06#8 ops = .ok (.crcCheck ops) := by
  simp [decode, keyRsv, keyOp]

@[simp] theorem decode_crcFold (ops : List Int) : decode 0x07#8 ops = decodeTwo .crcFold ops := by
  simp [decode, keyRsv, keyOp]

@[simp] theorem decode_crcFoldRev (ops : List Int) : decode 0x08#8 ops = decodeTwo .crcFoldRev ops := by
  simp [decode, keyRsv, keyOp]

@[simp] theorem decode_oddParity (ops : List Int) : decode 0x09#8 ops = decodeOne .oddParity ops := by
  simp [decode, keyRsv, keyOp]

@[simp] theorem decodeOne_singleton (mk : Int → Instr) (a : Int) : decodeOne mk [a] = .ok (mk a) := rfl

@[simp] theorem decodeTwo_pair (mk : Int → Int → Instr) (a b : Int) : decodeTwo mk [a, b] = .ok (mk a b) := rfl

/-- An operation with one operand value takes exactly one. -/
theorem decodeOne_ok {mk : Int → Instr} {ops : List Int} {i : Instr} (h : decodeOne mk ops = .ok i) :
    ∃ a, ops = [a] ∧ i = mk a := by
  unfold decodeOne at h
  split at h
  · exact ⟨_, rfl, by simpa using h.symm⟩
  · cases h

/-- An operation with two operand values takes exactly two. -/
theorem decodeTwo_ok {mk : Int → Int → Instr} {ops : List Int} {i : Instr} (h : decodeTwo mk ops = .ok i) :
    ∃ a b, ops = [a, b] ∧ i = mk a b := by
  unfold decodeTwo at h
  split at h
  · exact ⟨_, _, rfl, by simpa using h.symm⟩
  · cases h

/-- Outside FSM_BYTE the decoder takes the key as it came (R61). -/
theorem formKey_of_not_fsm {key : Byte} (h : keyOp key ≠ 4) (st : BitVec 3) : formKey key st = key := by
  simp [formKey, h]

/-- For FSM_BYTE the decoder inserts the state tag in the key (R61). -/
theorem formKey_fsm (st : BitVec 3) : formKey 0x04#8 st = 0x04#8 ||| (st.zeroExtend 8 <<< 4) := by
  revert st; decide

end Sys2Proof
end

