-- ==== Sys2Proof/Laws/PerInstr.lean ====
section
/-! SUPPORT. Statements about every operation, one lemma per constructor of Instr. -/

namespace Sys2Proof.Laws.EncodedKey

/-- The key an operation is encoded with matches its own row of the opcode table, and the decoder reads the operation
back from that key and its operand values (R61). -/
def Statement (i : Instr) : Prop := i.row.fits i.key = true ∧ decode i.key i.operands = .ok i

theorem reset : Statement .reset :=
  ⟨by simp [OpcodeRow.fits, Instr.row, Instr.key], by simp [Instr.key, Instr.operands]⟩

theorem condBlock (data : List Int) : Statement (.condBlock data) :=
  ⟨by simp [OpcodeRow.fits, Instr.row, Instr.key], by simp [Instr.key, Instr.operands]⟩

theorem bsFeed (b : Int) : Statement (.bsFeed b) :=
  ⟨by simp [OpcodeRow.fits, Instr.row, Instr.key], by simp [Instr.key, Instr.operands]⟩

theorem bitIn (b : Int) : Statement (.bitIn b) :=
  ⟨by simp [OpcodeRow.fits, Instr.row, Instr.key], by simp [Instr.key, Instr.operands]⟩

theorem fsmByteHeadLost (b : Int) : Statement (.fsmByteHeadLost b) :=
  ⟨by simp [OpcodeRow.fits, Instr.row, Instr.key], by simp [Instr.key, Instr.operands]⟩

theorem fsmByteHeadFound (b : Int) : Statement (.fsmByteHeadFound b) :=
  ⟨by simp [OpcodeRow.fits, Instr.row, Instr.key], by simp [Instr.key, Instr.operands]⟩

theorem fsmByteSync (b : Int) : Statement (.fsmByteSync b) :=
  ⟨by simp [OpcodeRow.fits, Instr.row, Instr.key], by simp [Instr.key, Instr.operands]⟩

theorem fsmByteText (b : Int) : Statement (.fsmByteText b) :=
  ⟨by simp [OpcodeRow.fits, Instr.row, Instr.key], by simp [Instr.key, Instr.operands]⟩

theorem fsmByteCrc1 (b : Int) : Statement (.fsmByteCrc1 b) :=
  ⟨by simp [OpcodeRow.fits, Instr.row, Instr.key], by simp [Instr.key, Instr.operands]⟩

theorem fsmByteCrc2 (b : Int) : Statement (.fsmByteCrc2 b) :=
  ⟨by simp [OpcodeRow.fits, Instr.row, Instr.key], by simp [Instr.key, Instr.operands]⟩

theorem fsmByteEnd (b : Int) : Statement (.fsmByteEnd b) :=
  ⟨by simp [OpcodeRow.fits, Instr.row, Instr.key], by simp [Instr.key, Instr.operands]⟩

theorem crcGen (data : List Int) : Statement (.crcGen data) :=
  ⟨by simp [OpcodeRow.fits, Instr.row, Instr.key], by simp [Instr.key, Instr.operands]⟩

theorem crcCheck (data : List Int) : Statement (.crcCheck data) :=
  ⟨by simp [OpcodeRow.fits, Instr.row, Instr.key], by simp [Instr.key, Instr.operands]⟩

theorem crcFold (crc b : Int) : Statement (.crcFold crc b) :=
  ⟨by simp [OpcodeRow.fits, Instr.row, Instr.key], by simp [Instr.key, Instr.operands]⟩

theorem crcFoldRev (crc b : Int) : Statement (.crcFoldRev crc b) :=
  ⟨by simp [OpcodeRow.fits, Instr.row, Instr.key], by simp [Instr.key, Instr.operands]⟩

theorem oddParity (b : Int) : Statement (.oddParity b) :=
  ⟨by simp [OpcodeRow.fits, Instr.row, Instr.key], by simp [Instr.key, Instr.operands]⟩

end Sys2Proof.Laws.EncodedKey
end

