-- ==== Sys2Proof/Laws/Step.lean ====
section
/-! SUPPORT. What one step can do (20_memory.md R52 to R55, 60_exceptions.md R146, R155). -/

namespace Sys2Proof.Machine

variable {s t u : State}

/-- What the oldest host item is. -/
theorem fetchHost_cases (s : State) :
    (s.inbox = [] ∧ fetchHost s = .idle) ∨
      (∃ w rest, s.inbox = .cfgWrite w :: rest ∧ fetchHost s = .cfgWrite w { s with inbox := rest }) ∨
      (∃ key ops rest i, s.inbox = .op key ops :: rest ∧ decode (formKey key s.fsm.state) ops = .ok i ∧
        fetchHost s = .instr i { s with inbox := rest }) ∨
      ∃ key ops rest r, s.inbox = .op key ops :: rest ∧ decode (formKey key s.fsm.state) ops = .error r ∧
        fetchHost s = .reject r (formKey key s.fsm.state) ops { s with inbox := rest } := by
  unfold fetchHost
  split
  · next h => exact .inl ⟨h, rfl⟩
  · next w rest h => exact .inr (.inl ⟨w, rest, h, rfl⟩)
  · next key ops rest h =>
    split
    · next i hd => exact .inr (.inr (.inl ⟨key, ops, rest, i, h, hd, rfl⟩))
    · next r hd => exact .inr (.inr (.inr ⟨key, ops, rest, r, h, hd, rfl⟩))

/-- What is fetched: a pending sample, or the oldest host item, with at most the schedule moved on. -/
theorem fetch_cases (s : State) :
    (∃ x xs more, s.stream = x :: xs ∧ fetch s = .feed x { s with stream := xs, schedule := more }) ∨
      ∃ more, fetch s = fetchHost { s with schedule := more } ∧ (s.stream = [] ∨ nextIsCondBlock s = true) := by
  unfold fetch
  split
  · next h => exact .inr ⟨s.schedule, rfl, .inl h⟩
  · next x xs h =>
    split
    · next hc =>
      split
      · exact .inr ⟨s.schedule.tail, rfl, .inr hc⟩
      · exact .inl ⟨x, xs, s.schedule.tail, h, rfl⟩
    · exact .inl ⟨x, xs, s.schedule, h, rfl⟩

/-- When no sample is pending, the oldest host item is fetched (R54). -/
theorem fetch_host (h : s.stream = []) : fetch s = fetchHost s := by simp [fetch, h]

/-- The outputs held by a state that a step leaves only marked (R146). -/
theorem markRefused_beginOp (r : Refusal) (s : State) :
    markRefused r (beginOp s) = { beginOp s with refusals := s.refusals ++ [r] } := rfl

/-- What a step that answers a next state did. -/
theorem step_cases (h : step s = .next t) :
    (s.inbox = [] ∧ s.stream = [] ∧ t = beginOp s) ∨
      (∃ x xs more, s.stream = x :: xs ∧ bsFeed x (beginOp { s with stream := xs, schedule := more }) = .ok t) ∨
      (∃ w rest more, s.inbox = .cfgWrite w :: rest ∧ s.stream = [] ∧
        configWrite w { s with schedule := more, inbox := rest } = .next t) ∨
      (∃ key ops rest more i, s.inbox = .op key ops :: rest ∧ decode (formKey key s.fsm.state) ops = .ok i ∧
        (s.stream = [] ∨ i = .condBlock ops) ∧ exec i { s with schedule := more, inbox := rest } = .next t) ∨
      ∃ rest more r, t = markRefused r (beginOp { s with schedule := more, inbox := rest }) := by
  unfold step at h
  rcases fetch_cases s with ⟨x, xs, more, hs, hf⟩ | ⟨more, hf, hs⟩
  · rw [hf] at h
    exact .inr (.inl ⟨x, xs, more, hs, ofExcept_next h⟩)
  · rcases fetchHost_cases { s with schedule := more } with ⟨hi, hh⟩ | ⟨w, rest, hi, hh⟩ |
      ⟨key, ops, rest, i, hi, hd, hh⟩ | ⟨key, ops, rest, r, hi, hd, hh⟩
    · have hi' : s.inbox = [] := hi
      have hs' : s.stream = [] := by
        rcases hs with hs | hs
        · exact hs
        · simp [nextIsCondBlock, hi'] at hs
      rw [fetch_host hs'] at h
      have : fetchHost s = .idle := by simp [fetchHost, hi']
      rw [this] at h
      cases h
      exact .inl ⟨hi', hs', rfl⟩
    · rw [hf, hh] at h
      rcases settle_cases h with h | ⟨r, -, -, h⟩
      · have hs' : s.stream = [] := by
          rcases hs with hs | hs
          · exact hs
          · simp [nextIsCondBlock, show s.inbox = .cfgWrite w :: rest from hi] at hs
        exact .inr (.inr (.inl ⟨w, rest, more, hi, hs', h⟩))
      · exact .inr (.inr (.inr (.inr ⟨rest, more, r, h⟩)))
    · rw [hf, hh] at h
      rcases settle_cases h with h | ⟨r, -, -, h⟩
      · have hs' : s.stream = [] ∨ i = .condBlock ops := by
          refine hs.imp id fun hs => ?_
          have hi' : s.inbox = .op key ops :: rest := hi
          simp only [nextIsCondBlock, hi', Bool.and_eq_true, decide_eq_true_eq, Bool.not_eq_true'] at hs
          have hk : formKey key s.fsm.state = key := formKey_of_not_fsm (by omega) _
          have hd' : decode (formKey key s.fsm.state) ops = .ok i := hd
          rw [hk] at hd'
          simpa [decode, hs.1, hs.2, eq_comm] using hd'
        exact .inr (.inr (.inr (.inl ⟨key, ops, rest, more, i, hi, hd, hs', h⟩)))
      · exact .inr (.inr (.inr (.inr ⟨rest, more, r, h⟩)))
    · rw [hf, hh] at h
      rcases settle_cases h with h | ⟨r', -, -, h⟩
      · exfalso
        cases r <;> simp only [rejected] at h <;> (repeat' (split at h)) <;> cases h
      · exact .inr (.inr (.inr (.inr ⟨rest, more, r', h⟩)))

end Sys2Proof.Machine
end

