-- ==== Sys2Proof/Laws/Safety.lean ====
section
/-! SUPPORT. The words the statements are written in (Safety.lean) name what the machine's own functions compute. -/

namespace Sys2Proof.Safety

open Sys2Proof.Machine

/-- An operation starts from a state with empty outputs (R31, R38). -/
theorem opOutputs_empty (s : State) : opOutputs s none [] none = beginOp s := rfl

/-- The fold of R11 over the values of `f`. -/
theorem sumTo_eq (n : Nat) (f : Nat → Real64) : sumTo n f = Real64.sum ((List.range n).map f) := by
  rw [Real64.sum, List.foldl_map, sumTo]

/-- The written-out sum of R101 and R105. -/
theorem recentSum_eq (b : Ring) (is n : Nat) : recentSum b is n = windowSum b is n := sumTo_eq n _

/-- The written-out correlator of R104, with the weights of R93. -/
theorem correlation_eq (t : Trig) (v : Ring) (is : Nat) : correlation t v is = correlator t v is := sumTo_eq 40 _

/-- The level after a sample (R96). -/
theorem levelAfter_eq (s : State) (x : Int) : levelAfter s x = trackLevel x s.bsync.lin := rfl

end Sys2Proof.Safety
end

