-- ==== Sys2Proof/Tests/Slice0.lean ====
section
/-! SUPPORT. Tests: the smoke test of WellFormed, decoded words written out from the encodings, the printed tables,
single steps with results from 95_test_vectors.md, and for every obligation with hypotheses a state and operands that
meet them (test_witness_<name of the obligation>). -/

namespace Sys2Proof.Tests

open Sys2Proof Sys2Proof.Machine Sys2Proof.Safety

-- One theorem at a time: evaluated side by side, the threads of this file's theorems pass the memory limit of the check.
set_option Elab.async false

/-! ### WellFormed: each check refuses an ill-formed operation (30_encoding.md R63, 20_memory.md R51) -/

theorem test_wellFormed_condBlock_odd : (Instr.condBlock [127, 127, 127]).wellFormed = false := by decide
theorem test_wellFormed_condBlock_u8 : (Instr.condBlock [256, 0]).wellFormed = false := by decide
theorem test_wellFormed_bsFeed_high : (Instr.bsFeed 32768).wellFormed = false := by decide
theorem test_wellFormed_bsFeed_low : (Instr.bsFeed (-32769)).wellFormed = false := by decide
theorem test_wellFormed_bitIn : (Instr.bitIn 2).wellFormed = false := by decide
theorem test_wellFormed_fsmByte :
    [Instr.fsmByteHeadLost 256, .fsmByteHeadFound (-1), .fsmByteSync 256, .fsmByteText (-1), .fsmByteCrc1 256,
      .fsmByteCrc2 (-1), .fsmByteEnd 256].all (fun i => !i.wellFormed) = true := by decide
theorem test_wellFormed_crcGen : (Instr.crcGen [0, -1]).wellFormed = false := by decide
theorem test_wellFormed_crcCheck : (Instr.crcCheck [256]).wellFormed = false := by decide
theorem test_wellFormed_crcFold_crc : (Instr.crcFold 65536 0).wellFormed = false := by decide
theorem test_wellFormed_crcFold_byte : (Instr.crcFold 0 256).wellFormed = false := by decide
theorem test_wellFormed_crcFoldRev_crc : (Instr.crcFoldRev (-1) 0).wellFormed = false := by decide
theorem test_wellFormed_crcFoldRev_byte : (Instr.crcFoldRev 0 (-1)).wellFormed = false := by decide
theorem test_wellFormed_oddParity : (Instr.oddParity 256).wellFormed = false := by decide

/-! ### Decoding: words written out from R61, R62, R63 (operand bytes as in log 13)

Bits 3:0 are `op`, 6:4 `st` (don't-care but for `op = 4`), 7 `rsv`; each operand byte follows above. -/

theorem test_decode_reset : decodeTableWord 8 0b0_000_0000 = some .reset := by decide
theorem test_decode_reset_st : decodeTableWord 8 0b0_111_0000 = some .reset := by decide
theorem test_decode_condBlock : decodeTableWord 24 0b01111111_10001001_0_000_0001 = some (.condBlock [137, 127]) := by
  decide
theorem test_decode_bsFeed : decodeTableWord 24 0b00000011_11101000_0_000_0010 = some (.bsFeed 1000) := by decide
theorem test_decode_bsFeed_negative : decodeTableWord 24 0b10000000_00000000_0_101_0010 = some (.bsFeed (-32768)) := by
  decide
theorem test_decode_bitIn : decodeTableWord 16 0b00000001_0_000_0011 = some (.bitIn 1) := by decide
theorem test_decode_headLost : decodeTableWord 16 0b11111111_0_000_0100 = some (.fsmByteHeadLost 255) := by decide
theorem test_decode_headFound : decodeTableWord 16 0b10101011_0_001_0100 = some (.fsmByteHeadFound 0xAB) := by decide
theorem test_decode_sync : decodeTableWord 16 0b00101010_0_010_0100 = some (.fsmByteSync 0x2A) := by decide
theorem test_decode_text : decodeTableWord 16 0b10000011_0_011_0100 = some (.fsmByteText 0x83) := by decide
theorem test_decode_crc1 : decodeTableWord 16 0b11001010_0_100_0100 = some (.fsmByteCrc1 0xCA) := by decide
theorem test_decode_crc2 : decodeTableWord 16 0b00101100_0_101_0100 = some (.fsmByteCrc2 0x2C) := by decide
theorem test_decode_end : decodeTableWord 16 0b00000000_0_110_0100 = some (.fsmByteEnd 0) := by decide
theorem test_decode_crcGen : decodeTableWord 16 0b00000001_0_000_0101 = some (.crcGen [1]) := by decide
theorem test_decode_crcCheck :
    decodeTableWord 32 0b00100001_00010000_00000001_0_000_0110 = some (.crcCheck [0x01, 0x10, 0x21]) := by decide
theorem test_decode_crcFold :
    decodeTableWord 32 0b00010000_00010000_00100001_0_000_0111 = some (.crcFold 0x1021 0x10) := by decide
theorem test_decode_crcFoldRev :
    decodeTableWord 32 0b10001001_00010001_10001001_0_000_1000 = some (.crcFoldRev 0x1189 0x89) := by decide
theorem test_decode_oddParity : decodeTableWord 16 0b00000011_0_000_1001 = some (.oddParity 3) := by decide

/-- Reserved keys (R64): `rsv = 1`, `op` in 0xA..0xF, and the state tag 7. -/
theorem test_decode_reserved :
    [0x0A, 0x0B, 0x0C, 0x0D, 0x0E, 0x0F, 0x80, 0x82, 0x89, 0xFF, 0x74].map (decodeTableWord 8) =
      List.replicate 11 none := by decide

/-- A key shorter than its operand has zeros above it. -/
theorem test_decode_short :
    [0x02, 0x03, 0x04, 0x07, 0x09].map (decodeTableWord 8) =
      [some (.bsFeed 0), some (.bitIn 0), some (.fsmByteHeadLost 0), some (.crcFold 0 0), some (.oddParity 0)] := by
  decide

/-- No two rows of the opcode table match one key (R61): they differ in a bit both look at. -/
theorem test_rows_apart : opcodeRows.Pairwise (fun r t => (r.bits ^^^ t.bits) &&& r.mask &&& t.mask ≠ 0#8) := by
  decide +kernel

/-- The mnemonics of the rows, letter for letter, in the table's order. -/
theorem test_rows_mnemonics :
    opcodeRows.map OpcodeRow.mnemonic =
      ["RESET", "COND_BLOCK", "BS_FEED", "BIT_IN", "FSM_BYTE.HeadLost", "FSM_BYTE.HeadFound", "FSM_BYTE.Sync",
        "FSM_BYTE.Text", "FSM_BYTE.Crc1", "FSM_BYTE.Crc2", "FSM_BYTE.End", "CRC_GEN", "CRC_CHECK", "CRC_FOLD",
        "CRC_FOLD_REV", "ODD_PARITY"] := by decide

/-! ### The printed tables and constants -/

/-- CRC_TAB, entries 0 to 63 of the printed table (43_crc.md R131). -/
theorem test_crcTab_0 : (List.range 64).map (fun n => crcTab (BitVec.ofNat 8 (0 + n))) = [
    0x0000#16, 0x1021#16, 0x2042#16, 0x3063#16, 0x4084#16, 0x50A5#16, 0x60C6#16, 0x70E7#16,
    0x8108#16, 0x9129#16, 0xA14A#16, 0xB16B#16, 0xC18C#16, 0xD1AD#16, 0xE1CE#16, 0xF1EF#16,
    0x1231#16, 0x0210#16, 0x3273#16, 0x2252#16, 0x52B5#16, 0x4294#16, 0x72F7#16, 0x62D6#16,
    0x9339#16, 0x8318#16, 0xB37B#16, 0xA35A#16, 0xD3BD#16, 0xC39C#16, 0xF3FF#16, 0xE3DE#16,
    0x2462#16, 0x3443#16, 0x0420#16, 0x1401#16, 0x64E6#16, 0x74C7#16, 0x44A4#16, 0x5485#16,
    0xA56A#16, 0xB54B#16, 0x8528#16, 0x9509#16, 0xE5EE#16, 0xF5CF#16, 0xC5AC#16, 0xD58D#16,
    0x3653#16, 0x2672#16, 0x1611#16, 0x0630#16, 0x76D7#16, 0x66F6#16, 0x5695#16, 0x46B4#16,
    0xB75B#16, 0xA77A#16, 0x9719#16, 0x8738#16, 0xF7DF#16, 0xE7FE#16, 0xD79D#16, 0xC7BC#16] := by decide +kernel

/-- CRC_TAB, entries 64 to 127 of the printed table (43_crc.md R131). -/
theorem test_crcTab_1 : (List.range 64).map (fun n => crcTab (BitVec.ofNat 8 (64 + n))) = [
    0x48C4#16, 0x58E5#16, 0x6886#16, 0x78A7#16, 0x0840#16, 0x1861#16, 0x2802#16, 0x3823#16,
    0xC9CC#16, 0xD9ED#16, 0xE98E#16, 0xF9AF#16, 0x8948#16, 0x9969#16, 0xA90A#16, 0xB92B#16,
    0x5AF5#16, 0x4AD4#16, 0x7AB7#16, 0x6A96#16, 0x1A71#16, 0x0A50#16, 0x3A33#16, 0x2A12#16,
    0xDBFD#16, 0xCBDC#16, 0xFBBF#16, 0xEB9E#16, 0x9B79#16, 0x8B58#16, 0xBB3B#16, 0xAB1A#16,
    0x6CA6#16, 0x7C87#16, 0x4CE4#16, 0x5CC5#16, 0x2C22#16, 0x3C03#16, 0x0C60#16, 0x1C41#16,
    0xEDAE#16, 0xFD8F#16, 0xCDEC#16, 0xDDCD#16, 0xAD2A#16, 0xBD0B#16, 0x8D68#16, 0x9D49#16,
    0x7E97#16, 0x6EB6#16, 0x5ED5#16, 0x4EF4#16, 0x3E13#16, 0x2E32#16, 0x1E51#16, 0x0E70#16,
    0xFF9F#16, 0xEFBE#16, 0xDFDD#16, 0xCFFC#16, 0xBF1B#16, 0xAF3A#16, 0x9F59#16, 0x8F78#16] := by decide +kernel

/-- CRC_TAB, entries 128 to 191 of the printed table (43_crc.md R131). -/
theorem test_crcTab_2 : (List.range 64).map (fun n => crcTab (BitVec.ofNat 8 (128 + n))) = [
    0x9188#16, 0x81A9#16, 0xB1CA#16, 0xA1EB#16, 0xD10C#16, 0xC12D#16, 0xF14E#16, 0xE16F#16,
    0x1080#16, 0x00A1#16, 0x30C2#16, 0x20E3#16, 0x5004#16, 0x4025#16, 0x7046#16, 0x6067#16,
    0x83B9#16, 0x9398#16, 0xA3FB#16, 0xB3DA#16, 0xC33D#16, 0xD31C#16, 0xE37F#16, 0xF35E#16,
    0x02B1#16, 0x1290#16, 0x22F3#16, 0x32D2#16, 0x4235#16, 0x5214#16, 0x6277#16, 0x7256#16,
    0xB5EA#16, 0xA5CB#16, 0x95A8#16, 0x8589#16, 0xF56E#16, 0xE54F#16, 0xD52C#16, 0xC50D#16,
    0x34E2#16, 0x24C3#16, 0x14A0#16, 0x0481#16, 0x7466#16, 0x6447#16, 0x5424#16, 0x4405#16,
    0xA7DB#16, 0xB7FA#16, 0x8799#16, 0x97B8#16, 0xE75F#16, 0xF77E#16, 0xC71D#16, 0xD73C#16,
    0x26D3#16, 0x36F2#16, 0x0691#16, 0x16B0#16, 0x6657#16, 0x7676#16, 0x4615#16, 0x5634#16] := by decide +kernel

/-- CRC_TAB, entries 192 to 255 of the printed table (43_crc.md R131). -/
theorem test_crcTab_3 : (List.range 64).map (fun n => crcTab (BitVec.ofNat 8 (192 + n))) = [
    0xD94C#16, 0xC96D#16, 0xF90E#16, 0xE92F#16, 0x99C8#16, 0x89E9#16, 0xB98A#16, 0xA9AB#16,
    0x5844#16, 0x4865#16, 0x7806#16, 0x6827#16, 0x18C0#16, 0x08E1#16, 0x3882#16, 0x28A3#16,
    0xCB7D#16, 0xDB5C#16, 0xEB3F#16, 0xFB1E#16, 0x8BF9#16, 0x9BD8#16, 0xABBB#16, 0xBB9A#16,
    0x4A75#16, 0x5A54#16, 0x6A37#16, 0x7A16#16, 0x0AF1#16, 0x1AD0#16, 0x2AB3#16, 0x3A92#16,
    0xFD2E#16, 0xED0F#16, 0xDD6C#16, 0xCD4D#16, 0xBDAA#16, 0xAD8B#16, 0x9DE8#16, 0x8DC9#16,
    0x7C26#16, 0x6C07#16, 0x5C64#16, 0x4C45#16, 0x3CA2#16, 0x2C83#16, 0x1CE0#16, 0x0CC1#16,
    0xEF1F#16, 0xFF3E#16, 0xCF5D#16, 0xDF7C#16, 0xAF9B#16, 0xBFBA#16, 0x8FD9#16, 0x9FF8#16,
    0x6E17#16, 0x7E36#16, 0x4E55#16, 0x5E74#16, 0x2E93#16, 0x3EB2#16, 0x0ED1#16, 0x1EF0#16] := by decide +kernel

/-- REV, entries 0 to 127 of the printed table (R132), in halves. -/
theorem test_rev_0 : (List.range 128).map (fun n => revByte (BitVec.ofNat 8 (0 + n))) = [
    0x00#8, 0x80#8, 0x40#8, 0xC0#8, 0x20#8, 0xA0#8, 0x60#8, 0xE0#8, 0x10#8, 0x90#8, 0x50#8, 0xD0#8, 0x30#8, 0xB0#8, 0x70#8, 0xF0#8,
    0x08#8, 0x88#8, 0x48#8, 0xC8#8, 0x28#8, 0xA8#8, 0x68#8, 0xE8#8, 0x18#8, 0x98#8, 0x58#8, 0xD8#8, 0x38#8, 0xB8#8, 0x78#8, 0xF8#8,
    0x04#8, 0x84#8, 0x44#8, 0xC4#8, 0x24#8, 0xA4#8, 0x64#8, 0xE4#8, 0x14#8, 0x94#8, 0x54#8, 0xD4#8, 0x34#8, 0xB4#8, 0x74#8, 0xF4#8,
    0x0C#8, 0x8C#8, 0x4C#8, 0xCC#8, 0x2C#8, 0xAC#8, 0x6C#8, 0xEC#8, 0x1C#8, 0x9C#8, 0x5C#8, 0xDC#8, 0x3C#8, 0xBC#8, 0x7C#8, 0xFC#8] ++ [
    0x02#8, 0x82#8, 0x42#8, 0xC2#8, 0x22#8, 0xA2#8, 0x62#8, 0xE2#8, 0x12#8, 0x92#8, 0x52#8, 0xD2#8, 0x32#8, 0xB2#8, 0x72#8, 0xF2#8,
    0x0A#8, 0x8A#8, 0x4A#8, 0xCA#8, 0x2A#8, 0xAA#8, 0x6A#8, 0xEA#8, 0x1A#8, 0x9A#8, 0x5A#8, 0xDA#8, 0x3A#8, 0xBA#8, 0x7A#8, 0xFA#8,
    0x06#8, 0x86#8, 0x46#8, 0xC6#8, 0x26#8, 0xA6#8, 0x66#8, 0xE6#8, 0x16#8, 0x96#8, 0x56#8, 0xD6#8, 0x36#8, 0xB6#8, 0x76#8, 0xF6#8,
    0x0E#8, 0x8E#8, 0x4E#8, 0xCE#8, 0x2E#8, 0xAE#8, 0x6E#8, 0xEE#8, 0x1E#8, 0x9E#8, 0x5E#8, 0xDE#8, 0x3E#8, 0xBE#8, 0x7E#8, 0xFE#8] := by decide +kernel

/-- REV, entries 128 to 255 of the printed table (R132), in halves. -/
theorem test_rev_1 : (List.range 128).map (fun n => revByte (BitVec.ofNat 8 (128 + n))) = [
    0x01#8, 0x81#8, 0x41#8, 0xC1#8, 0x21#8, 0xA1#8, 0x61#8, 0xE1#8, 0x11#8, 0x91#8, 0x51#8, 0xD1#8, 0x31#8, 0xB1#8, 0x71#8, 0xF1#8,
    0x09#8, 0x89#8, 0x49#8, 0xC9#8, 0x29#8, 0xA9#8, 0x69#8, 0xE9#8, 0x19#8, 0x99#8, 0x59#8, 0xD9#8, 0x39#8, 0xB9#8, 0x79#8, 0xF9#8,
    0x05#8, 0x85#8, 0x45#8, 0xC5#8, 0x25#8, 0xA5#8, 0x65#8, 0xE5#8, 0x15#8, 0x95#8, 0x55#8, 0xD5#8, 0x35#8, 0xB5#8, 0x75#8, 0xF5#8,
    0x0D#8, 0x8D#8, 0x4D#8, 0xCD#8, 0x2D#8, 0xAD#8, 0x6D#8, 0xED#8, 0x1D#8, 0x9D#8, 0x5D#8, 0xDD#8, 0x3D#8, 0xBD#8, 0x7D#8, 0xFD#8] ++ [
    0x03#8, 0x83#8, 0x43#8, 0xC3#8, 0x23#8, 0xA3#8, 0x63#8, 0xE3#8, 0x13#8, 0x93#8, 0x53#8, 0xD3#8, 0x33#8, 0xB3#8, 0x73#8, 0xF3#8,
    0x0B#8, 0x8B#8, 0x4B#8, 0xCB#8, 0x2B#8, 0xAB#8, 0x6B#8, 0xEB#8, 0x1B#8, 0x9B#8, 0x5B#8, 0xDB#8, 0x3B#8, 0xBB#8, 0x7B#8, 0xFB#8,
    0x07#8, 0x87#8, 0x47#8, 0xC7#8, 0x27#8, 0xA7#8, 0x67#8, 0xE7#8, 0x17#8, 0x97#8, 0x57#8, 0xD7#8, 0x37#8, 0xB7#8, 0x77#8, 0xF7#8,
    0x0F#8, 0x8F#8, 0x4F#8, 0xCF#8, 0x2F#8, 0xAF#8, 0x6F#8, 0xEF#8, 0x1F#8, 0x9F#8, 0x5F#8, 0xDF#8, 0x3F#8, 0xBF#8, 0x7F#8, 0xFF#8] := by decide +kernel

/-- PARITY, the printed table (R133), in halves. -/
theorem test_parity : (List.range 128).map (fun n => parityBit (BitVec.ofNat 7 n)) = [
    0x80#8, 0x00#8, 0x00#8, 0x80#8, 0x00#8, 0x80#8, 0x80#8, 0x00#8, 0x00#8, 0x80#8, 0x80#8, 0x00#8, 0x80#8, 0x00#8, 0x00#8, 0x80#8,
    0x00#8, 0x80#8, 0x80#8, 0x00#8, 0x80#8, 0x00#8, 0x00#8, 0x80#8, 0x80#8, 0x00#8, 0x00#8, 0x80#8, 0x00#8, 0x80#8, 0x80#8, 0x00#8,
    0x00#8, 0x80#8, 0x80#8, 0x00#8, 0x80#8, 0x00#8, 0x00#8, 0x80#8, 0x80#8, 0x00#8, 0x00#8, 0x80#8, 0x00#8, 0x80#8, 0x80#8, 0x00#8,
    0x80#8, 0x00#8, 0x00#8, 0x80#8, 0x00#8, 0x80#8, 0x80#8, 0x00#8, 0x00#8, 0x80#8, 0x80#8, 0x00#8, 0x80#8, 0x00#8, 0x00#8, 0x80#8] ++ [
    0x00#8, 0x80#8, 0x80#8, 0x00#8, 0x80#8, 0x00#8, 0x00#8, 0x80#8, 0x80#8, 0x00#8, 0x00#8, 0x80#8, 0x00#8, 0x80#8, 0x80#8, 0x00#8,
    0x80#8, 0x00#8, 0x00#8, 0x80#8, 0x00#8, 0x80#8, 0x80#8, 0x00#8, 0x00#8, 0x80#8, 0x80#8, 0x00#8, 0x80#8, 0x00#8, 0x00#8, 0x80#8,
    0x80#8, 0x00#8, 0x00#8, 0x80#8, 0x00#8, 0x80#8, 0x80#8, 0x00#8, 0x00#8, 0x80#8, 0x80#8, 0x00#8, 0x80#8, 0x00#8, 0x00#8, 0x80#8,
    0x00#8, 0x80#8, 0x80#8, 0x00#8, 0x80#8, 0x00#8, 0x00#8, 0x80#8, 0x80#8, 0x00#8, 0x00#8, 0x80#8, 0x00#8, 0x80#8, 0x80#8, 0x00#8] := by decide +kernel

/-- odd(c) for every 7-bit character, the printed table (R139), in halves. -/
theorem test_odd : (List.range 128).map (fun n => oddByte (BitVec.ofNat 8 n)) = [
    0x80#8, 0x01#8, 0x02#8, 0x83#8, 0x04#8, 0x85#8, 0x86#8, 0x07#8, 0x08#8, 0x89#8, 0x8A#8, 0x0B#8, 0x8C#8, 0x0D#8, 0x0E#8, 0x8F#8,
    0x10#8, 0x91#8, 0x92#8, 0x13#8, 0x94#8, 0x15#8, 0x16#8, 0x97#8, 0x98#8, 0x19#8, 0x1A#8, 0x9B#8, 0x1C#8, 0x9D#8, 0x9E#8, 0x1F#8,
    0x20#8, 0xA1#8, 0xA2#8, 0x23#8, 0xA4#8, 0x25#8, 0x26#8, 0xA7#8, 0xA8#8, 0x29#8, 0x2A#8, 0xAB#8, 0x2C#8, 0xAD#8, 0xAE#8, 0x2F#8,
    0xB0#8, 0x31#8, 0x32#8, 0xB3#8, 0x34#8, 0xB5#8, 0xB6#8, 0x37#8, 0x38#8, 0xB9#8, 0xBA#8, 0x3B#8, 0xBC#8, 0x3D#8, 0x3E#8, 0xBF#8] ++ [
    0x40#8, 0xC1#8, 0xC2#8, 0x43#8, 0xC4#8, 0x45#8, 0x46#8, 0xC7#8, 0xC8#8, 0x49#8, 0x4A#8, 0xCB#8, 0x4C#8, 0xCD#8, 0xCE#8, 0x4F#8,
    0xD0#8, 0x51#8, 0x52#8, 0xD3#8, 0x54#8, 0xD5#8, 0xD6#8, 0x57#8, 0x58#8, 0xD9#8, 0xDA#8, 0x5B#8, 0xDC#8, 0x5D#8, 0x5E#8, 0xDF#8,
    0xE0#8, 0x61#8, 0x62#8, 0xE3#8, 0x64#8, 0xE5#8, 0xE6#8, 0x67#8, 0x68#8, 0xE9#8, 0xEA#8, 0x6B#8, 0xEC#8, 0x6D#8, 0x6E#8, 0xEF#8,
    0x70#8, 0xF1#8, 0xF2#8, 0x73#8, 0xF4#8, 0x75#8, 0x76#8, 0xF7#8, 0xF8#8, 0x79#8, 0x7A#8, 0xFB#8, 0x7C#8, 0xFD#8, 0xFE#8, 0x7F#8] := by decide +kernel

/-- The sync word and the odd-parity characters (R69, R70). -/
theorem test_sync_check : SYNC_CHECK = 0x0116162AAB#40 := by decide +kernel

/-- OUT_SCALE at the values of D of 95_test_vectors.md S4. -/
theorem test_outScale : [1, 2, 3, 4, 21, 24, 256, 300].map outScale = [256, 128, 85, 64, 12, 10, 1, 1] := by decide

/-- The buffer sizes of 00_scope.md R6. -/
theorem test_sizes : (BITLEN, DF_LEN, PREKEY_MIN, MAXBLK, RAW_CAP) = (40, 20, 24, 244, 247) := by decide

/-- H[0], H[5], H[10], H[20] and H[30] (95_test_vectors.md S5): 0, 0.7071067811865475, 1, 1.2246467991473532e-16, -1. -/
theorem test_hWeight :
    [0, 5, 10, 20, 30].map (hWeight .reference) =
      [⟨0#64⟩, ⟨0x3FE6A09E667F3BCC#64⟩, ⟨0x3FF0000000000000#64⟩, ⟨0x3CA1A62633145C07#64⟩, ⟨0xBFF0000000000000#64⟩] := by
  decide +kernel

/-- Vector BS-12: MOD4PI of 4 pi is 0, and of -0.1 it is 12.466370614359173. -/
theorem test_mod4pi :
    mod4pi FOURPI = .ok Real64.zero ∧ mod4pi (Real64.neg (Real64.ofRatio 1 10)) = .ok ⟨0x4028EEC82110F9E5#64⟩ := by
  decide +kernel

/-- The event codes of 60_exceptions.md R144. -/
theorem test_event_codes :
    [Event.headFound, .syncFound, .syncTimeout, .textOverflow, .crcFail, .frameAccepted, .frameCorrected, .squelchMute,
      .hopRequest].map Event.code = [1, 2, 3, 4, 5, 6, 7, 8, 9] := by decide

/-! ### Single steps (95_test_vectors.md) -/

/-- The state of an outcome that is a next state. -/
def stateOf : Host.Outcome State Fault Refusal → Option State
  | .next t => some t
  | _ => none

/-- A property of the state of an outcome, false when there is none. -/
def after (o : Host.Outcome State Fault Refusal) (p : State → Bool) : Bool := (stateOf o).any p

theorem next_of_after {o : Host.Outcome State Fault Refusal} {p : State → Bool} (h : after o p = true) :
    ∃ t, o = .next t ∧ p t = true := by
  cases o with
  | next t => exact ⟨t, rfl, by simpa [after, stateOf] using h⟩
  | fault f => cases h
  | refused r => cases h

/-- The reset state with a frame machine in state `tag` holding `raw`. -/
def inTag (tag : BitVec 3) (raw : List Byte) : State :=
  { State.reset with fsm := { Fsm.reset with state := tag, raw := raw } }

/-- The reset state of a model with decimation factor `d` (95_test_vectors.md section 2.2). -/
def withD (d : Nat) : State := { State.reset with par := { Params.ref with downsample := d } }

/-- The state with one host operation pending. -/
def withOp (s : State) (key : Byte) (operands : List Int) : State := { s with inbox := [.op key operands] }

/-- The shortest accepted frame (vector FSM-17). -/
def shortFrame : List Byte := [0x01#8, 0x83#8, 0x4B#8, 0xAF#8]

/-- RST-4: RESET leaves the configuration and enters RUN. -/
theorem test_reset_keeps_config :
    after (exec .reset { State.powerOn with cfg := { Cfg.default with post := 2 } })
      (fun t => decide (t.phase = .run ∧ t.cfg.post = 2 ∧ t.cond = Cond.reset ∧ t.fsm = Fsm.reset)) = true := by
  decide +kernel

/-- RST-11: RESET clears the link and the sync registers. -/
theorem test_reset_clears :
    after (exec .reset
        { State.reset with
          link := { outbits := 0x7F#8, nbits := 0 }
          fsm := { Fsm.reset with syncForming := 0x0116162AAB#40, syncBitsHave := 45 } })
      (fun t => decide (t = State.reset)) = true := by decide +kernel

/-- The outputs of a step are not held after it, not even by an idle step (R31, R38). -/
theorem test_idle_drops_outputs :
    after (step { State.reset with
        out := { frame := none, events := [.crcFail], result := some (.fsm 8) }
        bsync := { Bsync.reset with bitValid := true, bit := true } })
      (fun t => decide (t = State.reset)) = true := by decide +kernel

/-- The frame `F` of 95_test_vectors.md section 2.5. -/
def frameF : FrameRecord where
  bytes :=
    [0x01#8, 0x32#8, 0xAE#8, 0xCE#8, 0x31#8, 0x32#8, 0xB3#8, 0x34#8, 0xB5#8, 0x15#8, 0xC8#8, 0x31#8, 0x31#8, 0x02#8,
      0xCD#8, 0xB0#8, 0x31#8, 0xC1#8, 0xC1#8, 0xC2#8, 0x31#8, 0x32#8, 0xB3#8, 0x34#8, 0x83#8, 0xCA#8, 0x2C#8]
  len := 27
  crcCorrected := false

/-- The fields of `F` as its vector lists them, the content ones as characters (R72, R73). -/
theorem test_frame_fields :
    frameFields.map (fun f => (frameF.field f).map fun b => (stripParity b).toNat) =
      [[0x01], ['2'.toNat], ".N12345".toList.map Char.toNat, [0x15], "H1".toList.map Char.toNat, ['1'.toNat], [0x02],
        "M01A".toList.map Char.toNat, "AB1234".toList.map Char.toNat, [], [0x03], [0x4A, 0x2C]] ∧
      frameF.field .crc = [0xCA#8, 0x2C#8] := by decide +kernel

/-- COND-3: 21 pairs (137, 127) give the sample 2112. -/
theorem test_condBlock_carrier :
    after (exec (.condBlock (List.replicate 21 [137, 127]).flatten) State.reset)
      (fun t => decide (t.stream = [2112] ∧ t.cond.rotIdx = 1 ∧ t.cond.decOdd = true ∧ t.cond.decCnt = 0)) = true := by
  decide +kernel

/-- COND-7: D = 2, truncation toward zero, and saturation (envelopes of (101, 46) and (-61, -27)). -/
theorem test_condBlock_truncates :
    (condPairs (withD 2).par Cfg.default Cond.reset (iqPairs (List.replicate 4 [0xC8#8, 0x64#8]).flatten)).pairs =
        [(101, 46), (-61, -27)] ∧
      after (exec (.condBlock (List.replicate 4 [0xC8, 0x64]).flatten) (withD 2))
        (fun t => decide (t.stream = [32767, 32767])) = true := by decide +kernel

/-- COND-10: de-emphasis with A = 0.5. -/
theorem test_condBlock_deemph :
    after (exec (.condBlock (List.replicate 8 [0x89, 0x7F]).flatten)
        { withD 2 with cfg := { Cfg.default with deemphEn := true, deemphA := Real64.ofRatio 1 2 } })
      (fun t => decide (t.stream = [7168, 7168, 10752, 8960] ∧ t.cond.deemphY = ⟨0x40C1800000000000#64⟩)) = true := by
  decide +kernel

/-- COND-11: the DC blocker's first block. -/
theorem test_condBlock_dcblock :
    after (exec (.condBlock (List.replicate 8 [0x89, 0x7F]).flatten)
        { withD 2 with cfg := { Cfg.default with dcblockEn := true } })
      (fun t => decide (t.stream = [13260, 6092, 13260, 6092] ∧ t.cond.dcAvg = ⟨0x4090CCCCCCCCCCCC#64⟩)) = true := by
  decide +kernel

/-- COND-12, second block S: muted, with its event. -/
theorem test_condBlock_mutes :
    after (exec (.condBlock (List.replicate 8 [0x7F, 0x7F]).flatten)
        { withD 4 with cfg := { Cfg.default with squelchL := 1 }, cond := { Cond.reset with silentCount := 1 } })
      (fun t => decide (t.stream = [0, 0] ∧ t.cond.silentCount = 2 ∧ t.cond.mute = true ∧
        t.out.events = [.squelchMute])) = true := by decide +kernel

/-- BS-3, without the values the vector marks as depending on sine digits: level, phases, clock, no bit. -/
theorem test_bsFeed_first :
    after (exec (.bsFeed 1000) State.reset)
      (fun t => decide (t.bsync.lin = ⟨0x4008000000000000#64⟩ ∧ t.bsync.is = 39 ∧ t.bsync.clock = 1 ∧
        t.bsync.phiH = ⟨0x3FE41B2F769CF0E0#64⟩ ∧ t.bsync.phiL = ⟨0x3FD41B2F769CF0E0#64⟩ ∧
        t.bsync.bitValid = false)) = true := by decide +kernel

/-- BS-6: the level of the sample -32768. -/
theorem test_bsFeed_extreme :
    after (exec (.bsFeed (-32768)) State.reset) (fun t => decide (t.bsync.lin = ⟨0x40589374BC6A7EFA#64⟩)) = true := by
  decide +kernel

/-- LINK-1: the eighth 1 calls FSM_BYTE in HeadLost, which consumes one bit. -/
theorem test_bitIn_eighth :
    after (exec (.bitIn 1) { State.reset with link := { outbits := 0xFE#8, nbits := 7 } })
      (fun t => decide (t.link = { outbits := 0xFF#8, nbits := 7 } ∧ t.fsm.consecutivePrekey = 1)) = true := by
  decide +kernel

/-- LINK-3: the seventh 1 calls nothing. -/
theorem test_bitIn_seventh :
    after (exec (.bitIn 1) { State.reset with link := { outbits := 0xFC#8, nbits := 6 } })
      (fun t => decide (t.link = { outbits := 0xFE#8, nbits := 7 } ∧ t.fsm = Fsm.reset)) = true := by decide +kernel

/-- FSM-18: the 25th 0xFF enters HeadFound. -/
theorem test_headLost_found :
    after (exec (.fsmByteHeadLost 255) { State.reset with fsm := { Fsm.reset with consecutivePrekey := 24 } })
      (fun t => decide (t.fsm.state = 1#3 ∧ t.fsm.consecutivePrekey = 25 ∧ t.out.events = [.headFound] ∧
        t.out.result = some (.fsm 1))) = true := by decide +kernel

/-- FSM-19: another byte starts the count again and clears the signs. -/
theorem test_headLost_lost :
    after (exec (.fsmByteHeadLost 0)
        { State.reset with
          fsm := { Fsm.reset with consecutivePrekey := 1 }
          bsync := { Bsync.reset with sgI := .plus, sgQ := .minus } })
      (fun t => decide (t = { State.reset with out := { Outputs.empty with result := some (.fsm 1) } })) = true := by
  decide +kernel

/-- FSM-20: the first other byte is taken by Sync. -/
theorem test_headFound_sync :
    after (exec (.fsmByteHeadFound 0) { inTag 1#3 [] with fsm := { (inTag 1#3 []).fsm with syncForming := 5#40 } })
      (fun t => decide (t.fsm.state = 2#3 ∧ t.fsm.syncBitsHave = 8 ∧ t.fsm.syncForming = 0#40 ∧
        t.out.result = some (.fsm 8))) = true := by decide +kernel

/-- FSM-18: 0xFF stays in HeadFound and returns 1. -/
theorem test_headFound_prekey :
    after (exec (.fsmByteHeadFound 255) (inTag 1#3 []))
      (fun t => decide (t.fsm = (inTag 1#3 []).fsm ∧ t.out.result = some (.fsm 1))) = true := by decide +kernel

/-- P3: the 40th bit matches the sync word. -/
theorem test_sync_match :
    after (exec (.fsmByteSync 0x01)
        { inTag 2#3 [] with fsm := { (inTag 2#3 []).fsm with syncForming := 0x16162AAB00#40, syncBitsHave := 32 } })
      (fun t => decide (t.fsm.state = 3#3 ∧ t.fsm.raw = [0x01#8] ∧ t.fsm.syncForming = 0x0116162AAB#40 ∧
        t.fsm.syncBitsHave = 40 ∧ t.out.events = [.syncFound] ∧ t.out.result = some (.fsm 8))) = true := by
  decide +kernel

/-- FSM-6: the 55th bit without a match is the seventh of its byte. -/
theorem test_sync_timeout :
    after (exec (.fsmByteSync 0x55)
        { inTag 2#3 [] with fsm := { (inTag 2#3 []).fsm with syncForming := 0x5555555555#40, syncBitsHave := 48 } })
      (fun t => decide (t.fsm.state = 0#3 ∧ t.fsm.syncForming = 0xAAAAAAAAAA#40 ∧ t.fsm.syncBitsHave = 55 ∧
        t.out.events = [.syncTimeout] ∧ t.out.result = some (.fsm 7))) = true := by decide +kernel

/-- P3: ETX ends the text. -/
theorem test_text_terminator :
    after (exec (.fsmByteText 0x83) (inTag 3#3 [0x01#8]))
      (fun t => decide (t.fsm.state = 4#3 ∧ t.fsm.raw = [0x01#8, 0x83#8] ∧ t.out.result = some (.fsm 8))) = true := by
  decide +kernel

/-- FSM-12: the terminator that would be byte 245 after SOH is lost to the overflow. -/
theorem test_text_overflow :
    after (exec (.fsmByteText 0x83) (inTag 3#3 (List.replicate 245 0x58#8)))
      (fun t => decide (t.fsm.state = 0#3 ∧ t.fsm.raw = [] ∧ t.out.events = [.textOverflow])) = true := by
  decide +kernel

/-- P3: the two CRC bytes. -/
theorem test_crc1 :
    after (exec (.fsmByteCrc1 0xCA) (inTag 4#3 [0x01#8, 0x83#8]))
      (fun t => decide (t.fsm.state = 5#3 ∧ t.fsm.raw = [0x01#8, 0x83#8, 0xCA#8])) = true := by decide +kernel

theorem test_crc2 :
    after (exec (.fsmByteCrc2 0x2C) (inTag 5#3 [0x01#8, 0x83#8, 0xCA#8]))
      (fun t => decide (t.fsm.state = 6#3 ∧ t.fsm.raw = [0x01#8, 0x83#8, 0xCA#8, 0x2C#8])) = true := by decide +kernel

/-- FSM-17: the shortest frame is accepted as it is. -/
theorem test_end_accepts :
    after (exec (.fsmByteEnd 0x7F) (inTag 6#3 shortFrame))
      (fun t => decide (t.out.frame = some { bytes := shortFrame, len := 4, crcCorrected := false } ∧
        t.out.events = [.frameAccepted] ∧ t.out.result = some (.fsm (-1)) ∧ t.fsm = Fsm.reset)) = true := by
  decide +kernel

/-- R128: a flip in a CRC byte is put right. -/
theorem test_end_corrects :
    after (exec (.fsmByteEnd 0x7F) (inTag 6#3 [0x01#8, 0x83#8, 0x4A#8, 0xAF#8]))
      (fun t => decide (t.out.frame = some { bytes := shortFrame, len := 4, crcCorrected := true } ∧
        t.out.events = [.frameCorrected] ∧ t.fsm.crcErr = true)) = true := by decide +kernel

/-- CRC-11: CRCGEN "123456789". -/
theorem test_crcGen_check :
    after (exec (.crcGen [0x31, 0x32, 0x33, 0x34, 0x35, 0x36, 0x37, 0x38, 0x39]) State.powerOn)
      (fun t => decide (t.out.result = some (.u16 0x2189#16))) = true := by decide +kernel

/-- CRC-10: CRCGEN 01 11 89. -/
theorem test_crcGen_wrong_order :
    after (exec (.crcGen [0x01, 0x11, 0x89]) State.reset)
      (fun t => decide (t.out.result = some (.u16 0xCF5C#16))) = true := by decide +kernel

/-- CRC-12. -/
theorem test_crcCheck_true :
    after (exec (.crcCheck [0x01, 0x10, 0x21]) State.reset)
      (fun t => decide (t.out.result = some (.truth true))) = true := by decide +kernel

theorem test_crcCheck_false :
    after (exec (.crcCheck [0x01]) State.reset)
      (fun t => decide (t.out.result = some (.truth false))) = true := by decide +kernel

/-- CRC-1 and CRC-2. -/
theorem test_crcFold_first :
    after (exec (.crcFold 0 1) State.reset) (fun t => decide (t.out.result = some (.u16 0x1021#16))) = true := by
  decide +kernel

theorem test_crcFold_second :
    after (exec (.crcFold 0x1021 0x10) State.reset) (fun t => decide (t.out.result = some (.u16 0x2100#16))) = true := by
  decide +kernel

/-- CRC-4 and CRC-5. -/
theorem test_crcFoldRev_first :
    after (exec (.crcFoldRev 0 1) State.reset) (fun t => decide (t.out.result = some (.u16 0x9188#16))) = true := by
  decide +kernel

theorem test_crcFoldRev_second :
    after (exec (.crcFoldRev 0x1189 0x89) State.reset)
      (fun t => decide (t.out.result = some (.u16 0x1888#16))) = true := by decide +kernel

/-- ODD-1 and ODD-3. -/
theorem test_oddParity_char :
    after (exec (.oddParity 0x03) State.reset) (fun t => decide (t.out.result = some (.u8 0x83#8))) = true := by
  decide +kernel

theorem test_oddParity_high :
    after (exec (.oddParity 0x81) State.reset) (fun t => decide (t.out.result = some (.u8 0x81#8))) = true := by
  decide +kernel

/-! ### Refusals and their priority (60_exceptions.md R146, R147) -/

/-- The mark a step leaves. -/
def markOf (s : State) : Option (List Refusal) := (stateOf (step s)).map State.refusals

/-- RST-1, RST-7, RST-8, RST-9, RST-10, and a reserved key before the first RESET. -/
theorem test_refusals :
    markOf (withOp State.powerOn 0x02#8 [0]) = some [.notReset] ∧
      markOf (withOp State.powerOn 0x02#8 [40000]) = some [.notReset] ∧
      markOf (withOp State.powerOn 0x82#8 [40000]) = some [.reservedOp] ∧
      markOf (withOp State.reset 0x0A#8 []) = some [.reservedOp] ∧
      markOf (withOp State.reset 0x03#8 [2]) = some [.badBit] ∧
      markOf (withOp State.reset 0x01#8 [127, 127, 300]) = some [.oddIqBlock] ∧
      markOf (withOp State.reset 0x02#8 [40000]) = some [.badOperand] := by decide +kernel

/-- RST-3 and RST-5: configuration writes out of range and in RUN. -/
theorem test_config_refusals :
    markOf { State.powerOn with inbox := [.cfgWrite (.post 17)] } = some [.cfgRange] ∧
      markOf { State.reset with inbox := [.cfgWrite (.squelchL 5)] } = some [.cfgLocked] := by decide +kernel

/-- withFetchWord makes the next step run the row's operation. -/
theorem test_withFetchWord :
    after (step (State.reset.withFetchWord 8 0x54))
      (fun t => decide (t.fsm.state = 6#3 ∧ t.fsm.raw = [0x00#8] ∧ t.inbox = [])) = true := by decide +kernel

/-! ### Witnesses: the hypotheses of each obligation are met, each clause's at a boundary of its range -/

theorem test_witness_DecoderInsertsStateTag :
    (keyOp 0x74#8 = 4 ∧ keyRsv 0x74#8 = false) ∧ keyOp 0x75#8 ≠ 4 := by decide

theorem test_witness_DecodeInvertsEncode :
    [Instr.reset, .condBlock [0, 255], .bsFeed (-32768), .bsFeed 32767, .bitIn 0, .bitIn 1, .fsmByteHeadLost 255,
      .fsmByteHeadFound 0, .fsmByteSync 255, .fsmByteText 0, .fsmByteCrc1 255, .fsmByteCrc2 0, .fsmByteEnd 255,
      .crcGen [0, 255, 1], .crcCheck [], .crcFold 65535 0, .crcFoldRev 0 255, .oddParity 255].all Instr.wellFormed =
      true := by decide

/-- One pending operation for each outcome: ODD_PARITY answers, Text with a full buffer faults, BIT_IN 2 is refused. -/
theorem test_witness_StepRunsDecodedOperation :
    (decode (formKey 0x09#8 State.reset.fsm.state) [3] = .ok (.oddParity 3) ∧
        ∃ t, exec (.oddParity 3) State.reset = .next t) ∧
      (decode (formKey 0x04#8 (inTag 3#3 (List.replicate 247 0#8)).fsm.state) [0] = .ok (.fsmByteText 0) ∧
        (match exec (.fsmByteText 0) (inTag 3#3 (List.replicate 247 0#8)) with
          | .fault .rawOverflow => true
          | _ => false) = true) ∧
      decode (formKey 0x03#8 State.reset.fsm.state) [2] = .ok (.bitIn 2) ∧
        exec (.bitIn 2) State.reset = .refused .badBit ∧ Refusal.badBit.isMark = true :=
  ⟨⟨rfl, _, rfl⟩, ⟨by decide +kernel, by decide +kernel⟩, rfl, rfl, rfl⟩

/-- A pending sample: with no host item, and with a COND_BLOCK that waits because the schedule is empty or lets BSYNC
move; from reset the step answers, with a level that is no number it faults. -/
theorem test_witness_StepFeedsOldestSample :
    (nextIsCondBlock { State.reset with stream := [0] } = false ∧
        nextIsCondBlock { withOp State.reset 0x01#8 [127, 127] with stream := [0] } = true ∧
        ([] : List Bool).headD false = false ∧ [false, true].headD false = false) ∧
      (bsFeed 0 (opOutputs { State.reset with stream := [] } none [] none)).toBool = true ∧
      (match bsFeed 0 (opOutputs { State.reset with bsync := { Bsync.reset with lin := Real64.nan } } none [] none) with
        | .error .nanInLoop => true
        | _ => false) = true := ⟨by decide, by decide +kernel, by decide +kernel⟩

theorem test_witness_CondMayRunAhead :
    keyOp 0x01#8 = 1 ∧ keyRsv 0x01#8 = false ∧
      ∃ t, exec (.condBlock [127, 127])
        { State.reset with stream := [5], inbox := [], schedule := [] } = .next t := ⟨rfl, rfl, _, rfl⟩

theorem test_witness_IdleKeepsState : State.reset.stream = [] ∧ State.reset.inbox = [] := ⟨rfl, rfl⟩

theorem test_witness_ReservedKeyLeavesOnlyItsMark :
    keyRsv 0x80#8 = true ∧ keyRsv 0x84#8 = true ∧ 10 ≤ keyOp 0x0A#8 ∧ 10 ≤ keyOp 0x7F#8 ∧
      (withOp State.reset 0x0A#8 [1]).inbox = [.op 0x0A#8 [1]] ∧ (withOp State.reset 0x0A#8 [1]).stream = [] := by
  decide

theorem test_witness_TagSevenIsBadState :
    keyRsv 0x04#8 = false ∧ keyOp 0x04#8 = 4 ∧ (withOp (inTag 7#3 []) 0x04#8 [255]).phase = .run ∧
      (withOp (inTag 7#3 []) 0x04#8 [255]).fsm.state = 7#3 ∧ (0 : Int) ≤ 255 ∧ (255 : Int) < 256 := by decide

theorem test_witness_StatefulOperationsNeedReset : State.powerOn.phase = .config := rfl

/-- One operand for each clause, at the edge of its type. -/
theorem test_witness_OperandsOutsideTheirTypeAreRefused :
    State.reset.phase = .run ∧ [(127 : Int)].length % 2 = 1 ∧
      ([(256 : Int), 0].length % 2 = 0 ∧ ∃ b ∈ [(256 : Int), 0], b < 0 ∨ 255 < b) ∧
      (∃ b ∈ [(-1 : Int)], b < 0 ∨ 255 < b) ∧ ((2 : Int) ≠ 0 ∧ (2 : Int) ≠ 1) ∧ (-32769 : Int) < -32768 ∧
      (32767 : Int) < 32768 ∧ (-1 : Int) < 0 ∧ (255 : Int) < 256 ∧ (65535 : Int) < 65536 := by decide

theorem test_witness_PowerOnThenResetIsReset :
    State.powerOn.isPowerOn ∧ State.powerOn.inbox = [] ∧ State.powerOn.schedule = [] :=
  ⟨⟨rfl, rfl, rfl, rfl, rfl, rfl⟩, rfl, rfl⟩

theorem test_witness_ConfigWriteLockedInRun :
    ({ State.reset with inbox := [.cfgWrite (.post 1)] } : State).stream = [] ∧ State.reset.phase = .run := ⟨rfl, rfl⟩

/-- In CONFIG, each register at the edges of its range, stored or turned away. -/
theorem test_witness_ConfigWriteStoresInRange :
    State.powerOn.stream = [] ∧ State.powerOn.phase = .config ∧
      [CfgWrite.post 0, .post 17, .post (-1), .squelchL (-1), .hammingW [], .deemphA Real64.zero,
          .deemphA (Real64.ofInt 2), .deemphA Real64.nan].map (cfgInRange 21) = List.replicate 8 false ∧
      [CfgWrite.post 1, .post 16, .squelchL 0, .hammingW (List.replicate 21 3), .deemphA (Real64.ofInt 1),
          .firHamming true, .singleFreq false, .deemphEn true, .dcblockEn true].map (cfgInRange 21) =
        List.replicate 9 true := by decide +kernel

theorem test_witness_RunPhaseLocksConfiguration : State.reset.phase = .run ∧ ∃ t, step State.reset = .next t :=
  ⟨rfl, _, rfl⟩

/-- A frame in Text with the longest text, its terminator pending. -/
def inText : State := withOp (inTag 3#3 (List.replicate 244 0x58#8)) 0x04#8 [0x83]

theorem inText_inv : Inv inText := by
  refine ⟨⟨by decide, by decide, by decide, by decide, by decide +kernel, by decide +kernel⟩, fun _ => ⟨?_, ?_, ?_, ?_⟩⟩
  · exact ⟨by decide, by decide, by decide, by decide⟩
  · exact ⟨by decide, by decide +kernel, by decide +kernel⟩
  · show 0 < 8
    decide
  · exact ⟨by decide, by decide +kernel, .inr (.inr (.inr (.inl ⟨rfl, by decide +kernel, by decide +kernel⟩)))⟩

theorem test_witness_StepKeepsInvariant : Inv inText ∧ ∃ t, step inText = .next t :=
  ⟨inText_inv, by
    obtain ⟨t, h, -⟩ := next_of_after (o := step inText) (p := fun _ => true) (by decide +kernel)
    exact ⟨t, h⟩⟩

/-- A state whose correlator history is no number, at the sample before a tick. -/
def brokenHistory : State :=
  { State.reset with stream := [0], bsync := { Bsync.reset with clock := 9, pC := Real64.nan } }

theorem test_witness_RunStatesNeverOverflowOrLoseTag :
    Inv brokenHistory ∧ brokenHistory.phase = .run ∧ ∃ f, step brokenHistory = .fault f := by
  refine ⟨⟨⟨by decide, by decide, by decide, by decide, by decide +kernel, by decide +kernel⟩, fun _ => ⟨?_, ?_, ?_, ?_⟩⟩,
    rfl, ?_⟩
  · exact ⟨by decide, by decide, by decide, by decide⟩
  · exact ⟨by decide, by decide +kernel, by decide +kernel⟩
  · show 0 < 8
    decide
  · exact ⟨by decide, by decide, .inl ⟨rfl, rfl, by decide⟩⟩
  · have h : (match step brokenHistory with | .fault _ => true | _ => false) = true := by decide +kernel
    split at h
    · next f hf => exact ⟨f, hf⟩
    · cases h

theorem ringGet_zero (i : Nat) : ringGet (Vector.replicate BITLEN (⟨0#64⟩ : Real64)) i = ⟨0#64⟩ := by simp [ringGet]

theorem zero_bounded (n : Nat) : Bounded n ⟨0#64⟩ := ⟨by decide, by rw [show Real64.units ⟨0#64⟩ = 0 by decide]; omega⟩

/-- Every state with the synchronizer as RESET leaves it has bounded real values. -/
theorem reset_bsync_numericOk {s : State} (h : s.bsync = Bsync.reset) (hn : s.par.integLen ≤ 2 ^ 20) : NumericOk s := by
  unfold NumericOk
  rw [h]
  refine ⟨hn, ⟨rfl, zero_bounded _⟩, ⟨zero_bounded _, zero_bounded _⟩, ⟨zero_bounded _, zero_bounded _⟩,
    ⟨zero_bounded _, zero_bounded _⟩, fun i => ?_⟩
  simp only [Bsync.reset, ringGet_zero]
  exact ⟨zero_bounded _, zero_bounded _, zero_bounded _, zero_bounded _, zero_bounded _⟩

theorem test_witness_NoFaultUnderReferenceParameters :
    inText.par.trig = .reference ∧ Inv inText ∧ NumericOk inText ∧ inText.phase = .run :=
  ⟨rfl, inText_inv, reset_bsync_numericOk rfl (by decide), rfl⟩

/-- What a BS_FEED from a state leaves, when it answers. -/
def fed (x : Int) (s : State) : Option State := (bsFeed x s).toOption

theorem ok_of_fed {x : Int} {s : State} (h : (fed x s).isSome = true) : ∃ t, bsFeed x s = .ok t := by
  cases hb : bsFeed x s with
  | ok t => exact ⟨t, rfl⟩
  | error f => simp [fed, hb, Except.toOption] at h

/-- The reset state with the clock at its bound and the adjustment at its own. -/
def lateClock : State := { State.reset with bsync := { Bsync.reset with clock := 11, ea := Real64.ofInt 2 } }

theorem lateClock_feeds : ∃ t, bsFeed 32767 lateClock = .ok t := ok_of_fed (by decide +kernel)

theorem test_witness_IndexAndTimingStayInRange :
    lateClock.bsync.is < 40 ∧ Real64.le (Real64.ofInt (-2)) lateClock.bsync.ea = true ∧
      Real64.le lateClock.bsync.ea (Real64.ofInt 2) = true ∧ ∃ t, feedAll [32767] lateClock = .ok t := by
  refine ⟨by decide, by decide +kernel, by decide +kernel, ?_⟩
  obtain ⟨t, h⟩ := lateClock_feeds
  exact ⟨t, by simp only [feedAll, h, ok_bind]⟩

theorem test_witness_ClockStaysBelowTwelve :
    lateClock.bsync.clock ≤ 11 ∧ Real64.le (Real64.ofInt (-2)) lateClock.bsync.ea = true ∧
      Real64.le lateClock.bsync.ea (Real64.ofInt 2) = true ∧ ∃ t, bsFeed 32767 lateClock = .ok t :=
  ⟨by decide, by decide +kernel, by decide +kernel, lateClock_feeds⟩

/-- An empty block, one with bytes at the edges of u8 in windows about to end, and one of two samples with both filters
on. -/
theorem test_witness_CondBlockProducesTheSamplesDue :
    (withD 1).phase = .run ∧ (Instr.condBlock []).wellFormed = true ∧ (Instr.condBlock [0, 255]).wellFormed = true ∧
      (withD 1).cond.decCnt < (withD 1).par.downsample ∧ (withD 1).cond.postCnt < (withD 1).cfg.post ∧
      after
        (exec (.condBlock [137, 127, 137, 127])
          { withD 1 with cfg := { (withD 1).cfg with deemphEn := true, dcblockEn := true } })
        (fun t => decide (t.stream.length = 2)) = true := by decide +kernel

theorem test_witness_CondBlockFrame : ∃ t, exec (.condBlock [0, 255]) State.reset = .next t := ⟨_, rfl⟩

/-- For each position of the rotation, a pair that does not end its window. -/
theorem test_witness_CondBlockAddsOneRotatedPair :
    State.reset.phase = .run ∧ (0 : Int) ≤ 0 ∧ (255 : Int) < 256 ∧
      ({ State.reset with cond := { Cond.reset with rotIdx := 3, decCnt := 19 } } : State).cond.decCnt + 1 <
        State.reset.par.downsample := by decide

/-- Each position of the rotation; a post-downsample window that ends with the pair, and one that stays one short. -/
theorem test_witness_CondBlockEndsBothWindows :
    ((withD 1).phase = .run ∧ (withD 1).cond.decCnt + 1 = (withD 1).par.downsample ∧ (withD 1).cfg.squelchL = 0) ∧
      (withD 1).cond.postCnt + 1 = (withD 1).cfg.post ∧
      (let s := { withD 1 with cfg := { Cfg.default with post := 16 }, cond := { Cond.reset with postCnt := 14 } }
       s.cond.postCnt + 1 < s.cfg.post) ∧
      (rotatePair 0 0x00#8 0xFF#8, rotatePair 1 0x00#8 0xFF#8, rotatePair 2 0x00#8 0xFF#8, rotatePair 3 0x00#8 0xFF#8) =
        ((0x00#8, 0xFF#8), (0x00#8, 0x00#8), (0xFF#8, 0x00#8), (0xFF#8, 0xFF#8)) := by decide

/-- A block without a decimated pair, and one with a pair. -/
theorem test_witness_SquelchFlagsFollowTheCount :
    (withD 1).phase = .run ∧ (Instr.condBlock []).wellFormed = true ∧ (Instr.condBlock [0, 255]).wellFormed = true ∧
      (condPairs (withD 1).par (withD 1).cfg (withD 1).cond (iqPairs ([].map (BitVec.ofInt 8)))).pairs = [] ∧
      (condPairs (withD 1).par (withD 1).cfg (withD 1).cond (iqPairs ([0, 255].map (BitVec.ofInt 8)))).pairs ≠ [] ∧
      (withD 1).cfg.squelchL = 0 ∧
      after
        (exec (.condBlock [127, 127])
          { withD 1 with cond := { (withD 1).cond with silentCount := 1 }, cfg := { (withD 1).cfg with squelchL := 1 } })
        (fun t => t.cond.mute) = true := by decide +kernel

theorem test_witness_PartitionIsNotSeen :
    State.reset.phase = .run ∧ (Instr.condBlock [0, 255]).wellFormed = true ∧
      (Instr.condBlock [255, 0]).wellFormed = true ∧ State.reset.cfg.dcblockEn = false ∧
      State.reset.cfg.squelchL = 0 := by decide

theorem test_witness_CondAndSyncCommute :
    State.reset.phase = .run ∧
      ∃ a b, exec (.condBlock [0, 255]) State.reset = .next a ∧ feedStream 1000 a = .next b := by
  have h : after (exec (.condBlock [0, 255]) State.reset) (fun a => after (feedStream 1000 a) fun _ => true) = true := by
    decide +kernel
  obtain ⟨a, ha, h'⟩ := next_of_after h
  obtain ⟨b, hb, -⟩ := next_of_after h'
  exact ⟨rfl, a, b, ha, hb⟩

theorem test_witness_PhaseReductionRange :
    FOURPI.isFinite = true ∧ (Real64.neg FOURPI).isFinite = true ∧ Real64.zero.isFinite = true := by decide +kernel

/-- A level of 0 before a sample that is not 0, and the smallest positive level before a sample of 0. -/
theorem test_witness_LevelPositiveAfterSignal :
    (State.reset.bsync.lin.isFinite = true ∧ Real64.le Real64.zero State.reset.bsync.lin = true ∧ (1 : Int) ≠ 0 ∧
        isS16 1 = true ∧ isS16 (-32768) = true) ∧
      Real64.isFinite ⟨1#64⟩ = true ∧ Real64.lt Real64.zero ⟨1#64⟩ = true ∧ isS16 0 = true := by decide

theorem test_witness_FirstBitAfterClearIsOne :
    (Real64.isNaN ⟨1#64⟩ = false ∧ Real64.isZero ⟨1#64⟩ = false) ∧
      Real64.isNaN ⟨0x8000000000000000#64⟩ = false ∧ Real64.isZero ⟨0x8000000000000000#64⟩ = true := by decide

/-- The reset state, some samples after the last tick and with a correlator history. -/
def atClock (n : Nat) (pC ppC : Int) : State :=
  { State.reset with bsync := { Bsync.reset with clock := n, pC := Real64.ofInt pC, ppC := Real64.ofInt ppC } }

/-- The ninth sample after a tick. -/
theorem test_witness_BsFeedBetweenTicks :
    (atClock 8 0 0).phase = .run ∧ isS16 32767 = true ∧ (levelAfter (atClock 8 0 0) 32767).isNaN = false ∧
      mod4pi ((Real64.zero.add DPHI_H).sub (VFOPLL.mul Real64.zero)) = .ok DPHI_H ∧
      mod4pi ((Real64.zero.add DPHI_L).sub (VFOPLL.mul Real64.zero)) = .ok DPHI_L ∧
      ((Real64.ofInt 10).add (atClock 8 0 0).bsync.ea).isNaN = false ∧
      Real64.le ((Real64.ofInt 10).add (atClock 8 0 0).bsync.ea) (Real64.ofInt (8 + 1 : Nat)) = false := by
  decide +kernel

/-- Whether a BS_FEED of `x` from phases at 0 meets all hypotheses of the three clauses of BsFeedAtTick: the minimum, the
maximum, neither. -/
def tickClauses (s : State) (x : Int) : Bool × Bool × Bool :=
  let m := afterMixers s x DPHI_H DPHI_L
  let c := correlation s.par.trig m.csample m.is
  let err := BITPLL.mul (c.sub m.ppC)
  let sumQ := recentSum m.qsample m.is s.par.integLen
  let sumI := recentSum m.isample m.is s.par.integLen
  let sgQ := if m.sgQ = .zero then signOf sumQ else m.sgQ
  let sgI := if m.sgI = .zero then signOf sumI else m.sgI
  let threshold := (Real64.ofInt 10).add s.bsync.ea
  let common :=
    decide (s.phase = .run) && isS16 x && !(levelAfter s x).isNaN && !threshold.isNaN &&
      Real64.le threshold (Real64.ofInt (s.bsync.clock + 1 : Nat)) && !c.isNaN && !m.pC.isNaN && !m.ppC.isNaN
  let low := Real64.lt m.pC c && Real64.lt m.pC m.ppC
  let high := Real64.lt c m.pC && Real64.lt m.ppC m.pC
  (common && low && !err.isNaN && !sumQ.isNaN && !(sumQ.mul (Real64.ofInt sgQ.toInt)).isNaN,
    common && high && !err.isNaN && !sumI.isNaN && !(sumI.mul (Real64.ofInt sgI.toInt)).isNaN, common && !low && !high)

/-- The tenth sample after a tick, with a history that makes a minimum, a maximum, or neither. -/
theorem test_witness_BsFeedAtTick :
    mod4pi ((Real64.zero.add DPHI_H).sub (VFOPLL.mul Real64.zero)) = .ok DPHI_H ∧
      mod4pi ((Real64.zero.add DPHI_L).sub (VFOPLL.mul Real64.zero)) = .ok DPHI_L ∧
      tickClauses (atClock 9 (-1) 0) 1000 = (true, false, false) ∧
      tickClauses (atClock 9 1 0) (-1000) = (false, true, false) ∧
      tickClauses (atClock 9 0 0) 0 = (false, false, true) := by decide +kernel

/-- The tenth sample after a tick, with one number of the synchronizer's tick changed. -/
def brokenTick (pC ppC : Real64) (qsample isample : Ring) : State :=
  { State.reset with
    bsync := { Bsync.reset with clock := 9, pC := pC, ppC := ppC, qsample := qsample, isample := isample } }

/-- Whether the last four clauses' premises hold of a BS_FEED of 0 at a tick: C or pC no number, ppC no number where it is
compared, the Q branch with its integral or error no number, the I branch so. -/
def tickBreaks (s : State) : Bool × Bool × Bool × Bool :=
  let m := afterMixers s 0 DPHI_H DPHI_L
  let c := correlation s.par.trig m.csample m.is
  let err := BITPLL.mul (c.sub m.ppC)
  (c.isNaN || m.pC.isNaN, (Real64.lt m.pC c || Real64.lt c m.pC) && m.ppC.isNaN,
    Real64.lt m.pC c && Real64.lt m.pC m.ppC &&
      ((recentSum m.qsample m.is s.par.integLen).isNaN || err.isNaN),
    Real64.lt c m.pC && Real64.lt m.ppC m.pC &&
      ((recentSum m.isample m.is s.par.integLen).isNaN || err.isNaN))

/-- A ring with one entry that is no number. -/
def nanRing : Ring := ringSet Bsync.reset.hsample 0 Real64.nan

/-- The reset state with one number of the synchronizer replaced by NaN or infinity, one for each clause. -/
theorem test_witness_NanAtAComparisonIsAFault :
    (levelAfter { State.reset with bsync := { Bsync.reset with lin := Real64.nan } } 1).isNaN = true ∧
      ((Real64.nan.add DPHI_H).sub (VFOPLL.mul Real64.zero)).isFinite = false ∧
      ((Real64.zero.add DPHI_L).sub (VFOPLL.mul ⟨0x7FF0000000000000#64⟩)).isFinite = false ∧
      mod4pi ((Real64.zero.add DPHI_H).sub (VFOPLL.mul Real64.zero)) = .ok DPHI_H ∧
      mod4pi ((Real64.zero.add DPHI_L).sub (VFOPLL.mul Real64.zero)) = .ok DPHI_L ∧
      ((Real64.ofInt 10).add Real64.nan).isNaN = true ∧
      Real64.le ((Real64.ofInt 10).add brokenHistory.bsync.ea) (Real64.ofInt (brokenHistory.bsync.clock + 1 : Nat)) =
        true ∧
      tickBreaks brokenHistory = (true, false, false, false) ∧
      tickBreaks (brokenTick (Real64.ofInt (-1)) Real64.nan Bsync.reset.qsample Bsync.reset.isample) =
        (false, true, false, false) ∧
      tickBreaks (brokenTick (Real64.ofInt (-1)) Real64.zero nanRing Bsync.reset.isample) = (false, false, true, false) ∧
      tickBreaks (brokenTick (Real64.ofInt 1) Real64.zero Bsync.reset.qsample nanRing) = (false, false, false, true) := by
  decide +kernel

theorem test_witness_BsFeedCompletes :
    State.reset.par.trig = .reference ∧ NumericOk State.reset ∧ BsyncOk State.reset ∧ LinkOk State.reset ∧
      FsmOk State.reset ∧ State.reset.phase = .run ∧ isS16 32767 = true ∧ isS16 (-32768) = true :=
  ⟨rfl, reset_bsync_numericOk rfl (by decide), ⟨by decide, by decide +kernel, by decide +kernel⟩,
    (show 0 < 8 by decide), ⟨by decide, by decide, .inl ⟨rfl, rfl, by decide⟩⟩, rfl, by decide, by decide⟩

/-- The link holding `n` bits. -/
def holding (n : Nat) (s : State) : State := { s with link := { outbits := 0x02#8, nbits := n } }

theorem test_witness_BitInShiftsIntoLink :
    (holding 6 State.reset).phase = .run ∧ ((0 : Int) = 0 ∨ (0 : Int) = 1) ∧ (holding 6 State.reset).link.nbits < 7 := by
  decide

/-- The eighth bit consumes one bit in HeadLost, and accepts a frame in End. -/
theorem test_witness_EighthBitCallsFrameMachine :
    (holding 7 State.reset).link.nbits = 7 ∧
      (fsmByte 0x81#8 (holding 8 State.reset)).toOption.any (fun p => decide (p.1 = .consumed 1)) = true ∧
      (fsmByte 0x81#8 (holding 8 (inTag 6#3 shortFrame))).toOption.any (fun p => decide (p.1 = .accepted)) = true := by
  decide +kernel

theorem test_witness_BitInCompletes :
    (holding 7 State.reset).phase = .run ∧ LinkOk (holding 7 State.reset) ∧ FsmOk (holding 7 State.reset) :=
  ⟨rfl, (show 7 < 8 by decide), by decide, by decide, .inl ⟨rfl, rfl, by decide⟩⟩

/-- A u8 at each edge of its range, in RUN, for the seven FSM_BYTE statements. -/
theorem test_witness_HeadLostCountsPrekey :
    State.reset.phase = .run ∧ (0 : Int) ≤ 0 ∧ (0 : Int) < 256 ∧ (0 : Int) ≤ 255 ∧ (255 : Int) < 256 := by decide

theorem test_witness_HeadFoundHandsByteToSync :
    (inTag 1#3 []).phase = .run ∧ (0 : Int) ≤ 254 ∧ (254 : Int) < 256 ∧ (0 : Int) ≤ 255 ∧ (255 : Int) < 256 := by decide

theorem syncDistance_far (k : Fin 9) :
    3 < popcount (syncWindow 0x55#8 0x5555555555#40 k.val ^^^ 0x0116162AAB#40) := by
  revert k
  decide +kernel

/-- Sync: the 40th bit matches; the 55th does not; a byte below the limits is taken whole. -/
theorem test_witness_SyncTakesBitsOldestFirst :
    ((∀ k, 1 ≤ k → k ≤ 7 → ¬syncHit 0x01#8 0x16162AAB00#40 32 k ∧ 32 + k < 55) ∧
        syncHit 0x01#8 0x16162AAB00#40 32 (7 + 1)) ∧
      ((∀ k, 1 ≤ k → k ≤ 6 → ¬syncHit 0x55#8 0x5555555555#40 48 k ∧ 48 + k < 55) ∧
        ¬syncHit 0x55#8 0x5555555555#40 48 (6 + 1) ∧ 55 ≤ 48 + (6 + 1)) ∧
      ∀ k, 1 ≤ k → k ≤ 8 → ¬syncHit 0x55#8 0x5555555555#40 46 k ∧ 46 + k < 55 := by
  have far : ∀ k, k ≤ 8 → ∀ n, ¬syncHit 0x55#8 0x5555555555#40 n k := fun k hk n h => by
    have h3 : 3 < popcount (syncWindow 0x55#8 0x5555555555#40 k ^^^ 0x0116162AAB#40) := syncDistance_far ⟨k, by omega⟩
    have h4 := h.2
    omega
  refine ⟨⟨fun k h1 h2 => ⟨fun h => ?_, by omega⟩, ⟨by decide, by decide +kernel⟩⟩,
    ⟨fun k h1 h2 => ⟨far k (by omega) _, by omega⟩, far 7 (by decide) _, by decide⟩,
    fun k h1 h2 => ⟨far k h2 _, by omega⟩⟩
  have := h.1
  omega

theorem test_witness_TextAppendsUntilTerminator :
    (inTag 3#3 (List.replicate 246 0#8)).phase = .run ∧ (inTag 3#3 (List.replicate 246 0#8)).fsm.raw.length < 247 ∧
      (inTag 3#3 (List.replicate 247 0#8)).fsm.raw.length = 247 := by decide +kernel

theorem test_witness_FirstCrcByteIsAppended :
    (inTag 4#3 (List.replicate 246 0#8)).phase = .run ∧ (inTag 4#3 (List.replicate 246 0#8)).fsm.raw.length < 247 ∧
      (inTag 4#3 (List.replicate 247 0#8)).fsm.raw.length = 247 := by
  decide +kernel

theorem test_witness_SecondCrcByteIsAppended :
    (inTag 5#3 (List.replicate 246 0#8)).phase = .run ∧ (inTag 5#3 (List.replicate 246 0#8)).fsm.raw.length < 247 ∧
      (inTag 5#3 (List.replicate 247 0#8)).fsm.raw.length = 247 := by
  decide +kernel

/-- End: a frame with a zero CRC, one whose first passing flip is bit 0 of the first byte, and one (a single byte) that no
flip puts right. -/
theorem test_witness_EndJudgesTheFrame :
    crcGen shortFrame = 0#16 ∧
      (crcGen [0x00#8, 0x83#8, 0x4B#8, 0xAF#8] ≠ 0#16 ∧ crcGen [0x01#8, 0x83#8, 0x4B#8, 0xAF#8] = 0#16) ∧
      crcGen [0x03#8] ≠ 0#16 ∧ ∀ j < 8, crcGen [0x03#8 ^^^ (1#8 <<< j)] ≠ 0#16 := by decide +kernel

theorem test_witness_SingleFlipIsCorrected :
    shortFrame.length ≤ 247 ∧ crcGen shortFrame = 0#16 ∧ 3 < shortFrame.length ∧ 7 < 8 ∧
      (inTag 6#3 (flipBit shortFrame 3 7)).fsm.raw = flipBit shortFrame 3 7 := by decide +kernel

theorem test_witness_DoubleFlipIsDropped :
    shortFrame.length ≤ 247 ∧ crcGen shortFrame = 0#16 ∧ 0 < shortFrame.length ∧ 3 < shortFrame.length ∧
      ((0, 0) : Nat × Nat) ≠ (3, 7) ∧
      (inTag 6#3 (flipBit (flipBit shortFrame 0 0) 3 7)).fsm.raw = flipBit (flipBit shortFrame 0 0) 3 7 := by
  decide +kernel

/-- Every state of the frame machine answers. -/
theorem test_witness_EndOnlyAfterTerminatorAndTwoBytes :
    [0#3, 1#3, 2#3, 3#3, 4#3, 5#3, 6#3].all (fun tag => (fsmByte 0x83#8 (inTag tag [0x01#8])).toBool) = true := by
  decide +kernel

/-- The shortest frame that has every field. -/
theorem test_witness_FrameLayoutCoversTheFrame :
    (frameF.len = frameF.bytes.length ∧ 27 ≤ frameF.len) ∧ frameF.len = 27 := by decide

theorem test_witness_CrcGenReturnsReflectedRegister : ∀ b ∈ [(0 : Int), 255], 0 ≤ b ∧ b < 256 := by decide

theorem test_witness_CrcCheckTestsPlainRegister : ∀ b ∈ [(0 : Int), 255], 0 ≤ b ∧ b < 256 := by decide

theorem test_witness_OddParityMakesOddBytes : (127#8).toNat < 128 ∧ 128 ≤ (128#8).toNat := by decide

theorem test_witness_CrcIsLinear : [0x01#8, 0x83#8].length = [0xFF#8, 0x00#8].length := rfl

end Sys2Proof.Tests
end

section
/-! PROOFS. The frame of COND_BLOCK (00_scope.md R8, 10_state.md R15, 20_memory.md R53). -/

namespace Sys2Proof.Machine

open Sys2Proof.Safety

theorem exec_condBlock (data : List Int) (s : State) : exec (.condBlock data) s = execCondBlock data s := rfl

/-- COND_BLOCK on an admitted block writes the conditioner and the stream and appends its events (R77, R89). -/
theorem condBlock_frame (data : List Byte) (s : State) :
    condBlock data s =
      { s with
        cond := (condBlock data s).cond
        stream := (condBlock data s).stream
        out := { s.out with events := (condBlock data s).out.events } } := rfl

/-- The same for an operation just begun, whose outputs hold nothing yet (R31, R38): the events are all it puts out. -/
theorem condBlock_beginOp_frame (data : List Byte) (s : State) :
    condBlock data (beginOp s) =
      { opOutputs s none (condBlock data (beginOp s)).out.events none with
        cond := (condBlock data (beginOp s)).cond
        stream := (condBlock data (beginOp s)).stream } :=
  condBlock_frame data (beginOp s)

/-- Settles O25: a COND_BLOCK that answers is `condBlock` on the operation just begun, which has this frame. -/
theorem condBlockFrame : Obligations.CondBlockFrame := by
  intro s t data h
  rw [exec_condBlock] at h
  obtain ⟨-, -, rfl⟩ := execCondBlock_cases h
  exact condBlock_beginOp_frame _ s

end Sys2Proof.Machine
end

section
/-! PROOFS. The configuration registers before and after the first RESET (10_state.md R17, R18,
60_exceptions.md R146). -/

namespace Sys2Proof.Machine

open Sys2Proof.Safety

variable {s : State} {w : CfgWrite} {rest : List HostItem}

/-- With no sample pending, a step serves the configuration write that is the oldest host item (R54). -/
theorem step_cfgWrite (hs : s.stream = []) (hi : s.inbox = .cfgWrite w :: rest) :
    step s = settle { s with inbox := rest } (configWrite w { s with inbox := rest }) := by
  have hf : fetch s = .cfgWrite w { s with inbox := rest } := by
    rw [fetch_host hs, fetchHost, hi]
  rw [step, hf]

theorem configWrite_run (h : s.phase = .run) : configWrite w s = .refused .cfgLocked := by
  simp [configWrite, h]

theorem configWrite_config (h : s.phase = .config) :
    configWrite w s =
      if cfgInRange s.par.downsample w then .next { beginOp s with cfg := cfgStore w s.cfg }
      else .refused .cfgRange := by
  simp [configWrite, h]

/-- In CONFIG a write in range stores its register, and one out of range leaves its mark (R17). -/
theorem step_cfgWrite_config (hs : s.stream = []) (hi : s.inbox = .cfgWrite w :: rest) (hp : s.phase = .config) :
    step s =
      if cfgInRange s.par.downsample w then
        .next { opOutputs s none [] none with inbox := rest, cfg := cfgStore w s.cfg }
      else .next { opOutputs s none [] none with inbox := rest, refusals := s.refusals ++ [.cfgRange] } := by
  rw [step_cfgWrite hs hi, configWrite_config (s := { s with inbox := rest }) hp]
  split
  · rfl
  · exact settle_refused rfl

/-- Settles O15: the lock is tested first, and the refusal leaves its mark. -/
theorem configWriteLockedInRun : Obligations.ConfigWriteLockedInRun := by
  intro s w rest hs hi hp
  rw [step_cfgWrite hs hi, configWrite_run (s := { s with inbox := rest }) hp]
  exact settle_refused rfl

/-- Settles O11: the phase is tested before the operand, in each stateful operation. -/
theorem statefulOperationsNeedReset : Obligations.StatefulOperationsNeedReset := by
  intro s data n h
  exact ⟨runOnly_config h, runOnly_config h, runOnly_config h, runOnly_config h, runOnly_config h, runOnly_config h,
    runOnly_config h, runOnly_config h, runOnly_config h, runOnly_config h⟩

/-- Settles O16: one clause for each register, by the register's range. -/
theorem configWriteStoresInRange : Obligations.ConfigWriteStoresInRange := by
  intro s rest w hs hi hp stored turnedAway
  have hstep := step_cfgWrite_config hs hi hp
  refine ⟨?post, ?squelchL, ?negative, ?hammingW, ?deemphA, ?firHamming, ?singleFreq, ?deemphEn, ?dcblockEn⟩
  case post =>
    rintro n rfl
    simpa [cfgInRange, cfgStore] using hstep
  case squelchL =>
    rintro n rfl
    simpa [cfgInRange, cfgStore] using hstep
  case negative =>
    rintro n hn (rfl | rfl)
    · simpa [cfgInRange, show ¬1 ≤ n by omega] using hstep
    · simpa [cfgInRange, show ¬0 ≤ n by omega] using hstep
  case hammingW =>
    rintro ws rfl
    simpa [cfgInRange, cfgStore] using hstep
  case deemphA =>
    rintro a rfl
    simpa [cfgInRange, cfgStore] using hstep
  case firHamming =>
    rintro v rfl
    exact hstep
  case singleFreq =>
    rintro v rfl
    exact hstep
  case deemphEn =>
    rintro v rfl
    exact hstep
  case dcblockEn =>
    rintro v rfl
    exact hstep

end Sys2Proof.Machine
end

section
/-! PROOFS. What a step can do, each outcome as one named update of the state without the item it took
(10_state.md R17, R18, 20_memory.md R52 to R55, 60_exceptions.md R146). -/

namespace Sys2Proof.Machine

/-! ### The row of FSM_BYTE that the decoder selects (30_encoding.md R61) -/

/-- An operation whose key is that of FSM_BYTE and which, in the state `st`, is FSM_BYTE of that state (R61, R116). -/
def RunsFsmByte (st : BitVec 3) (i : Instr) : Prop :=
  keyOp i.key = 4 ∧ ∃ b, ∀ s : State, s.fsm.state = st → exec i s = fsmOperation fsmByte b s

variable {i : Instr} {key : Byte} {ops : List Int} {st : BitVec 3}

/-- A row whose rule is that of the state `st` is FSM_BYTE there. -/
theorem runsFsmByte_of_decodeOne {mk : Int → Instr} {rule : Byte → State → Except Fault (FsmResult × State)}
    (h : decodeOne mk ops = .ok i) (hkey : ∀ b, keyOp (mk b).key = 4)
    (hexec : ∀ b s, exec (mk b) s = fsmOperation rule b s)
    (hrule : ∀ v s, s.fsm.state = st → fsmByte v s = rule v s) : RunsFsmByte st i := by
  obtain ⟨b, -, rfl⟩ := decodeOne_ok h
  refine ⟨hkey b, b, fun s hs => ?_⟩
  have hbegin : ∀ v, fsmByte v (beginOp s) = rule v (beginOp s) := fun v => hrule v _ hs
  simp only [hexec, fsmOperation, hbegin]

/-- Each of the seven rows that a state tag selects has the rule of that state. -/
theorem runsFsmByte_of_decodeFsm (h : decodeFsm st ops = .ok i) : RunsFsmByte st i := by
  unfold decodeFsm at h
  split at h
  case h_8 => cases h
  all_goals
    next hst =>
      exact runsFsmByte_of_decodeOne h (fun _ => by simp [keyOp, Instr.key]) (fun _ _ => rfl)
        fun v s hs => by simp [fsmByte, hs, hst]

/-- The decoder selects an operation by `op` alone, but for the state tag of FSM_BYTE (R61, R62). -/
theorem keyOp_of_decode (h : decode key ops = .ok i) : keyOp i.key = keyOp key := by
  unfold decode at h
  split at h
  · cases h
  split at h
  case _ hk =>
    split at h
    · cases h; exact hk.symm
    · cases h
  case _ hk => cases h; exact hk.symm
  case _ hk => obtain ⟨a, -, rfl⟩ := decodeOne_ok h; exact hk.symm
  case _ hk => obtain ⟨a, -, rfl⟩ := decodeOne_ok h; exact hk.symm
  case _ hk => exact (runsFsmByte_of_decodeFsm h).1.trans hk.symm
  case _ hk => cases h; exact hk.symm
  case _ hk => cases h; exact hk.symm
  case _ hk => obtain ⟨a, b, -, rfl⟩ := decodeTwo_ok h; exact hk.symm
  case _ hk => obtain ⟨a, b, -, rfl⟩ := decodeTwo_ok h; exact hk.symm
  case _ hk => obtain ⟨a, -, rfl⟩ := decodeOne_ok h; exact hk.symm
  case _ => cases h

theorem keyOp_formKey (key : Byte) (st : BitVec 3) : keyOp (formKey key st) = keyOp key := by
  unfold formKey
  split
  · rw [keyOp, keyOp]
    congr 1
    apply BitVec.eq_of_getLsbD_eq
    intro j hj
    interval_cases j <;> simp
  · rfl

theorem keySt_formKey (h : keyOp key = 4) : keySt (formKey key st) = st := by
  rw [formKey, if_pos h, keySt]
  apply BitVec.eq_of_getLsbD_eq
  intro j hj
  interval_cases j <;> simp

/-- FSM_BYTE is decoded by the frame machine's own state tag (R61). -/
theorem decodeFsm_of_decode (h : decode (formKey key st) ops = .ok i) (hi : keyOp i.key = 4) :
    decodeFsm st ops = .ok i := by
  have hop : keyOp (formKey key st) = 4 := (keyOp_of_decode h).symm.trans hi
  have hst : keySt (formKey key st) = st := keySt_formKey ((keyOp_formKey key st).symm.trans hop)
  unfold decode at h
  split at h
  · cases h
  · simpa only [hop, hst] using h


/-! ### The effect of a step -/

/-- What an operation that answers `t` can have made of the state `s` it came to. -/
inductive StepEffect (s t : State) : Prop where
  /-- An idle step. -/
  | idle (h : t = beginOp s)
  /-- A refusal (R146). -/
  | refused (r : Refusal) (h : t = markRefused r (beginOp s))
  /-- A configuration write in range (R17). -/
  | stored (w : CfgWrite) (hp : s.phase = .config) (hw : cfgInRange s.par.downsample w = true)
      (h : t = { beginOp s with cfg := cfgStore w s.cfg })
  /-- RESET, which waits until no sample is pending (R158; log 8). -/
  | reset (hs : s.stream = []) (h : t = resetState s)
  /-- COND_BLOCK (R77). -/
  | conditioned (data : List Byte) (hp : s.phase = .run) (h : t = condBlock data (beginOp s))
  /-- BS_FEED of a pending sample or of the host's (R94). -/
  | fed (x : Int) (h : bsFeed x (beginOp s) = .ok t)
  /-- BIT_IN (R114). -/
  | linked (bit : Bool) (h : linkBit bit (beginOp s) = .ok t)
  /-- FSM_BYTE (R116). -/
  | framed (b : Byte) (r : FsmResult) (u : State) (h : fsmByte b (beginOp s) = .ok (r, u))
      (ht : t = setResult (.fsm r.toInt) u)
  /-- An operation of the CRC engine or the parity (R53). -/
  | returned (r : OpResult) (h : t = setResult r (beginOp s))

variable {s t : State}

theorem stepEffect_of_configWrite {w : CfgWrite} (h : configWrite w s = .next t) : StepEffect s t := by
  unfold configWrite at h
  split at h
  · cases h
  · next hp =>
    split at h
    · next hw =>
      have hp : s.phase = .config := by cases hc : s.phase <;> simp_all
      cases h
      exact .stored w hp hw rfl
    · cases h

theorem stepEffect_of_fsmOperation {b : Int} (h : fsmOperation fsmByte b s = .next t) : StepEffect s t := by
  obtain ⟨v, -, h⟩ := withOperand_next (runOnly_next h).2
  cases hf : fsmByte v (beginOp s) with
  | ok p =>
    rw [hf] at h
    cases h
    exact .framed v p.1 p.2 hf rfl
  | error f =>
    rw [hf] at h
    cases h

theorem stepEffect_of_combinational {α : Type} {e : Except Refusal α} {f : α → OpResult}
    (h : withOperand e (fun a => combinational (f a) s) = .next t) : StepEffect s t := by
  obtain ⟨a, -, h⟩ := withOperand_next h
  cases h
  exact .returned (f a) rfl

/-- What an operation other than FSM_BYTE can do. -/
theorem stepEffect_of_exec (h : exec i s = .next t) (hi : keyOp i.key ≠ 4)
    (hs : s.stream = [] ∨ i = .condBlock ops) : StepEffect s t := by
  cases i with
  | reset =>
    cases h
    exact .reset (hs.resolve_right (by simp)) rfl
  | condBlock data =>
    obtain ⟨hp, -, ht⟩ := execCondBlock_cases h
    exact .conditioned _ hp ht
  | bsFeed x =>
    obtain ⟨v, -, h⟩ := withOperand_next (runOnly_next h).2
    exact .fed v (ofExcept_next h)
  | bitIn v =>
    obtain ⟨bit, -, h⟩ := withOperand_next (runOnly_next h).2
    exact .linked bit (ofExcept_next h)
  | crcGen data => exact stepEffect_of_combinational h
  | crcCheck data => exact stepEffect_of_combinational h
  | crcFold crc b => exact stepEffect_of_combinational h
  | crcFoldRev crc b => exact stepEffect_of_combinational h
  | oddParity c => exact stepEffect_of_combinational h
  | fsmByteHeadLost b | fsmByteHeadFound b | fsmByteSync b | fsmByteText b | fsmByteCrc1 b | fsmByteCrc2 b
  | fsmByteEnd b => simp [keyOp, Instr.key] at hi

/-- What an operation that the decoder selected can do. -/
theorem stepEffect_of_decode (hd : decode (formKey key s.fsm.state) ops = .ok i) (h : exec i s = .next t)
    (hs : s.stream = [] ∨ i = .condBlock ops) : StepEffect s t := by
  by_cases hi : keyOp i.key = 4
  · obtain ⟨-, b, hb⟩ := runsFsmByte_of_decodeFsm (decodeFsm_of_decode hd hi)
    rw [hb s rfl] at h
    exact stepEffect_of_fsmOperation h
  · exact stepEffect_of_exec h hi hs

/-- `u` is `s` with at most a sample, a host item or a schedule entry taken out of its queue. -/
def Dequeued (s u : State) : Prop :=
  u = { s with stream := u.stream, inbox := u.inbox, schedule := u.schedule } ∧ ∀ x ∈ u.stream, x ∈ s.stream

/-- Every step takes at most what it serves out of the queues, and then has one of the effects. -/
theorem step_effect (h : step s = .next t) : ∃ u, Dequeued s u ∧ StepEffect u t := by
  rcases step_cases h with ⟨-, -, h⟩ | ⟨x, xs, more, hs, h⟩ | ⟨w, rest, more, -, -, h⟩ |
    ⟨key, ops, rest, more, i, -, hd, hs, h⟩ | ⟨rest, more, r, h⟩
  · exact ⟨s, ⟨rfl, fun _ hx => hx⟩, .idle h⟩
  · refine ⟨_, ⟨rfl, fun y hy => ?_⟩, .fed x h⟩
    rw [hs]
    exact List.mem_cons_of_mem x hy
  · exact ⟨{ s with schedule := more, inbox := rest }, ⟨rfl, fun _ hx => hx⟩, stepEffect_of_configWrite h⟩
  · exact ⟨{ s with schedule := more, inbox := rest }, ⟨rfl, fun _ hx => hx⟩, stepEffect_of_decode hd h hs⟩
  · exact ⟨{ s with schedule := more, inbox := rest }, ⟨rfl, fun _ hx => hx⟩, .refused r h⟩

/-! ### The configuration in RUN (10_state.md R17, R18) -/

/-- The phase is RUN still, and the configuration and the parameters are unchanged. -/
def Locked (s t : State) : Prop := t.phase = .run ∧ t.cfg = s.cfg ∧ t.par = s.par

theorem locked_of_bsFeed {x : Int} (hp : s.phase = .run) (h : bsFeed x s = .ok t) : Locked s t := by
  rw [bsFeed_frame h]
  exact ⟨hp, rfl, rfl⟩

theorem locked_of_linkBit {bit : Bool} (hp : s.phase = .run) (h : linkBit bit s = .ok t) : Locked s t := by
  rcases (linkBit_frame h).1 with ht | ht
  · rw [ht]
    exact ⟨hp, rfl, rfl⟩
  · rw [ht]
    exact ⟨hp, rfl, rfl⟩

theorem locked_of_fsmByte {b : Byte} {r : FsmResult} (hp : s.phase = .run) (h : fsmByte b s = .ok (r, t)) :
    Locked s t := by
  have hf := (fsmByte_frame h).1
  exact ⟨hf.phase.trans hp, hf.cfg, hf.par⟩

/-- Only a configuration write changes a register, and it is locked in RUN; RESET leads to RUN and keeps them. -/
theorem StepEffect.locked (h : StepEffect s t) (hp : s.phase = .run) : Locked s t := by
  cases h with
  | idle h => subst h; exact ⟨hp, rfl, rfl⟩
  | refused r h => subst h; exact ⟨hp, rfl, rfl⟩
  | stored w hc => rw [hp] at hc; cases hc
  | reset hs h => subst h; exact ⟨rfl, rfl, rfl⟩
  | conditioned data _ h => subst h; exact ⟨hp, rfl, rfl⟩
  | fed x h => exact locked_of_bsFeed (s := beginOp s) hp h
  | linked bit h => exact locked_of_linkBit (s := beginOp s) hp h
  | framed b r u h ht => subst ht; exact locked_of_fsmByte (s := beginOp s) (t := u) hp h
  | returned r h => subst h; exact ⟨hp, rfl, rfl⟩

/-- Settles O17: the queues hold no configuration, and no effect of a step in RUN unlocks it. -/
theorem runPhaseLocksConfiguration : Obligations.RunPhaseLocksConfiguration := by
  intro s t hp h
  obtain ⟨u, ⟨hu, -⟩, he⟩ := step_effect h
  rw [hu] at he
  exact he.locked hp

end Sys2Proof.Machine
end

section
/-! PROOFS. The invariant of Safety.lean is kept by every step (10_state.md R20, R21, R25, R27, R32, R34 to R36,
41_bitsync.md R111, 42_frame_fsm.md R127). -/

namespace Sys2Proof.Machine

open Sys2Proof.Safety

variable {s t : State}

/-! ### What the parts of the invariant read -/

theorem configOk_congr (h : ConfigOk s) (hp : t.par = s.par) (hc : t.cfg = s.cfg) : ConfigOk t := by
  simpa only [ConfigOk, hp, hc] using h

theorem condOk_congr (h : CondOk s) (hp : t.par = s.par) (hc : t.cfg = s.cfg) (hd : t.cond = s.cond)
    (hs : t.stream = s.stream) : CondOk t := by
  simpa only [CondOk, hp, hc, hd, hs] using h

/-- What the invariant asks of the agents in RUN. -/
def AgentsOk (s : State) : Prop := CondOk s ∧ BsyncOk s ∧ LinkOk s ∧ FsmOk s

/-- An operation that changes no configuration, in RUN or in CONFIG, keeps the invariant when it keeps the agents' part
in RUN. -/
theorem inv_of_agents (h : Inv s) (hph : t.phase = s.phase) (hc : t.cfg = s.cfg) (hp : t.par = s.par)
    (ha : s.phase = .run → AgentsOk s → AgentsOk t) : Inv t :=
  ⟨configOk_congr h.1 hp hc, fun hrun => ha (hph ▸ hrun) (h.2 (hph ▸ hrun))⟩

/-- The outputs are no part of the invariant. -/
theorem inv_beginOp : Inv (beginOp s) ↔ Inv s := Iff.rfl

theorem inv_markRefused {r : Refusal} : Inv (markRefused r s) ↔ Inv s := Iff.rfl

theorem inv_setResult {r : OpResult} : Inv (setResult r s) ↔ Inv s := Iff.rfl

/-- Fewer items in the queues keep the invariant. -/
theorem inv_of_dequeued (h : Inv s) (hd : Dequeued s t) : Inv t := by
  obtain ⟨ht, hmem⟩ := hd
  refine inv_of_agents h (by rw [ht]) (by rw [ht]) (by rw [ht]) fun _ ⟨hcond, hb, hl, hf⟩ => ?_
  obtain ⟨hdec, hpost, hacc, hs16⟩ := hcond
  rw [ht]
  exact ⟨⟨hdec, hpost, hacc, fun x hx => hs16 x (hmem x hx)⟩, hb, hl, hf⟩

/-! ### Configuration and RESET (R17, R158) -/

/-- A write in range leaves the configuration in range (R17). -/
theorem configOk_cfgStore {w : CfgWrite} (h : ConfigOk s) (hw : cfgInRange s.par.downsample w = true) :
    ConfigOk { beginOp s with cfg := cfgStore w s.cfg } := by
  obtain ⟨hd, hlo, hhi, hlen, hpos, hone⟩ := h
  cases w with
  | post n =>
    simp only [cfgInRange, Bool.and_eq_true, decide_eq_true_eq] at hw
    exact ⟨hd, by simp only [cfgStore]; omega, by simp only [cfgStore]; omega, hlen, hpos, hone⟩
  | hammingW ws =>
    simp only [cfgInRange, decide_eq_true_eq] at hw
    exact ⟨hd, hlo, hhi, hw, hpos, hone⟩
  | deemphA a =>
    simp only [cfgInRange, Bool.and_eq_true] at hw
    exact ⟨hd, hlo, hhi, hlen, hw.1, hw.2⟩
  | firHamming v | squelchL n | singleFreq v | deemphEn v | dcblockEn v => exact ⟨hd, hlo, hhi, hlen, hpos, hone⟩

theorem bsyncReset_inRange :
    Bsync.reset.is < BITLEN ∧ Real64.le (Real64.neg EA_MAX) Bsync.reset.ea = true ∧
      Real64.le Bsync.reset.ea EA_MAX = true := by decide +kernel

/-- RESET with no sample pending gives every agent a value in its range (R158). -/
theorem inv_resetState (h : Inv s) (hs : s.stream = []) : Inv (resetState s) := by
  obtain ⟨hd, hlo, -⟩ := id h.1
  refine ⟨h.1, fun _ => ⟨⟨hd, hlo, le_rfl, ?_⟩, bsyncReset_inRange, Nat.zero_lt_succ 7, ?_⟩⟩
  · rw [resetState_stream, hs]
    exact fun x hx => absurd hx List.not_mem_nil
  · exact ⟨Nat.zero_le _, Nat.zero_le _, .inl ⟨rfl, rfl, Nat.zero_le _⟩⟩

/-! ### The conditioner (R20, R21, R68) -/

variable {par : Params} {cfg : Cfg} {r : CondRun}

/-- The counters of a run of COND_BLOCK's first loop are in their ranges, and its samples are s16. -/
def CondRunOk (par : Params) (cfg : Cfg) (r : CondRun) : Prop :=
  r.cond.decCnt < par.downsample ∧ r.cond.postCnt < cfg.post ∧ 0 ≤ r.cond.postAcc ∧ ∀ x ∈ r.samples, isS16 x = true

/-- The post window takes an envelope, which is not negative, so the clamped sum it sends is an s16 (R85). -/
theorem condRunOk_postDown {e : Int} (he : 0 ≤ e) (h : CondRunOk par cfg r) : CondRunOk par cfg (postDown cfg e r) := by
  obtain ⟨hdec, hpost, hacc, hs16⟩ := h
  simp only [postDown]
  split
  · refine ⟨hdec, Nat.zero_lt_of_lt hpost, le_rfl, fun x hx => ?_⟩
    rcases List.mem_append.1 hx with hx | hx
    · exact hs16 x hx
    · rw [List.mem_singleton.1 hx, isS16_iff]
      omega
  · next hne => exact ⟨hdec, by simp only; omega, by simp only; omega, hs16⟩

theorem condRunOk_windowDone {ai aq : Int} (h : CondRunOk par cfg r) :
    CondRunOk par cfg (windowDone par cfg ai aq r) := by
  obtain ⟨hdec, hrest⟩ := h
  exact condRunOk_postDown (envelope_range _ _ _).1 ⟨Nat.zero_lt_of_lt hdec, hrest⟩

theorem condRunOk_condPair {p : Byte × Byte} (h : CondRunOk par cfg r) : CondRunOk par cfg (condPair par cfg r p) := by
  simp only [condPair, decimate]
  split
  · exact condRunOk_windowDone h
  · obtain ⟨hdec, hrest⟩ := h
    exact ⟨by simp only at *; omega, hrest⟩

theorem condRunOk_foldl (ps : List (Byte × Byte)) (h : CondRunOk par cfg r) :
    CondRunOk par cfg (ps.foldl (condPair par cfg) r) := by
  induction ps generalizing r with
  | nil => exact h
  | cons p ps ih => exact ih (condRunOk_condPair h)

theorem deemph_isS16 (a y : Real64) (xs : List Int) : ∀ x ∈ (deemph a y xs).2, isS16 x = true := by
  induction xs generalizing y with
  | nil => exact fun x hx => absurd hx List.not_mem_nil
  | cons x xs ih =>
    simp only [deemph, List.forall_mem_cons]
    exact ⟨satTrunc_isS16 _, ih _⟩

theorem dcBlock_isS16 (avg : Real64) (xs : List Int) (h : ∀ x ∈ xs, isS16 x = true) :
    ∀ x ∈ (dcBlock avg xs).2, isS16 x = true := by
  unfold dcBlock
  split
  · exact h
  · simp only [List.forall_mem_map]
    exact fun x _ => satTrunc_isS16 _

theorem optionalStages_isS16 (c : Cond) (xs : List Int) (h : ∀ x ∈ xs, isS16 x = true) :
    ∀ x ∈ (optionalStages cfg c xs).2, isS16 x = true := by
  have hde : ∀ x ∈ (if cfg.deemphEn then deemph cfg.deemphA c.deemphY xs else (c.deemphY, xs)).2, isS16 x = true := by
    split
    · exact deemph_isS16 _ _ _
    · exact h
  simp only [optionalStages]
  split
  · exact dcBlock_isS16 _ _ hde
  · exact hde

/-- COND_BLOCK keeps the counters in their ranges and sends s16 samples (R20, R21, R68, R89). -/
theorem conditionBlock_ok {c : Cond} (data : List Byte)
    (h : CondRunOk par cfg { cond := c, pairs := [], samples := [] }) :
    CondRunOk par cfg
      { cond := (conditionBlock par cfg c data).1, pairs := [], samples := (conditionBlock par cfg c data).2 } := by
  obtain ⟨hdec, hpost, hacc, hs16⟩ := condRunOk_foldl (iqPairs data) h
  simp only [conditionBlock]
  rw [squelch_frame, optionalStages_frame]
  refine ⟨hdec, hpost, hacc, ?_⟩
  simp only
  split
  · intro x hx
    rw [List.eq_of_mem_replicate hx]
    decide
  · exact optionalStages_isS16 _ _ hs16

theorem condOk_condBlock (data : List Byte) (h : CondOk s) : CondOk (condBlock data s) := by
  obtain ⟨hdec, hpost, hacc, hs16⟩ := h
  obtain ⟨hdec', hpost', hacc', hnew⟩ :=
    conditionBlock_ok data ⟨hdec, hpost, hacc, fun x hx => absurd hx List.not_mem_nil⟩
  refine ⟨hdec', hpost', hacc', fun x hx => ?_⟩
  rcases List.mem_append.1 hx with hx | hx
  · exact hs16 x hx
  · exact hnew x hx

/-! ### The frame machine: what the invariant says in each state (R34 to R36) -/

theorem fsmOk_headLost (h : s.fsm.state = stHeadLost) :
    FsmOk s ↔ s.fsm.syncBitsHave ≤ SYNC_MAX ∧ s.fsm.consecutivePrekey ≤ PREKEY_MIN + 1 ∧
      s.fsm.raw = [] ∧ s.fsm.consecutivePrekey ≤ PREKEY_MIN := by
  simp [FsmOk, h, stHeadLost, stHeadFound, stSync, stText, stCrc1, stCrc2, stEnd]

theorem fsmOk_headFound (h : s.fsm.state = stHeadFound) :
    FsmOk s ↔ s.fsm.syncBitsHave ≤ SYNC_MAX ∧ s.fsm.consecutivePrekey ≤ PREKEY_MIN + 1 ∧ s.fsm.raw = [] := by
  simp [FsmOk, h, stHeadLost, stHeadFound, stSync, stText, stCrc1, stCrc2, stEnd]

theorem fsmOk_sync (h : s.fsm.state = stSync) :
    FsmOk s ↔ s.fsm.syncBitsHave ≤ SYNC_MAX ∧ s.fsm.consecutivePrekey ≤ PREKEY_MIN + 1 ∧
      s.fsm.raw = [] ∧ s.fsm.syncBitsHave < SYNC_MAX := by
  simp [FsmOk, h, stHeadLost, stHeadFound, stSync, stText, stCrc1, stCrc2, stEnd]

theorem fsmOk_text (h : s.fsm.state = stText) :
    FsmOk s ↔ s.fsm.syncBitsHave ≤ SYNC_MAX ∧ s.fsm.consecutivePrekey ≤ PREKEY_MIN + 1 ∧
      1 ≤ s.fsm.raw.length ∧ s.fsm.raw.length ≤ MAXBLK + 1 := by
  simp [FsmOk, h, stHeadLost, stHeadFound, stSync, stText, stCrc1, stCrc2, stEnd]

theorem fsmOk_crc1 (h : s.fsm.state = stCrc1) :
    FsmOk s ↔ s.fsm.syncBitsHave ≤ SYNC_MAX ∧ s.fsm.consecutivePrekey ≤ PREKEY_MIN + 1 ∧
      2 ≤ s.fsm.raw.length ∧ s.fsm.raw.length ≤ MAXBLK + 1 := by
  simp [FsmOk, h, stHeadLost, stHeadFound, stSync, stText, stCrc1, stCrc2, stEnd]

theorem fsmOk_crc2 (h : s.fsm.state = stCrc2) :
    FsmOk s ↔ s.fsm.syncBitsHave ≤ SYNC_MAX ∧ s.fsm.consecutivePrekey ≤ PREKEY_MIN + 1 ∧
      3 ≤ s.fsm.raw.length ∧ s.fsm.raw.length ≤ MAXBLK + 2 := by
  simp [FsmOk, h, stHeadLost, stHeadFound, stSync, stText, stCrc1, stCrc2, stEnd]

theorem fsmOk_end (h : s.fsm.state = stEnd) :
    FsmOk s ↔ s.fsm.syncBitsHave ≤ SYNC_MAX ∧ s.fsm.consecutivePrekey ≤ PREKEY_MIN + 1 ∧
      4 ≤ s.fsm.raw.length ∧ s.fsm.raw.length ≤ RAW_CAP := by
  simp [FsmOk, h, stHeadLost, stHeadFound, stSync, stText, stCrc1, stCrc2, stEnd]

/-! ### The frame machine: each rule keeps it -/

variable {b : Byte} {res : FsmResult}

/-- GO_HEADLOST meets what HeadLost asks (R117). -/
theorem fsmOk_goHeadLost (h : s.fsm.syncBitsHave ≤ SYNC_MAX) : FsmOk (goHeadLost s) :=
  (fsmOk_headLost rfl).2 ⟨h, Nat.zero_le _, rfl, Nat.zero_le _⟩

theorem fsmOk_fsmHeadLost (hst : s.fsm.state = stHeadLost) (h : FsmOk s) (hf : fsmHeadLost b s = .ok (res, t)) :
    FsmOk t := by
  obtain ⟨hbits, -, hraw, hkey⟩ := (fsmOk_headLost hst).1 h
  obtain ⟨-, ⟨-, hn, rfl⟩ | ⟨-, hn, rfl⟩ | ⟨-, rfl⟩⟩ := fsmHeadLost_cases hf
  · exact (fsmOk_headLost (s := setPrekey (s.fsm.consecutivePrekey + 1) s) hst).2
      ⟨hbits, Nat.le_succ_of_le hn, hraw, hn⟩
  · exact (fsmOk_headFound rfl).2 ⟨hbits, Nat.succ_le_succ hkey, hraw⟩
  · exact (fsmOk_headLost (s := resetFrame s) hst).2 ⟨hbits, Nat.zero_le _, rfl, Nat.zero_le _⟩

/-- Sync holds fewer than 55 bits between bytes, and at most 55 when it ends (R120). -/
theorem fsmOk_fsmSync (hst : s.fsm.state = stSync) (h : FsmOk s) (hf : fsmSync b s = .ok (res, t)) : FsmOk t := by
  obtain ⟨-, hkey, hraw, hbits⟩ := (fsmOk_sync hst).1 h
  have hmax : SYNC_BITS ≤ SYNC_MAX := by decide
  rcases syncScan_cases le_rfl hf with ⟨-, ⟨w, rfl⟩, hlim⟩ | ⟨k, w, -, -, -, -, hlim, rfl | ⟨-, rfl⟩⟩
  · have hn : s.fsm.syncBitsHave + 8 < SYNC_MAX := by omega
    exact (fsmOk_sync (s := syncTaken w 8 s) hst).2 ⟨hn.le, hkey, hraw, hn⟩
  · have hn : s.fsm.syncBitsHave + k ≤ SYNC_MAX := by omega
    exact (fsmOk_text rfl).2 ⟨hn, hkey, le_rfl, Nat.succ_le_succ (Nat.zero_le _)⟩
  · have hn : s.fsm.syncBitsHave + k ≤ SYNC_MAX := by omega
    exact fsmOk_goHeadLost (s := syncTaken w k s) hn

theorem fsmOk_fsmHeadFound (hst : s.fsm.state = stHeadFound) (h : FsmOk s) (hf : fsmHeadFound b s = .ok (res, t)) :
    FsmOk t := by
  obtain ⟨-, hkey, -⟩ := (fsmOk_headFound hst).1 h
  rcases fsmHeadFound_cases hf with ⟨-, -, rfl⟩ | ⟨-, hf⟩
  · exact h
  · have hsync : FsmOk (enterSync s) := (fsmOk_sync rfl).2 ⟨Nat.zero_le _, hkey, rfl, Nat.zero_lt_succ _⟩
    exact fsmOk_fsmSync rfl hsync hf

/-- Text leaves for HeadLost before the raw frame passes `MAXBLK + 1` bytes (R121). -/
theorem fsmOk_fsmText (hst : s.fsm.state = stText) (h : FsmOk s) (hf : fsmText b s = .ok (res, t)) : FsmOk t := by
  obtain ⟨hbits, hkey, hlo, -⟩ := (fsmOk_text hst).1 h
  have hlen : (pushed b s).fsm.raw.length = s.fsm.raw.length + 1 := List.length_append
  obtain ⟨-, -, ⟨-, rfl⟩ | ⟨hn, -, rfl⟩ | ⟨hn, -, rfl⟩⟩ := fsmText_cases hf
  · exact fsmOk_goHeadLost (s := pushed b s) hbits
  · exact (fsmOk_crc1 rfl).2 ⟨hbits, hkey, by simp only [setTag_fsm]; omega, by simp only [setTag_fsm]; omega⟩
  · exact (fsmOk_text (s := pushed b s) hst).2 ⟨hbits, hkey, by omega, by omega⟩

theorem fsmOk_fsmCrc1 (hst : s.fsm.state = stCrc1) (h : FsmOk s) (hf : fsmCrc1 b s = .ok (res, t)) : FsmOk t := by
  obtain ⟨hbits, hkey, hlo, hhi⟩ := (fsmOk_crc1 hst).1 h
  have hlen : (pushed b s).fsm.raw.length = s.fsm.raw.length + 1 := List.length_append
  obtain ⟨-, -, rfl⟩ := fsmCrc1_cases hf
  exact (fsmOk_crc2 rfl).2 ⟨hbits, hkey, by simp only [setTag_fsm]; omega, by simp only [setTag_fsm]; omega⟩

theorem fsmOk_fsmCrc2 (hst : s.fsm.state = stCrc2) (h : FsmOk s) (hf : fsmCrc2 b s = .ok (res, t)) : FsmOk t := by
  obtain ⟨hbits, hkey, hlo, hhi⟩ := (fsmOk_crc2 hst).1 h
  have hlen : (pushed b s).fsm.raw.length = s.fsm.raw.length + 1 := List.length_append
  have hcap : RAW_CAP = MAXBLK + 3 := rfl
  obtain ⟨-, -, rfl⟩ := fsmCrc2_cases hf
  exact (fsmOk_end rfl).2 ⟨hbits, hkey, by simp only [setTag_fsm]; omega, by simp only [setTag_fsm]; omega⟩

/-- End always leaves for HeadLost (R124). -/
theorem fsmOk_fsmEnd (h : FsmOk s) (hf : fsmEnd b s = .ok (res, t)) : FsmOk t := by
  obtain ⟨hbits, -⟩ := h
  rcases fsmEnd_cases hf with ⟨-, -, rfl⟩ | ⟨-, ⟨bytes, -, -, rfl⟩ | ⟨-, -, rfl⟩⟩
  · exact fsmOk_goHeadLost (s := raiseEvent _ (emitFrame _ _ (setCrcErr _ s))) hbits
  · exact fsmOk_goHeadLost (s := raiseEvent _ (emitFrame _ _ (setCrcErr _ s))) hbits
  · exact fsmOk_goHeadLost (s := raiseEvent _ (setCrcErr _ s)) hbits

/-- FSM_BYTE keeps the tag one of seven and the counters and the raw frame in the ranges it allows (R127). -/
theorem fsmOk_fsmByte (h : FsmOk s) (hf : fsmByte b s = .ok (res, t)) : FsmOk t := by
  rcases fsmByte_cases hf with ⟨hst, hf⟩ | ⟨hst, hf⟩ | ⟨hst, hf⟩ | ⟨hst, hf⟩ | ⟨hst, hf⟩ | ⟨hst, hf⟩ | ⟨-, hf⟩
  · exact fsmOk_fsmHeadLost hst h hf
  · exact fsmOk_fsmHeadFound hst h hf
  · exact fsmOk_fsmSync hst h hf
  · exact fsmOk_fsmText hst h hf
  · exact fsmOk_fsmCrc1 hst h hf
  · exact fsmOk_fsmCrc2 hst h hf
  · exact fsmOk_fsmEnd h hf

/-! ### The link and the synchronizer (R25, R27, R32) -/

variable {bit : Bool} {x : Int}

theorem fsmOk_linkBit (h : FsmOk s) (hl : linkBit bit s = .ok t) : FsmOk t := by
  rcases linkBit_cases hl with ⟨-, rfl⟩ | ⟨-, r, u, hf, rfl⟩
  · exact h
  · have hu : FsmOk u := fsmOk_fsmByte (s := bitTaken bit s) h hf
    cases r <;> exact hu

/-- The frame machine writes only the signs of BSYNC (R53). -/
theorem linkBit_bsync (h : linkBit bit s = .ok t) :
    t.bsync = { s.bsync with sgI := t.bsync.sgI, sgQ := t.bsync.sgQ } := by
  rcases (linkBit_frame h).1 with ht | ht <;> rw [ht]

theorem linkBit_cond (h : linkBit bit s = .ok t) : t.cond = s.cond ∧ t.stream = s.stream := by
  rcases (linkBit_frame h).1 with ht | ht <;> rw [ht] <;> exact ⟨rfl, rfl⟩

/-- The bit clock keeps the index, and it keeps `ea` or clamps it (R103, R105). -/
theorem bsClock_index_timing {c c' : Bsync} (h : bsClock par c = .ok c') :
    c'.is = c.is ∧
      (c'.ea = c.ea ∨ Real64.le (Real64.neg EA_MAX) c'.ea = true ∧ Real64.le c'.ea EA_MAX = true) := by
  obtain ⟨-, ⟨-, rfl⟩ | ⟨-, ht⟩⟩ := bsClock_cases h
  · exact ⟨rfl, .inl rfl⟩
  · obtain ⟨m, ⟨-, hlo, hhi, hm⟩ | rfl, rfl⟩ := tickWith_cases ht
    · exact ⟨by rw [hm], .inr ⟨hlo, hhi⟩⟩
    · exact ⟨rfl, .inl rfl⟩

/-- BS_FEED's own part of BSYNC, before LINK. -/
theorem bsFeed_bsync (h : bsFeed x s = .ok t) :
    ∃ f c, bsFront s.par x { s.bsync with bitValid := false, bit := false } = .ok f ∧ bsClock s.par f = .ok c ∧
      t.bsync = { c with sgI := t.bsync.sgI, sgQ := t.bsync.sgQ } := by
  obtain ⟨f, c, hf, hc, ⟨-, hl⟩ | ⟨-, rfl⟩⟩ := bsFeed_cases h
  · exact ⟨f, c, hf, hc, linkBit_bsync hl⟩
  · exact ⟨f, c, hf, hc, rfl⟩

theorem bsyncOk_bsFeed (h : BsyncOk s) (hb : bsFeed x s = .ok t) : BsyncOk t := by
  obtain ⟨-, hea⟩ := h
  obtain ⟨f, c, hf, hc, ht⟩ := bsFeed_bsync hb
  obtain ⟨his, -, -, hfea, -⟩ := bsFront_cases hf
  obtain ⟨hcis, hcea⟩ := bsClock_index_timing hc
  have hi : t.bsync.is = prevIndex s.bsync.is := by rw [ht]; exact hcis.trans his
  have he : t.bsync.ea = c.ea := by rw [ht]
  refine ⟨hi ▸ prevIndex_lt _, ?_⟩
  rw [he]
  rcases hcea with hcea | hcea
  · rw [hcea, hfea]
    exact hea
  · exact hcea

/-- BS_FEED hands LINK at most one bit (R94). -/
theorem bsFeed_link (h : bsFeed x s = .ok t) :
    (t.link = s.link ∧ t.fsm = s.fsm) ∨
      ∃ c bit, linkBit bit { s with bsync := c } = .ok t := by
  obtain ⟨f, c, -, -, ⟨-, hl⟩ | ⟨-, rfl⟩⟩ := bsFeed_cases h
  · exact .inr ⟨c, c.bit, hl⟩
  · exact .inl ⟨rfl, rfl⟩

/-! ### Every effect of a step -/

theorem inv_condBlock (data : List Byte) (h : Inv s) : Inv (condBlock data s) :=
  inv_of_agents h rfl rfl rfl fun _ ⟨hc, hb, hl, hf⟩ => ⟨condOk_condBlock data hc, hb, hl, hf⟩

theorem inv_bsFeed (h : Inv s) (hx : bsFeed x s = .ok t) : Inv t := by
  have ht := bsFeed_frame hx
  refine inv_of_agents h (by rw [ht]) (by rw [ht]) (by rw [ht]) fun _ ⟨hc, hb, hl, hf⟩ =>
    ⟨condOk_congr hc (by rw [ht]) (by rw [ht]) (by rw [ht]) (by rw [ht]), bsyncOk_bsFeed hb hx, ?_⟩
  rcases bsFeed_link hx with ⟨hlink, hfsm⟩ | ⟨c, bit, hbit⟩
  · exact ⟨by simpa only [LinkOk, hlink] using hl, by simpa only [FsmOk, hfsm] using hf⟩
  · exact ⟨linkBit_nbits (s := { s with bsync := c }) hl hbit, fsmOk_linkBit (s := { s with bsync := c }) hf hbit⟩

theorem inv_linkBit (h : Inv s) (hbit : linkBit bit s = .ok t) : Inv t := by
  have hcfg : t.phase = s.phase ∧ t.cfg = s.cfg ∧ t.par = s.par := by
    rcases (linkBit_frame hbit).1 with ht | ht <;> rw [ht] <;> exact ⟨rfl, rfl, rfl⟩
  obtain ⟨hph, hc, hp⟩ := hcfg
  obtain ⟨hcond, hstream⟩ := linkBit_cond hbit
  refine inv_of_agents h hph hc hp fun _ ⟨hcd, hb, hl, hf⟩ =>
    ⟨condOk_congr hcd hp hc hcond hstream, ?_, linkBit_nbits hl hbit, fsmOk_linkBit hf hbit⟩
  rw [BsyncOk, linkBit_bsync hbit]
  exact hb

theorem inv_fsmByte (h : Inv s) (hf : fsmByte b s = .ok (res, t)) : Inv t := by
  have hfr := (fsmByte_frame hf).1
  refine inv_of_agents h hfr.phase hfr.cfg hfr.par fun _ ⟨hcd, hb, hl, hfsm⟩ =>
    ⟨condOk_congr hcd hfr.par hfr.cfg hfr.cond hfr.stream, ?_, ?_, fsmOk_fsmByte hfsm hf⟩
  · rcases hfr.1 with ht | ht <;> rw [ht] <;> exact hb
  · rw [LinkOk, hfr.link]
    exact hl

/-- Each effect of a step keeps the invariant. -/
theorem StepEffect.inv (he : StepEffect s t) (h : Inv s) : Inv t := by
  cases he with
  | idle ht => subst ht; exact inv_beginOp.2 h
  | refused r ht => subst ht; exact inv_markRefused.2 (inv_beginOp.2 h)
  | stored w hp hw ht =>
    subst ht
    exact ⟨configOk_cfgStore h.1 hw, fun hrun => absurd (hp.symm.trans hrun) (by decide)⟩
  | reset hs ht => subst ht; exact inv_resetState h hs
  | conditioned data _ ht => subst ht; exact inv_condBlock data (inv_beginOp.2 h)
  | fed x hx => exact inv_bsFeed (inv_beginOp.2 h) hx
  | linked bit hb => exact inv_linkBit (inv_beginOp.2 h) hb
  | framed b r u hf ht => subst ht; exact inv_setResult.2 (inv_fsmByte (inv_beginOp.2 h) hf)
  | returned r ht => subst ht; exact inv_setResult.2 (inv_beginOp.2 h)

/-- Settles O19: the queues only shrink, and each effect of a step keeps the invariant. -/
theorem stepKeepsInvariant : Obligations.StepKeepsInvariant := by
  intro s t h hstep
  obtain ⟨u, hu, he⟩ := step_effect hstep
  exact he.inv (inv_of_dequeued h hu)

end Sys2Proof.Machine
end

section
/-! PROOFS. Two numeric bounds of the synchronizer: its clock (10_state.md R27, 41_bitsync.md R103) and its level
(10_state.md R30, 41_bitsync.md R96). -/

namespace Sys2Proof

/-! ### Order, size and sign of real values -/

theorem key_le_mag (x : Real64) : x.key ≤ x.mag := by
  unfold Real64.key
  split <;> omega

/-- A value between two bounds of opposite sign and one size is no larger than they are. -/
theorem mag_le_of_between {x lo hi : Real64} {m : Nat} (hlo : lo.key = -m) (hhi : hi.key = m)
    (h : Real64.le lo x = true) (h' : Real64.le x hi = true) : x.mag ≤ m := by
  have hl := (le_iff.1 h).2.2
  have hh := (le_iff.1 h').2.2
  rw [hlo] at hl
  rw [hhi] at hh
  cases hn : x.negative with
  | false => simp only [Real64.key, hn, Bool.false_eq_true, if_false] at hl hh; omega
  | true => simp only [Real64.key, hn, if_true] at hl hh; omega

/-- A number is above 0 when it is no NaN, its sign is plus and its magnitude is not 0. -/
theorem zero_lt_iff {x : Real64} :
    Real64.lt Real64.zero x = true ↔ x.isNaN = false ∧ x.negative = false ∧ 0 < x.mag := by
  have hz : Real64.zero.isNaN = false ∧ Real64.zero.key = 0 := by decide
  rw [lt_iff, hz.2]
  cases hn : x.negative with
  | false => simp [hz.1, Real64.key, hn]
  | true => simp [Real64.key, hn]

/-! ### Rounding up from half a unit -/

/-- A quotient above one half does not round to 0. -/
theorem roundUnits_pos {num den : Nat} (hd : 0 < den) (h : den < 2 * num) : 1 ≤ roundUnits num den := by
  rcases Nat.lt_or_ge num den with hlt | hge
  · have hsteps : roundSteps num den = 1 := by
      simp [roundSteps, nearestEven, pow2_eq, Nat.div_eq_of_lt hlt, Nat.mod_eq_of_lt hlt, h]
    rw [roundUnits_eq, hsteps]
    decide
  · exact le_roundUnits hd (by decide) (by simpa [unitsOfMag_small] using hge)

/-- The product of two values above 0 is above 0, when its size is above half a unit. -/
theorem zero_lt_mul {x y : Real64} (hx : x.isFinite = true) (hy : y.isFinite = true)
    (hsx : x.negative = false) (hsy : y.negative = false) (h : oneUnits < 2 * (x.units * y.units)) :
    Real64.lt Real64.zero (x.mul y) = true := by
  rw [zero_lt_iff]
  refine ⟨mul_finite_not_nan hx hy, ?_⟩
  rw [mul_of_finite hx hy, negative_ofMag (roundUnits_lt _ _), mag_ofMag (roundUnits_lt _ _), hsx, hsy]
  exact ⟨rfl, roundUnits_pos oneUnits_pos h⟩

theorem units_pos_of_mag_pos {x : Real64} (hx : x.isFinite = true) (h : 0 < x.mag) : 0 < x.units :=
  units_pos hx (by simp only [Real64.isZero, decide_eq_false_iff_not]; omega)

theorem value_pos_of_zero_lt {x : Real64} (hx : x.isFinite = true) (h : Real64.lt Real64.zero x = true) :
    0 < x.value := by
  obtain ⟨-, hs, hm⟩ := zero_lt_iff.1 h
  have hu := units_pos_of_mag_pos hx hm
  simp only [Real64.value, hs]
  simpa using hu

theorem value_nonneg_of_not_negative {x : Real64} (h : x.negative = false) : 0 ≤ x.value := by
  simp [Real64.value, h]

/-- A number that is at least 0 has the sign plus or is the zero of the other sign. -/
theorem not_negative_or_zero {x : Real64} (h : Real64.le Real64.zero x = true) : x.negative = false ∨ x.mag = 0 := by
  have hk : (0 : Int) ≤ x.key := (le_iff.1 h).2.2
  cases hn : x.negative with
  | false => exact .inl rfl
  | true =>
    simp only [Real64.key, hn, if_true] at hk
    exact .inr (by omega)

/-- A weight with the sign plus keeps a value at least 0, the zero of either sign included. -/
theorem mul_value_nonneg {w y : Real64} (hw : w.isFinite = true) (hs : w.negative = false) (hy : y.isFinite = true)
    (h : y.negative = false ∨ y.mag = 0) : 0 ≤ (w.mul y).value := by
  rcases h with hn | h0
  · apply value_nonneg_of_not_negative
    rw [mul_of_finite hw hy, negative_ofMag (roundUnits_lt _ _), hs, hn]
    rfl
  · have hunits : y.units = 0 := by rw [Real64.units, h0, unitsOfMag_zero]
    have hmag : (w.mul y).mag = 0 := Nat.le_zero.1 (mul_mag_le hw hy (by simp [hunits]))
    have hzero : (w.mul y).units = 0 := by rw [Real64.units, hmag, unitsOfMag_zero]
    exact (Int.natAbs_eq_zero.1 ((value_natAbs _).trans hzero)).ge

/-- A sum whose exact value is above 0 is above 0. -/
theorem zero_lt_add {x y : Real64} (hx : x.isFinite = true) (hy : y.isFinite = true) (h : 0 < x.value + y.value) :
    Real64.lt Real64.zero (x.add y) = true := by
  rw [zero_lt_iff]
  refine ⟨add_finite_not_nan hx hy, ?_⟩
  have hneg : decide (x.value + y.value < 0) = false := by simpa using h.le
  rw [add_of_finite hx hy]
  simp only [Real64.addFinite, if_neg h.ne', hneg, negative_ofMag (roundUnits_lt _ _), mag_ofMag (roundUnits_lt _ _)]
  exact ⟨trivial, roundUnits_pos one_pos (by omega)⟩

end Sys2Proof

namespace Sys2Proof.Machine

open Sys2Proof.Safety

/-! ### The clock (R27, R103) -/

variable {x : Int}

/-- With `ea` of size at most 2 the threshold of the bit clock is at most 12. -/
theorem clockThreshold_le_twelve {ea : Real64} (hlo : Real64.le (Real64.ofInt (-2)) ea = true)
    (hhi : Real64.le ea (Real64.ofInt 2) = true) (hn : (clockThreshold ea).isNaN = false) :
    Real64.le (clockThreshold ea) (Real64.ofInt 12) = true := by
  have hea : ea.mag ≤ (Real64.ofInt 2).mag := mag_le_of_between (by decide +kernel) (by decide +kernel) hlo hhi
  have hunits : (Real64.ofInt 10).units + ea.units ≤ unitsOfMag (Real64.ofInt 12).mag := by
    have h2 : ea.units ≤ (Real64.ofInt 2).units := unitsOfMag_le (by decide +kernel) hea
    have h12 : (Real64.ofInt 10).units + (Real64.ofInt 2).units = unitsOfMag (Real64.ofInt 12).mag := by decide +kernel
    omega
  have hmag : (clockThreshold ea).mag ≤ (Real64.ofInt 12).mag := by
    rw [clockThreshold_eq]
    exact add_mag_le (by decide +kernel) (isFinite_of_mag_le hea (by decide +kernel)) hunits
  have hkey : (Real64.ofInt 12).key = (Real64.ofInt 12).mag := by decide +kernel
  refine le_iff.2 ⟨hn, by decide +kernel, ?_⟩
  rw [hkey]
  exact (key_le_mag _).trans (Int.ofNat_le.2 hmag)

theorem bsClock_clock_le {par : Params} {b b' : Bsync} (hclock : b.clock ≤ 11)
    (hlo : Real64.le (Real64.ofInt (-2)) b.ea = true) (hhi : Real64.le b.ea (Real64.ofInt 2) = true)
    (h : bsClock par b = .ok b') : b'.clock ≤ 11 := by
  obtain ⟨hn, ⟨hbelow, rfl⟩ | ⟨-, ht⟩⟩ := bsClock_cases h
  · have h11 : b.clock ≠ 11 := by
      intro h11
      rw [h11] at hbelow
      exact absurd (clockThreshold_le_twelve hlo hhi hn) (by simpa using hbelow)
    simp only
    omega
  · obtain ⟨m, ⟨-, -, -, hm⟩ | rfl, rfl⟩ := tickWith_cases ht
    · rw [hm]
      exact Nat.zero_le _
    · exact Nat.zero_le _

/-- Settles O23: the twelfth count meets the threshold, and a tick sets the clock to 0. -/
theorem clockStaysBelowTwelve : Obligations.ClockStaysBelowTwelve := by
  intro _ _ _ hclock hlo hhi h
  obtain ⟨f, c, hf, hc, ht⟩ := bsFeed_bsync h
  obtain ⟨-, -, hfclock, hfea, -⟩ := bsFront_cases hf
  have hle : c.clock ≤ 11 :=
    bsClock_clock_le (hfclock ▸ hclock) (hfea ▸ hlo) (hfea ▸ hhi) hc
  rw [ht]
  exact hle

/-! ### The level (R30, R96) -/

/-- The size of an s16 sample as a real: finite, with the sign plus, and at least 1 when the sample is not 0. -/
theorem ofInt_natAbs (hx : isS16 x = true) :
    (Real64.ofInt (x.natAbs : Int)).isFinite = true ∧ (Real64.ofInt (x.natAbs : Int)).negative = false ∧
      (x ≠ 0 → oneUnits ≤ (Real64.ofInt (x.natAbs : Int)).units) := by
  rw [isS16_iff] at hx
  have hn : x.natAbs ≤ 32768 := by omega
  rcases Nat.eq_zero_or_pos x.natAbs with h0 | hpos
  · rw [h0]
    exact ⟨by decide, by decide, fun h => absurd (Int.natAbs_eq_zero.1 h0) h⟩
  · have he : Real64.ofInt (x.natAbs : Int) = Real64.ofMag false (roundUnits (x.natAbs * oneUnits) 1) := by
      have h1 : (x.natAbs : Int) ≠ 0 := by omega
      have h2 : decide ((x.natAbs : Int) < 0) = false := by simp
      rw [Real64.ofInt, if_neg h1, h2, Int.natAbs_natCast]
    have hmax : 32768 * oneUnits ≤ unitsOfMag (infMag - 1) := by decide +kernel
    have hup : roundUnits (x.natAbs * oneUnits) 1 ≤ infMag - 1 :=
      roundUnits_le one_pos (by rw [Nat.mul_one]; exact (Nat.mul_le_mul_right _ hn).trans hmax)
    have hlow : oneMag ≤ roundUnits (x.natAbs * oneUnits) 1 :=
      le_roundUnits one_pos (by decide) (by
        rw [unitsOfMag_oneMag, Nat.mul_one]
        exact Nat.le_mul_of_pos_left _ hpos)
    rw [he]
    refine ⟨isFinite_of_mag_le ((mag_ofMag (roundUnits_lt _ _)).trans_le hup) (by decide),
      negative_ofMag (roundUnits_lt _ _), fun _ => ?_⟩
    rw [Real64.units, mag_ofMag (roundUnits_lt _ _), ← unitsOfMag_oneMag]
    exact unitsOfMag_le (roundUnits_le_infMag _ _) hlow

/-- A weight of size at most 1 keeps a finite value finite. -/
theorem mul_isFinite {w y : Real64} (hw : w.isFinite = true) (hle : w.units ≤ oneUnits) (hy : y.isFinite = true) :
    (w.mul y).isFinite = true := by
  have hmag : (w.mul y).mag ≤ y.mag :=
    mul_mag_le hw hy (by rw [Nat.mul_comm]; exact Nat.mul_le_mul_left _ hle)
  exact isFinite_of_mag_le hmag (by simpa [Real64.isFinite] using hy)


theorem linA_size : LIN_A.isFinite = true ∧ LIN_A.negative = false ∧ LIN_A.units ≤ oneUnits ∧ 2 ≤ LIN_A.units := by
  decide +kernel

theorem linB_size :
    LIN_B.isFinite = true ∧ LIN_B.negative = false ∧ LIN_B.units ≤ oneUnits ∧ oneUnits < 2 * LIN_B.units := by
  decide +kernel

/-- The part of the new level that the sample gives: finite, not below 0, and above 0 when the sample is not 0. -/
theorem sampleShare_sign (hx : isS16 x = true) :
    (LIN_A.mul (Real64.ofInt (x.natAbs : Int))).isFinite = true ∧
      0 ≤ (LIN_A.mul (Real64.ofInt (x.natAbs : Int))).value ∧
      (x ≠ 0 → 0 < (LIN_A.mul (Real64.ofInt (x.natAbs : Int))).value) := by
  obtain ⟨hf, hs, hu⟩ := ofInt_natAbs hx
  obtain ⟨ha, has, hle, hge⟩ := linA_size
  have hfin := mul_isFinite ha hle hf
  refine ⟨hfin, mul_value_nonneg ha has hf (.inl hs), fun h0 =>
    value_pos_of_zero_lt hfin (zero_lt_mul ha hf has hs ?_)⟩
  have hpos := oneUnits_pos
  have hprod : 2 * oneUnits ≤ LIN_A.units * (Real64.ofInt (x.natAbs : Int)).units := Nat.mul_le_mul hge (hu h0)
  omega

/-- The part of the new level that the old one gives: above 0 when it was, since 0.997 of the
least value rounds to it. -/
theorem levelShare_sign {lin : Real64} (hf : lin.isFinite = true) :
    (LIN_B.mul lin).isFinite = true ∧
      (Real64.le Real64.zero lin = true → 0 ≤ (LIN_B.mul lin).value) ∧
      (Real64.lt Real64.zero lin = true → 0 < (LIN_B.mul lin).value) := by
  obtain ⟨hb, hbs, hle, hge⟩ := linB_size
  have hfin := mul_isFinite hb hle hf
  refine ⟨hfin, fun h => mul_value_nonneg hb hbs hf (not_negative_or_zero h), fun h => ?_⟩
  obtain ⟨-, hs, hm⟩ := zero_lt_iff.1 h
  have hu : 1 ≤ lin.units := units_pos_of_mag_pos hf hm
  have hprod : LIN_B.units * 1 ≤ LIN_B.units * lin.units := Nat.mul_le_mul_left _ hu
  exact value_pos_of_zero_lt hfin (zero_lt_mul hb hf hbs hs (by omega))

/-- Settles O34: each share of the new level is at least 0, and one of them is above it. -/
theorem levelPositiveAfterSignal : Obligations.LevelPositiveAfterSignal := by
  intro s x hf hx
  obtain ⟨hxf, hx0, hxpos⟩ := sampleShare_sign hx
  obtain ⟨hlf, hl0, hlpos⟩ := levelShare_sign hf
  refine ⟨fun hle hne => zero_lt_add hxf hlf ?_, fun hlt => zero_lt_add hxf hlf ?_⟩
  · have h1 := hxpos hne
    have h2 := hl0 hle
    omega
  · have h2 := hlpos hlt
    omega

end Sys2Proof.Machine
end

section
/-! PROOFS. What a step serves while conditioned samples are pending (20_memory.md R54, R55; log 8). -/

namespace Sys2Proof.Machine

open Sys2Proof.Safety

variable {s : State} {x : Int} {xs : List Int} {key : Byte} {ops : List Int} {rest : List HostItem}

/-- BSYNC takes the oldest pending sample unless a COND_BLOCK waits and the schedule lets it move; a COND_BLOCK that
waits uses up an entry of the schedule. -/
theorem fetch_feed (hs : s.stream = x :: xs)
    (hw : ¬(nextIsCondBlock s = true ∧ s.schedule.headD false = true)) :
    fetch s = .feed x
      { s with stream := xs, schedule := if nextIsCondBlock s then s.schedule.tail else s.schedule } := by
  cases hc : nextIsCondBlock s with
  | true =>
    have hd : s.schedule.headD false ≠ true := fun h => hw ⟨hc, h⟩
    simp only [fetch, hs, hc, if_true, if_neg hd]
  | false => simp only [fetch, hs, hc, Bool.false_eq_true, if_false]

/-- Settles O6: BSYNC takes the oldest sample, and the step is the BS_FEED of it. -/
theorem stepFeedsOldestSample : Obligations.StepFeedsOldestSample := by
  intro s x xs hs hw u
  have hstep : step s = ofExcept (bsFeed x u) := by
    rw [step, fetch_feed hs hw]
    rfl
  exact ⟨fun t ht => by rw [hstep, ht, ofExcept_ok], fun f hf => by rw [hstep, hf, ofExcept_error]⟩

theorem nextIsCondBlock_op (hi : s.inbox = .op key ops :: rest) :
    nextIsCondBlock s = (decide (keyOp key = 1) && !keyRsv key) := by
  simp only [nextIsCondBlock, hi]

/-- Every key with `op` 1 and `rsv` 0 selects COND_BLOCK (R61, R62). -/
theorem decode_condBlock_of_keyOp (hop : keyOp key = 1) (hrsv : keyRsv key = false) :
    decode key ops = .ok (.condBlock ops) := by
  simp only [decode, hop, hrsv, Bool.false_eq_true, if_false]

/-- A COND_BLOCK at the head of the host's items is fetched as one, whatever the frame machine's state. -/
theorem fetchHost_condBlock (hi : s.inbox = .op key ops :: rest) (hop : keyOp key = 1) (hrsv : keyRsv key = false) :
    fetchHost s = .instr (.condBlock ops) { s with inbox := rest } := by
  have hkey : formKey key s.fsm.state = key := formKey_of_not_fsm (by omega) _
  simp only [fetchHost, hi, hkey, decode_condBlock_of_keyOp hop hrsv]

/-- COND moves ahead of the pending samples when a COND_BLOCK waits and the schedule lets it move (R55). -/
theorem fetch_ahead (hs : s.stream ≠ []) (hc : nextIsCondBlock s = true) (hd : s.schedule.headD false = true) :
    fetch s = fetchHost { s with schedule := s.schedule.tail } := by
  cases h : s.stream with
  | nil => exact absurd h hs
  | cons y ys => simp only [fetch, h, hc, hd, if_true]

/-- Settles O7: the COND_BLOCK is fetched with the samples still pending, and its next state stands. -/
theorem condMayRunAhead : Obligations.CondMayRunAhead := by
  intro s t key data rest more hi hop hrsv hs hsch h
  have hc : nextIsCondBlock s = true := by simp [nextIsCondBlock_op hi, hop, hrsv]
  have hf : fetch s = .instr (.condBlock data) { s with inbox := rest, schedule := more } := by
    rw [fetch_ahead hs hc (by simp [hsch]),
      fetchHost_condBlock (s := { s with schedule := s.schedule.tail }) hi hop hrsv, hsch, List.tail_cons]
  rw [step, hf]
  exact congrArg (settle _) h

end Sys2Proof.Machine
end

section
/-! PROOFS. The block partition is not seen when the two stages that work per block are off (20_memory.md R56). -/

namespace Sys2Proof.Machine

open Sys2Proof.Safety

variable {par : Params} {cfg : Cfg}

/-- `c` with the registers of the stages after the post-downsample, which the loop over the pairs does not use, as in
`f` (R86 to R89). -/
def withStages (f c : Cond) : Cond :=
  { c with
    deemphY := f.deemphY, dcAvg := f.dcAvg
    silentCount := f.silentCount, mute := f.mute, hopRequest := f.hopRequest }

/-- The same in the run of the loop over the pairs. -/
def runWithStages (f : Cond) (r : CondRun) : CondRun := { r with cond := withStages f r.cond }

theorem postDown_withStages (f : Cond) (e : Int) (r : CondRun) :
    postDown cfg e (runWithStages f r) = runWithStages f (postDown cfg e r) := by
  simp only [postDown, apply_ite (runWithStages f)]
  rfl

theorem windowDone_withStages (f : Cond) (ai aq : Int) (r : CondRun) :
    windowDone par cfg ai aq (runWithStages f r) = runWithStages f (windowDone par cfg ai aq r) := by
  rw [windowDone, windowDone, ← postDown_withStages]
  rfl

theorem decimate_withStages (f : Cond) (vi vq : Int) (r : CondRun) :
    decimate par cfg vi vq (runWithStages f r) = runWithStages f (decimate par cfg vi vq r) := by
  simp only [decimate, apply_ite (runWithStages f), ← windowDone_withStages]
  rfl

theorem condPair_withStages (f : Cond) (r : CondRun) (p : Byte × Byte) :
    condPair par cfg (runWithStages f r) p = runWithStages f (condPair par cfg r p) := by
  rw [condPair, condPair, ← decimate_withStages]
  rfl

theorem foldl_condPair_withStages (f : Cond) (ps : List (Byte × Byte)) (r : CondRun) :
    ps.foldl (condPair par cfg) (runWithStages f r) = runWithStages f (ps.foldl (condPair par cfg) r) := by
  induction ps generalizing r with
  | nil => rfl
  | cons p ps ih => rw [List.foldl_cons, List.foldl_cons, condPair_withStages, ih]

/-- The loop over the pairs neither reads nor writes the registers of the later stages. -/
theorem condPairs_withStages (f c : Cond) (ps : List (Byte × Byte)) :
    condPairs par cfg (withStages f c) ps = runWithStages f (condPairs par cfg c ps) :=
  foldl_condPair_withStages f ps { cond := c, pairs := [], samples := [] }

/-- The loop over the pairs leaves the registers of the later stages as they were. -/
theorem condPairs_keeps_stages (c : Cond) (ps : List (Byte × Byte)) :
    (condPairs par cfg c ps).cond = withStages c (condPairs par cfg c ps).cond :=
  congrArg CondRun.cond (condPairs_withStages c c ps)

/-- The de-emphasis, where it is on (R84, R86). -/
def deemphStage (cfg : Cfg) (y : Real64) (xs : List Int) : Real64 × List Int :=
  if cfg.deemphEn then deemph cfg.deemphA y xs else (y, xs)

/-- The de-emphasis streams over two runs of samples. -/
theorem deemphStage_append (y : Real64) (xs ys : List Int) :
    deemphStage cfg y (xs ++ ys) =
      ((deemphStage cfg (deemphStage cfg y xs).1 ys).1,
        (deemphStage cfg y xs).2 ++ (deemphStage cfg (deemphStage cfg y xs).1 ys).2) := by
  unfold deemphStage
  split
  · exact deemph_append _ _ _ _
  · rfl

/-- With the DC blocker off only the de-emphasis is left of the optional stages. -/
theorem optionalStages_dcOff (hdc : cfg.dcblockEn = false) (c : Cond) (xs : List Int) :
    optionalStages cfg c xs =
      ({ c with deemphY := (deemphStage cfg c.deemphY xs).1 }, (deemphStage cfg c.deemphY xs).2) := by
  simp only [optionalStages, deemphStage, hdc, Bool.false_eq_true, if_false]

/-- The count of silent blocks after a block with the decimated pairs `ps` and the squelch off (R88). -/
def clearedCount (ps : List (Int × Int)) (n : Nat) : Nat := if ps.isEmpty then n else 0

/-- A decimated pair of either of two blocks clears the count. -/
theorem clearedCount_append (ps qs : List (Int × Int)) (n : Nat) :
    clearedCount (ps ++ qs) n = clearedCount qs (clearedCount ps n) := by
  cases ps <;> cases qs <;> rfl

/-- With the squelch off a block with a decimated pair clears the count, and no flag is set (R88, R89). -/
theorem squelch_off (hsq : cfg.squelchL = 0) (ps : List (Int × Int)) (c : Cond) :
    squelch cfg ps c =
      { c with silentCount := clearedCount ps c.silentCount, mute := false, hopRequest := false } := by
  have hsilent : isSilent cfg ps = false := by simp [isSilent, hsq]
  cases h : ps.isEmpty with
  | true => simp only [squelch, clearedCount, h, if_true]
  | false => simp [squelch, clearedCount, h, hsilent, muteFlag, hopFlag]

/-- The registers of the later stages after a block whose first loop gave `r`, with the DC blocker and the squelch
off. -/
def stagesAfter (cfg : Cfg) (c : Cond) (r : CondRun) : Cond :=
  { c with
    deemphY := (deemphStage cfg c.deemphY r.samples).1
    silentCount := clearedCount r.pairs c.silentCount
    mute := false, hopRequest := false }

/-- COND_BLOCK with the DC blocker and the squelch off: the loop over the pairs, then the de-emphasis. -/
theorem conditionBlock_stagesOff (hdc : cfg.dcblockEn = false) (hsq : cfg.squelchL = 0) (c : Cond)
    (data : List Byte) :
    conditionBlock par cfg c data =
      (withStages (stagesAfter cfg c (condPairs par cfg c (iqPairs data))) (condPairs par cfg c (iqPairs data)).cond,
        (deemphStage cfg c.deemphY (condPairs par cfg c (iqPairs data)).samples).2) := by
  have hkeep := condPairs_keeps_stages (par := par) (cfg := cfg) c (iqPairs data)
  simp only [conditionBlock, optionalStages_dcOff hdc, squelch_off hsq, Bool.false_eq_true, if_false]
  rw [hkeep]
  rfl

/-- The conditioner streams from one block of whole pairs to the next (R56). -/
theorem conditionBlock_append (hdc : cfg.dcblockEn = false) (hsq : cfg.squelchL = 0) (c : Cond) {a : List Byte}
    (ha : a.length % 2 = 0) (b : List Byte) :
    conditionBlock par cfg c (a ++ b) =
      ((conditionBlock par cfg (conditionBlock par cfg c a).1 b).1,
        (conditionBlock par cfg c a).2 ++ (conditionBlock par cfg (conditionBlock par cfg c a).1 b).2) := by
  simp only [conditionBlock_stagesOff hdc hsq, iqPairs_append ha, condPairs_append, condPairs_withStages]
  generalize condPairs par cfg c (iqPairs a) = ra
  generalize condPairs par cfg ra.cond (iqPairs b) = rb
  simp only [runWithStages, stagesAfter, withStages, deemphStage_append, clearedCount_append]

/-- COND_BLOCK on a well-formed block in RUN. -/
theorem execCondBlock_wellFormed {s : State} {data : List Int} (hp : s.phase = .run)
    (hd : (Instr.condBlock data).wellFormed = true) :
    exec (.condBlock data) s = .next (condBlock (data.map (BitVec.ofInt 8)) (beginOp s)) := by
  simp only [Instr.wellFormed, Bool.and_eq_true, decide_eq_true_eq] at hd
  rw [exec_condBlock, execCondBlock, runOnly_run hp, operandIq_ok hd.1 hd.2, withOperand_ok]

theorem wellFormed_condBlock_append {a b : List Int} (ha : (Instr.condBlock a).wellFormed = true)
    (hb : (Instr.condBlock b).wellFormed = true) : (Instr.condBlock (a ++ b)).wellFormed = true := by
  simp only [Instr.wellFormed, Bool.and_eq_true, decide_eq_true_eq, List.length_append, List.all_append] at *
  obtain ⟨hlenA, hallA⟩ := ha
  obtain ⟨hlenB, hallB⟩ := hb
  exact ⟨by omega, hallA, hallB⟩

/-- Settles O30: the loop over the pairs and the de-emphasis both stream over the boundary, and the count of silent
blocks is cleared by a decimated pair of either block. -/
theorem partitionIsNotSeen : Obligations.PartitionIsNotSeen := by
  intro s a b hp ha hb hdc hsq
  have heven : (a.map (BitVec.ofInt 8)).length % 2 = 0 := by
    simp only [Instr.wellFormed, Bool.and_eq_true, decide_eq_true_eq] at ha
    rw [List.length_map, ha.1]
  have happ := conditionBlock_append (par := s.par) hdc hsq s.cond heven (b.map (BitVec.ofInt 8))
  rw [← List.map_append] at happ
  refine ⟨_, _, _, execCondBlock_wellFormed hp ha, execCondBlock_wellFormed hp hb,
    execCondBlock_wellFormed hp (wellFormed_condBlock_append ha hb), ?_, ?_⟩
  · exact congrArg Prod.fst happ
  · exact (congrArg (fun r => s.stream ++ r.2) happ).trans (List.append_assoc _ _ _).symm

end Sys2Proof.Machine
end

section
/-! PROOFS. COND and BSYNC share no state but the stream, so a COND_BLOCK may run before or after a pending BS_FEED
(20_memory.md R53, R55, 60_exceptions.md R153). -/

namespace Sys2Proof.Machine

open Sys2Proof.Safety

variable {s : State} {c : Cond} {q : List Int}

/-- `s` with another conditioner and another stream. -/
def withCond (c : Cond) (q : List Int) (s : State) : State := { s with cond := c, stream := q }

/-- A result of FSM_BYTE whose state has another conditioner and another stream. -/
def resultWithCond (c : Cond) (q : List Int) (p : FsmResult × State) : FsmResult × State := (p.1, withCond c q p.2)

/-- A rule that neither reads nor writes the conditioner and the stream. -/
def IgnoresCond (rule : State → Except Fault (FsmResult × State)) : Prop :=
  ∀ (c : Cond) (q : List Int) (s : State), rule (withCond c q s) = (rule s).map (resultWithCond c q)

/-! ### The frame machine and the link -/

theorem ignoresCond_fsmHeadLost (b : Byte) : IgnoresCond (fsmHeadLost b) := by
  intro c q s
  simp only [fsmHeadLost, apply_ite (Except.map (resultWithCond c q))]
  rfl

theorem ignoresCond_syncScan (b : Byte) (n : Nat) : IgnoresCond (syncScan b n) := by
  intro c q s
  induction n generalizing s with
  | zero => rfl
  | succ n ih =>
    rw [syncScan_succ, syncScan_succ]
    have hshift : syncShift (b.getLsbD (7 - n)) (withCond c q s) = withCond c q (syncShift (b.getLsbD (7 - n)) s) := rfl
    rw [hshift, ih]
    simp only [apply_ite (Except.map (resultWithCond c q))]
    rfl

theorem ignoresCond_fsmSync (b : Byte) : IgnoresCond (fsmSync b) := ignoresCond_syncScan b 8

theorem ignoresCond_fsmHeadFound (b : Byte) : IgnoresCond (fsmHeadFound b) := by
  intro c q s
  simp only [fsmHeadFound, apply_ite (Except.map (resultWithCond c q)), ← ignoresCond_fsmSync b c q]
  rfl

/-- A rule that pushes a byte first and then goes on with `k`. -/
theorem ignoresCond_push (b : Byte) {k : State → Except Fault (FsmResult × State)} (hk : IgnoresCond k) :
    IgnoresCond fun s => pushRaw b s >>= k := by
  intro c q s
  show pushRaw b (withCond c q s) >>= k = (pushRaw b s >>= k).map (resultWithCond c q)
  by_cases hr : s.fsm.raw.length = RAW_CAP
  · rw [pushRaw_full hr, pushRaw_full (s := withCond c q s) hr]
    rfl
  · rw [pushRaw_ok hr, pushRaw_ok (s := withCond c q s) hr, ok_bind, ok_bind, ← hk]
    rfl

theorem ignoresCond_fsmText (b : Byte) : IgnoresCond (fsmText b) := by
  refine ignoresCond_push b fun c q s => ?_
  simp only [apply_ite (Except.map (resultWithCond c q))]
  rfl

theorem ignoresCond_fsmCrc1 (b : Byte) : IgnoresCond (fsmCrc1 b) := ignoresCond_push b fun _ _ _ => rfl

theorem ignoresCond_fsmCrc2 (b : Byte) : IgnoresCond (fsmCrc2 b) := ignoresCond_push b fun _ _ _ => rfl

theorem ignoresCond_fsmEnd (b : Byte) : IgnoresCond (fsmEnd b) := by
  intro c q s
  have hfsm : (withCond c q s).fsm = s.fsm := rfl
  unfold fsmEnd
  rw [hfsm]
  split
  · rfl
  · split
    · rfl
    · rfl

/-- FSM_BYTE neither reads nor writes the conditioner and the stream. -/
theorem ignoresCond_fsmByte (b : Byte) : IgnoresCond (fsmByte b) := by
  intro c q s
  have hfsm : (withCond c q s).fsm = s.fsm := rfl
  unfold fsmByte
  rw [hfsm]
  split
  · exact ignoresCond_fsmHeadLost b c q s
  · exact ignoresCond_fsmHeadFound b c q s
  · exact ignoresCond_fsmSync b c q s
  · exact ignoresCond_fsmText b c q s
  · exact ignoresCond_fsmCrc1 b c q s
  · exact ignoresCond_fsmCrc2 b c q s
  · exact ignoresCond_fsmEnd b c q s
  · rfl

theorem linkAfter_withCond (r : FsmResult) : linkAfter r (withCond c q s) = withCond c q (linkAfter r s) := by
  cases r <;> rfl

/-- LINK neither reads nor writes the conditioner and the stream (R53). -/
theorem linkBit_withCond (bit : Bool) :
    linkBit bit (withCond c q s) = (linkBit bit s).map (withCond c q) := by
  by_cases hn : s.link.nbits < 7
  · rw [linkBit_short hn, linkBit_short (s := withCond c q s) hn]
    rfl
  · have hbyte := ignoresCond_fsmByte (shiftBit bit s.link).outbits c q (bitTaken bit s)
    rw [linkBit_call (s := withCond c q s) (Nat.not_lt.1 hn), linkBit_call (Nat.not_lt.1 hn)]
    refine (congrArg (Except.map fun p => linkAfter p.1 p.2) hbyte).trans ?_
    cases hf : fsmByte (shiftBit bit s.link).outbits (bitTaken bit s) with
    | error f => rfl
    | ok p => exact congrArg Except.ok (linkAfter_withCond p.1)

/-! ### BS_FEED -/

/-- The synchronizer's own part of BS_FEED, before LINK (R94). -/
def syncFeed (par : Params) (x : Int) (b : Bsync) : Except Fault Bsync :=
  bsFront par x { b with bitValid := false, bit := false } >>= bsClock par

/-- The end of BS_FEED (R94): the synchronizer's new state, and LINK when it produced a bit. -/
def handBit (b : Bsync) (s : State) : Except Fault State :=
  if b.bitValid then linkBit b.bit { s with bsync := b } else .ok { s with bsync := b }

theorem bsFeed_eq (x : Int) (s : State) : bsFeed x s = syncFeed s.par x s.bsync >>= fun b => handBit b s := by
  simp only [bsFeed, syncFeed, handBit, bind_assoc]

theorem handBit_withCond (b : Bsync) : handBit b (withCond c q s) = (handBit b s).map (withCond c q) := by
  unfold handBit
  split
  · exact linkBit_withCond (s := { s with bsync := b }) b.bit
  · rfl

/-- BS_FEED neither reads nor writes the conditioner and the samples still pending (R53). -/
theorem bsFeed_withCond (x : Int) : bsFeed x (withCond c q s) = (bsFeed x s).map (withCond c q) := by
  have hw : bsFeed x (withCond c q s) = syncFeed s.par x s.bsync >>= fun b => handBit b (withCond c q s) :=
    bsFeed_eq x _
  rw [hw, bsFeed_eq]
  cases syncFeed s.par x s.bsync with
  | error f => rfl
  | ok b => exact handBit_withCond b

/-! ### The two orders -/

/-- What COND_BLOCK makes of an operation just begun: another conditioner, more samples, and its events. -/
theorem condBlock_beginOp (data : List Byte) (s : State) :
    condBlock data (beginOp s) =
      { withCond (conditionBlock s.par s.cfg s.cond data).1
          (s.stream ++ (conditionBlock s.par s.cfg s.cond data).2) (beginOp s) with
        out := { Outputs.empty with events := squelchEvents (conditionBlock s.par s.cfg s.cond data).1 } } := rfl

/-- BS_FEED after a COND_BLOCK is BS_FEED before it, with what the COND_BLOCK wrote. -/
theorem feedStream_condBlock {t : State} {x : Int} {data : List Byte}
    (h : feedStream x (condBlock data (beginOp s)) = .next t) :
    ∃ u, feedStream x s = .next u ∧
      t = withCond (conditionBlock s.par s.cfg s.cond data).1
        (s.stream ++ (conditionBlock s.par s.cfg s.cond data).2) u := by
  have hfeed : (bsFeed x (beginOp s)).map (withCond (conditionBlock s.par s.cfg s.cond data).1
      (s.stream ++ (conditionBlock s.par s.cfg s.cond data).2)) = .ok t := by
    rw [← bsFeed_withCond]
    exact ofExcept_next h
  unfold feedStream
  cases hu : bsFeed x (beginOp s) with
  | error f => rw [hu] at hfeed; cases hfeed
  | ok u => rw [hu] at hfeed; cases hfeed; exact ⟨u, rfl, rfl⟩

/-- Settles O31: BS_FEED carries the conditioner and the stream through, and it leaves what COND_BLOCK reads. -/
theorem condAndSyncCommute : Obligations.CondAndSyncCommute := by
  intro s a b x data hp ha hb
  obtain ⟨-, hd, rfl⟩ := execCondBlock_cases ha
  obtain ⟨c, hc, rfl⟩ := feedStream_condBlock hb
  have hframe := bsFeed_frame (ofExcept_next hc)
  have hrun : c.phase = .run := by rw [hframe]; exact hp
  refine ⟨c, _, hc, execCondBlock_wellFormed hrun hd, ?_, rfl, rfl, ?_⟩
  · rw [hframe]
    rfl
  · rw [hframe]
    rfl

end Sys2Proof.Machine
end

section
/-! PROOFS. Which faults a step in RUN can end in (20_memory.md R43, 30_encoding.md R64, 60_exceptions.md R145): under
the invariant the frame machine always answers, and what is left are the comparisons of BS_FEED. -/

namespace Sys2Proof.Machine

open Sys2Proof.Safety

variable {s t : State} {f : Fault} {b : Byte}

/-! ### The frame machine answers in every state the invariant allows -/

theorem fsmByte_headLost (h : s.fsm.state = stHeadLost) : fsmByte b s = fsmHeadLost b s := by rw [fsmByte, h]; rfl

theorem fsmByte_headFound (h : s.fsm.state = stHeadFound) : fsmByte b s = fsmHeadFound b s := by rw [fsmByte, h]; rfl

theorem fsmByte_sync (h : s.fsm.state = stSync) : fsmByte b s = fsmSync b s := by rw [fsmByte, h]; rfl

theorem fsmByte_text (h : s.fsm.state = stText) : fsmByte b s = fsmText b s := by rw [fsmByte, h]; rfl

theorem fsmByte_crc1 (h : s.fsm.state = stCrc1) : fsmByte b s = fsmCrc1 b s := by rw [fsmByte, h]; rfl

theorem fsmByte_crc2 (h : s.fsm.state = stCrc2) : fsmByte b s = fsmCrc2 b s := by rw [fsmByte, h]; rfl

theorem fsmByte_end (h : s.fsm.state = stEnd) : fsmByte b s = fsmEnd b s := by rw [fsmByte, h]; rfl

theorem fsmHeadLost_answers (b : Byte) (s : State) : ∃ p, fsmHeadLost b s = .ok p := by
  simp only [fsmHeadLost]
  split
  · split
    · exact ⟨_, rfl⟩
    · exact ⟨_, rfl⟩
  · exact ⟨_, rfl⟩

/-- The one push of Sync is into an emptied raw frame, so Sync never faults (R120). -/
theorem syncScan_answers (b : Byte) (n : Nat) (s : State) : ∃ p, syncScan b n s = .ok p := by
  induction n generalizing s with
  | zero => exact ⟨_, rfl⟩
  | succ n ih =>
    rw [syncScan_succ]
    split
    · exact ⟨_, rfl⟩
    · split
      · exact ⟨_, rfl⟩
      · exact ih _

theorem fsmHeadFound_answers (b : Byte) (s : State) : ∃ p, fsmHeadFound b s = .ok p := by
  unfold fsmHeadFound
  split
  · exact ⟨_, rfl⟩
  · exact syncScan_answers b 8 _

/-- A rule that pushes a byte first answers when there is room and the rest answers (R43). -/
theorem push_answers {k : State → Except Fault (FsmResult × State)} (hr : s.fsm.raw.length < RAW_CAP)
    (hk : ∀ u, ∃ p, k u = .ok p) : ∃ p, (pushRaw b s >>= k) = .ok p := by
  rw [pushRaw_ok hr.ne, ok_bind]
  exact hk _

theorem fsmText_answers (hr : s.fsm.raw.length < RAW_CAP) : ∃ p, fsmText b s = .ok p := by
  refine push_answers hr fun u => ?_
  split
  · exact ⟨_, rfl⟩
  · split
    · exact ⟨_, rfl⟩
    · exact ⟨_, rfl⟩

theorem fsmCrc1_answers (hr : s.fsm.raw.length < RAW_CAP) : ∃ p, fsmCrc1 b s = .ok p :=
  push_answers hr fun _ => ⟨_, rfl⟩

theorem fsmCrc2_answers (hr : s.fsm.raw.length < RAW_CAP) : ∃ p, fsmCrc2 b s = .ok p :=
  push_answers hr fun _ => ⟨_, rfl⟩

theorem fsmEnd_answers (b : Byte) (s : State) : ∃ p, fsmEnd b s = .ok p := by
  unfold fsmEnd
  split
  · exact ⟨_, rfl⟩
  · split
    · exact ⟨_, rfl⟩
    · exact ⟨_, rfl⟩

/-- Under the invariant the tag has a rule, and every state that pushes a byte has room for it (R43, R64). -/
theorem fsmByte_answers (h : FsmOk s) (b : Byte) : ∃ p, fsmByte b s = .ok p := by
  have hcap : MAXBLK + 2 < RAW_CAP := by decide
  obtain ⟨-, -, ⟨hst, -⟩ | ⟨hst, -⟩ | ⟨hst, -⟩ | ⟨hst, -, hlen⟩ | ⟨hst, -, hlen⟩ | ⟨hst, -, hlen⟩ | ⟨hst, -⟩⟩ := h
  · rw [fsmByte_headLost hst]
    exact fsmHeadLost_answers b s
  · rw [fsmByte_headFound hst]
    exact fsmHeadFound_answers b s
  · rw [fsmByte_sync hst]
    exact syncScan_answers b 8 s
  · rw [fsmByte_text hst]
    exact fsmText_answers (by omega)
  · rw [fsmByte_crc1 hst]
    exact fsmCrc1_answers (by omega)
  · rw [fsmByte_crc2 hst]
    exact fsmCrc2_answers (by omega)
  · rw [fsmByte_end hst]
    exact fsmEnd_answers b s

theorem linkBit_answers (h : FsmOk s) (bit : Bool) : ∃ t, linkBit bit s = .ok t := by
  by_cases hn : s.link.nbits < 7
  · exact ⟨_, linkBit_short hn⟩
  · obtain ⟨p, hp⟩ := fsmByte_answers (s := bitTaken bit s) h (shiftBit bit s.link).outbits
    rw [linkBit_call (Nat.not_lt.1 hn), hp]
    exact ⟨_, rfl⟩

/-! ### The synchronizer faults on a NaN only (R110) -/

/-- A part of BS_FEED whose only fault is NAN_IN_LOOP. -/
def FaultsOnNan {α : Type} (e : Except Fault α) : Prop := ∀ f, e = .error f → f = .nanInLoop

theorem faultsOnNan_ok {α : Type} (a : α) : FaultsOnNan (.ok a) := fun _ h => nomatch h

theorem faultsOnNan_nan {α : Type} : FaultsOnNan (.error .nanInLoop : Except Fault α) :=
  fun _ h => (Except.error.inj h).symm

theorem faultsOnNan_bind {α β : Type} {e : Except Fault α} {k : α → Except Fault β} (he : FaultsOnNan e)
    (hk : ∀ a, FaultsOnNan (k a)) : FaultsOnNan (e >>= k) := by
  cases e with
  | ok a => exact hk a
  | error f =>
    intro g hg
    cases hg
    exact he f rfl

theorem faultsOnNan_ite {α : Type} {p : Prop} [Decidable p] {e e' : Except Fault α} (he : FaultsOnNan e)
    (he' : FaultsOnNan e') : FaultsOnNan (if p then e else e') := by
  split
  · exact he
  · exact he'

theorem faultsOnNan_ltChecked (x y : Real64) : FaultsOnNan (ltChecked x y) :=
  faultsOnNan_ite faultsOnNan_nan (faultsOnNan_ok _)

theorem faultsOnNan_geChecked (x y : Real64) : FaultsOnNan (geChecked x y) :=
  faultsOnNan_ite faultsOnNan_nan (faultsOnNan_ok _)

theorem faultsOnNan_clampEa (x : Real64) : FaultsOnNan (clampEa x) :=
  faultsOnNan_ite faultsOnNan_nan (faultsOnNan_ok _)

theorem faultsOnNan_normalise (x : Int) (lin : Real64) : FaultsOnNan (normalise x lin) :=
  faultsOnNan_ite faultsOnNan_nan (faultsOnNan_ok _)

theorem faultsOnNan_mod4pi (x : Real64) : FaultsOnNan (mod4pi x) :=
  faultsOnNan_bind (faultsOnNan_ltChecked _ _) fun _ =>
    faultsOnNan_bind (faultsOnNan_geChecked _ _) fun _ => faultsOnNan_ok _

theorem faultsOnNan_slice (sg : Sgn) (v : Real64) : FaultsOnNan (slice sg v) :=
  faultsOnNan_bind (faultsOnNan_ltChecked _ _) fun _ =>
    faultsOnNan_bind (faultsOnNan_ltChecked _ _) fun _ => faultsOnNan_ok _

theorem faultsOnNan_vfoStep (t : Trig) (dphi u2 : Real64) (is : Nat) (phi df : Real64) (ring : Ring) :
    FaultsOnNan (vfoStep t dphi u2 is phi df ring) :=
  faultsOnNan_bind (faultsOnNan_mod4pi _) fun _ => faultsOnNan_ok _

variable (par : Params)

theorem faultsOnNan_bsFront (x : Int) (c : Bsync) : FaultsOnNan (bsFront par x c) :=
  faultsOnNan_bind (faultsOnNan_normalise _ _) fun _ =>
    faultsOnNan_bind (faultsOnNan_vfoStep _ _ _ _ _ _ _) fun _ =>
      faultsOnNan_bind (faultsOnNan_vfoStep _ _ _ _ _ _ _) fun _ => faultsOnNan_ok _

theorem faultsOnNan_sliceQ (v : Real64) (c : Bsync) : FaultsOnNan (sliceQ par v c) :=
  faultsOnNan_bind (faultsOnNan_slice _ _) fun _ =>
    faultsOnNan_bind (faultsOnNan_clampEa _) fun _ => faultsOnNan_ok _

theorem faultsOnNan_sliceI (v : Real64) (c : Bsync) : FaultsOnNan (sliceI par v c) :=
  faultsOnNan_bind (faultsOnNan_slice _ _) fun _ =>
    faultsOnNan_bind (faultsOnNan_clampEa _) fun _ => faultsOnNan_ok _

theorem faultsOnNan_bsSlice (v : Real64) (c : Bsync) : FaultsOnNan (bsSlice par v c) :=
  faultsOnNan_bind (faultsOnNan_ltChecked _ _) fun _ =>
    faultsOnNan_bind (faultsOnNan_ltChecked _ _) fun _ =>
      faultsOnNan_bind (faultsOnNan_ltChecked _ _) fun _ =>
        faultsOnNan_bind (faultsOnNan_ltChecked _ _) fun _ =>
          faultsOnNan_ite (faultsOnNan_sliceQ par v c)
            (faultsOnNan_ite (faultsOnNan_sliceI par v c) (faultsOnNan_ok _))

theorem faultsOnNan_bsClock (c : Bsync) : FaultsOnNan (bsClock par c) :=
  faultsOnNan_bind (faultsOnNan_geChecked _ _) fun _ =>
    faultsOnNan_ite (faultsOnNan_bind (faultsOnNan_bsSlice par _ _) fun _ => faultsOnNan_ok _) (faultsOnNan_ok _)

/-- BS_FEED under the frame machine's invariant: LINK answers, so a fault is one of the synchronizer's. -/
theorem faultsOnNan_bsFeed (h : FsmOk s) (x : Int) : FaultsOnNan (bsFeed x s) := by
  rw [bsFeed_eq]
  refine faultsOnNan_bind (faultsOnNan_bind (faultsOnNan_bsFront _ _ _) (faultsOnNan_bsClock _)) fun c =>
    faultsOnNan_ite ?_ (faultsOnNan_ok _)
  obtain ⟨t, ht⟩ := linkBit_answers (s := { s with bsync := c }) h c.bit
  rw [ht]
  exact faultsOnNan_ok t

/-! ### Faults of an operation and of a step -/

variable {o k : Host.Outcome State Fault Refusal} {i : Instr} {key : Byte} {ops : List Int} {st : BitVec 3}

theorem runOnly_fault (h : runOnly s k = .fault f) : k = .fault f := by
  unfold runOnly at h
  split at h
  · cases h
  · exact h

theorem withOperand_fault {α : Type} {e : Except Refusal α} {g : α → Host.Outcome State Fault Refusal}
    (h : withOperand e g = .fault f) : ∃ a, g a = .fault f := by
  cases e with
  | ok a => exact ⟨a, h⟩
  | error r => cases h

theorem ofExcept_fault {e : Except Fault State} (h : ofExcept e = .fault f) : e = .error f := by
  cases e with
  | ok a => cases h
  | error g => cases h; rfl

/-- Only an operation faults: what becomes of a refusal does not. -/
theorem settle_fault_iff : settle s o = .fault f ↔ o = .fault f := by
  cases o with
  | next u => exact Iff.rfl
  | fault g => exact Iff.rfl
  | refused r =>
    simp only [settle, reduceCtorEq, iff_false]
    split <;> simp

theorem configWrite_no_fault {w : CfgWrite} : configWrite w s ≠ .fault f := by
  unfold configWrite
  split
  · simp
  · split <;> simp

theorem fsmOperation_no_fault (h : FsmOk s) {v : Int} : fsmOperation fsmByte v s ≠ .fault f := by
  intro hf
  obtain ⟨c, hc⟩ := withOperand_fault (runOnly_fault hf)
  obtain ⟨p, hp⟩ := fsmByte_answers (s := beginOp s) h c
  rw [hp] at hc
  cases hc

/-- The operations that return a value of their operands alone do not fault (R53). -/
theorem combinational_no_fault {α : Type} {e : Except Refusal α} {g : α → OpResult} :
    withOperand e (fun a => combinational (g a) s) ≠ .fault f := by
  intro hf
  obtain ⟨a, ha⟩ := withOperand_fault hf
  cases ha

/-- An operation other than FSM_BYTE faults on a NaN only. -/
theorem exec_fault (h : FsmOk s) (hi : keyOp i.key ≠ 4) (hf : exec i s = .fault f) : f = .nanInLoop := by
  cases i with
  | reset => cases hf
  | condBlock data =>
    obtain ⟨a, ha⟩ := withOperand_fault (runOnly_fault hf)
    cases ha
  | bsFeed x =>
    obtain ⟨v, hv⟩ := withOperand_fault (runOnly_fault hf)
    exact faultsOnNan_bsFeed (s := beginOp s) h v f (ofExcept_fault hv)
  | bitIn v =>
    obtain ⟨bit, hbit⟩ := withOperand_fault (runOnly_fault hf)
    obtain ⟨t, ht⟩ := linkBit_answers (s := beginOp s) h bit
    rw [ht] at hbit
    cases hbit
  | crcGen data => exact absurd hf combinational_no_fault
  | crcCheck data => exact absurd hf combinational_no_fault
  | crcFold crc b => exact absurd hf combinational_no_fault
  | crcFoldRev crc b => exact absurd hf combinational_no_fault
  | oddParity c => exact absurd hf combinational_no_fault
  | fsmByteHeadLost b | fsmByteHeadFound b | fsmByteSync b | fsmByteText b | fsmByteCrc1 b | fsmByteCrc2 b
  | fsmByteEnd b => simp [keyOp, Instr.key] at hi

/-- An operation that the decoder selected faults on a NaN only. -/
theorem exec_fault_of_decode (h : FsmOk s) (hd : decode (formKey key s.fsm.state) ops = .ok i)
    (hf : exec i s = .fault f) : f = .nanInLoop := by
  by_cases hi : keyOp i.key = 4
  · obtain ⟨-, b, hb⟩ := runsFsmByte_of_decodeFsm (decodeFsm_of_decode hd hi)
    rw [hb s rfl] at hf
    exact absurd hf (fsmOperation_no_fault h)
  · exact exec_fault h hi hf

/-! ### The tag without a rule (R64) -/

theorem decodeOne_error {mk : Int → Instr} {r : Reject} (h : decodeOne mk ops = .error r) : r = .operandShape := by
  unfold decodeOne at h
  split at h
  · cases h
  · cases h; rfl

theorem decodeTwo_error {mk : Int → Int → Instr} {r : Reject} (h : decodeTwo mk ops = .error r) :
    r = .operandShape := by
  unfold decodeTwo at h
  split at h
  · cases h
  · cases h; rfl

theorem decodeFsm_badState (h : decodeFsm st ops = .error .badState) : st = 7#3 := by
  unfold decodeFsm at h
  split at h
  case h_8 h0 h1 h2 h3 h4 h5 h6 =>
    have hlt := st.isLt
    simp only [imp_false] at h0 h1 h2 h3 h4 h5 h6
    exact BitVec.eq_of_toNat_eq (by simp only [BitVec.toNat_ofNat]; omega)
  all_goals cases decodeOne_error h

/-- The decoder finds the tag without a rule only when the frame machine holds it (R61, R64). -/
theorem decode_badState (h : decode (formKey key st) ops = .error .badState) : st = 7#3 := by
  unfold decode at h
  split at h
  · cases h
  · split at h
    case h_5 hop =>
      rw [keySt_formKey ((keyOp_formKey key st).symm.trans hop)] at h
      exact decodeFsm_badState h
    case h_1 => split at h <;> cases h
    case h_2 | h_6 | h_7 | h_11 => cases h
    case h_3 | h_4 | h_10 => cases decodeOne_error h
    case h_8 | h_9 => cases decodeTwo_error h

theorem fsmOk_tag (h : FsmOk s) : s.fsm.state ≠ 7#3 := by
  intro h7
  obtain ⟨-, -, hst⟩ := h
  simp [h7, stHeadLost, stHeadFound, stSync, stText, stCrc1, stCrc2, stEnd] at hst

theorem rejected_fault {r : Reject} (h : rejected r key ops s = .fault f) : r = .badState := by
  cases r with
  | badState => rfl
  | reservedOp => cases h
  | noKey => cases h
  | operandShape =>
    simp only [rejected] at h
    split at h <;> cases h

/-- Settles O20: the frame machine answers in every state the invariant allows, and every other fault is a NaN's. -/
theorem runStatesNeverOverflowOrLoseTag : Obligations.RunStatesNeverOverflowOrLoseTag := by
  intro s f hinv hp h
  obtain ⟨-, -, -, hfsm⟩ := hinv.2 hp
  unfold step at h
  rcases fetch_cases s with ⟨x, xs, more, -, hf⟩ | ⟨more, hf, -⟩
  · rw [hf] at h
    exact faultsOnNan_bsFeed (s := beginOp { s with stream := xs, schedule := more }) hfsm x f (ofExcept_fault h)
  · rcases fetchHost_cases { s with schedule := more } with ⟨-, hh⟩ | ⟨w, rest, -, hh⟩ |
      ⟨key, ops, rest, i, -, hd, hh⟩ | ⟨key, ops, rest, r, -, hd, hh⟩
    · rw [hf, hh] at h
      cases h
    · rw [hf, hh] at h
      exact absurd (settle_fault_iff.1 h) configWrite_no_fault
    · rw [hf, hh] at h
      exact exec_fault_of_decode (s := { s with schedule := more, inbox := rest }) hfsm hd (settle_fault_iff.1 h)
    · rw [hf, hh] at h
      cases rejected_fault (settle_fault_iff.1 h)
      exact absurd (decode_badState hd) (fsmOk_tag hfsm)

end Sys2Proof.Machine
end

section
/-! PROOFS. The dispatch key, the rows of the opcode table, and the operand bytes (30_encoding.md R61 to R65;
log 13). -/

namespace Sys2Proof

/-! ### The dispatch key -/

/-- Settles O1: R61's count, over the 256 keys. -/
theorem oneRowPerKey : Obligations.OneRowPerKey := by
  unfold Obligations.OneRowPerKey
  decide +kernel

/-- Without its state bits, an admitted key of FSM_BYTE is 0x04. -/
theorem mask_of_fsm_key : ∀ key : Byte, keyOp key = 4 → keyRsv key = false → key &&& 0x8F#8 = 0x04#8 := by
  decide +kernel

/-- Settles O2: the mask leaves 0x04 of the key of FSM_BYTE, and every other key is not formed anew. -/
theorem decoderInsertsStateTag : Obligations.DecoderInsertsStateTag := by
  intro key st
  refine ⟨fun hop hrsv => ?_, fun hop => formKey_of_not_fsm hop st⟩
  rw [formKey, if_pos hop, mask_of_fsm_key key hop hrsv]

/-- Settles O3: each of the twelve words is decoded. -/
theorem tableWordsDecode : Obligations.TableWordsDecode := by
  unfold Obligations.TableWordsDecode
  decide

/-! ### Operand bytes -/

theorem isU8_of_isBit {v : Int} (h : isBit v = true) : isU8 v = true := by
  rcases Machine.isBit_iff.1 h with rfl | rfl <;> rfl

theorem zext8_byteOfInt {n : Int} (h : isU8 n = true) : zext8 (byteOfInt n) = n :=
  Machine.toNat_ofInt_u8 h

/-- The two operand bytes of a word hold its value. -/
theorem u16OfBytes_extract (w : Word16) : u16OfBytes (w.extractLsb' 0 8) (w.extractLsb' 8 8) = w.toNat := by
  have hlt := w.isLt
  simp only [u16OfBytes, BitVec.extractLsb'_toNat, Nat.shiftRight_eq_div_pow]
  omega

/-- Read as an s16, they hold its two's complement value (R63). -/
theorem s16OfBytes_extract (w : Word16) : s16OfBytes (w.extractLsb' 0 8) (w.extractLsb' 8 8) = w.toInt := by
  simp only [s16OfBytes, u16OfBytes_extract, BitVec.toInt_eq_toNat_cond]
  split <;> split <;> omega

theorem toInt_ofInt_s16 {n : Int} (h : isS16 n = true) : (BitVec.ofInt 16 n).toInt = n := by
  rw [Machine.isS16_iff] at h
  rw [BitVec.toInt_ofInt]
  exact Int.bmod_eq_of_le (by omega) (by omega)

variable {key : Byte}

/-- Every operation but BS_FEED, CRC_FOLD and CRC_FOLD_REV takes one operand value from each byte. -/
theorem operandsOfBytes_bytewise (hk : keyOp key ∉ [2, 7, 8]) (bytes : List Byte) :
    operandsOfBytes key bytes = bytes.map zext8 := by
  unfold operandsOfBytes
  split
  case h_7 => rfl
  all_goals simp_all

theorem operandsOfBytes_seq {data : List Int} (hk : keyOp key ∉ [2, 7, 8]) (h : data.all isU8 = true) :
    operandsOfBytes key (data.map byteOfInt) = data := by
  rw [operandsOfBytes_bytewise hk, List.map_map]
  exact (List.map_congr_left fun n hn => zext8_byteOfInt (List.all_eq_true.1 h n hn)).trans data.map_id

theorem operandsOfBytes_u8 {b : Int} (hk : keyOp key ∉ [2, 7, 8]) (h : isU8 b = true) :
    operandsOfBytes key [byteOfInt b] = [b] :=
  operandsOfBytes_seq (data := [b]) hk (by simpa using h)

theorem operandsOfBytes_s16 {x : Int} (hk : keyOp key = 2) (h : isS16 x = true) :
    operandsOfBytes key (bytesOf16 x) = [x] := by
  simp only [operandsOfBytes, hk, bytesOf16, s16OfBytes_extract, toInt_ofInt_s16 h]

theorem operandsOfBytes_crcByte {crc b : Int} (hk : keyOp key = 7 ∨ keyOp key = 8) (hc : isU16 crc = true)
    (hb : isU8 b = true) : operandsOfBytes key (bytesOf16 crc ++ [byteOfInt b]) = [crc, b] := by
  rcases hk with hk | hk <;>
    simp only [operandsOfBytes, hk, bytesOf16, List.cons_append, List.nil_append, u16OfBytes_extract,
      Machine.toNat_ofInt_u16 hc, zext8_byteOfInt hb]

/-- The operand bytes of an operation whose operands are in their types hold its operand values. -/
theorem operandsOfBytes_operandBytes {i : Instr} (h : i.wellFormed = true) :
    operandsOfBytes i.key i.operandBytes = i.operands := by
  cases i with
  | reset => rfl
  | condBlock data =>
    obtain ⟨-, hd⟩ := Bool.and_eq_true_iff.1 h
    exact operandsOfBytes_seq (by simp [Instr.key, keyOp]) hd
  | crcGen data | crcCheck data => exact operandsOfBytes_seq (by simp [Instr.key, keyOp]) h
  | bsFeed x => exact operandsOfBytes_s16 rfl h
  | bitIn v => exact operandsOfBytes_u8 (by simp [Instr.key, keyOp]) (isU8_of_isBit h)
  | fsmByteHeadLost b | fsmByteHeadFound b | fsmByteSync b | fsmByteText b | fsmByteCrc1 b | fsmByteCrc2 b
  | fsmByteEnd b | oddParity b => exact operandsOfBytes_u8 (by simp [Instr.key, keyOp]) h
  | crcFold crc b =>
    obtain ⟨hc, hb⟩ := Bool.and_eq_true_iff.1 h
    exact operandsOfBytes_crcByte (.inl rfl) hc hb
  | crcFoldRev crc b =>
    obtain ⟨hc, hb⟩ := Bool.and_eq_true_iff.1 h
    exact operandsOfBytes_crcByte (.inr rfl) hc hb

open Laws in
/-- The key and the operand values of an operation select it (R61, R62). -/
theorem decode_key_operands : ∀ i : Instr, decode i.key i.operands = .ok i
  | .reset => EncodedKey.reset.2
  | .condBlock data => (EncodedKey.condBlock data).2
  | .bsFeed x => (EncodedKey.bsFeed x).2
  | .bitIn v => (EncodedKey.bitIn v).2
  | .fsmByteHeadLost b => (EncodedKey.fsmByteHeadLost b).2
  | .fsmByteHeadFound b => (EncodedKey.fsmByteHeadFound b).2
  | .fsmByteSync b => (EncodedKey.fsmByteSync b).2
  | .fsmByteText b => (EncodedKey.fsmByteText b).2
  | .fsmByteCrc1 b => (EncodedKey.fsmByteCrc1 b).2
  | .fsmByteCrc2 b => (EncodedKey.fsmByteCrc2 b).2
  | .fsmByteEnd b => (EncodedKey.fsmByteEnd b).2
  | .crcGen data => (EncodedKey.crcGen data).2
  | .crcCheck data => (EncodedKey.crcCheck data).2
  | .crcFold crc b => (EncodedKey.crcFold crc b).2
  | .crcFoldRev crc b => (EncodedKey.crcFoldRev crc b).2
  | .oddParity c => (EncodedKey.oddParity c).2

/-- Settles O4: the operand bytes hold the operand values, and with them the key selects the operation. -/
theorem decodeInvertsEncode : Obligations.DecodeInvertsEncode := by
  intro i h
  calc decodeBytes (encode i) = decode i.key (operandsOfBytes i.key i.operandBytes) := rfl
    _ = decode i.key i.operands := by rw [operandsOfBytes_operandBytes h]
    _ = .ok i := decode_key_operands i

end Sys2Proof
end

section
/-! PROOFS. The transactions that select no operation: reserved keys, and FSM_BYTE in the state 7 (30_encoding.md R64,
60_exceptions.md R145, R146; logs 10, 11). -/

namespace Sys2Proof.Machine

open Sys2Proof.Safety

variable {s : State} {key : Byte} {ops : List Int} {rest : List HostItem} {st : BitVec 3} {r : Reject}

theorem keyRsv_formKey (key : Byte) (st : BitVec 3) : keyRsv (formKey key st) = keyRsv key := by
  unfold formKey keyRsv
  split <;> simp

/-- A reserved key selects no operation, whatever the operands (R64). -/
theorem decode_reserved (h : keyRsv key = true ∨ 10 ≤ keyOp key) : decode key ops = .error .reservedOp := by
  unfold decode
  split
  · rfl
  · next hrsv =>
    have hop : 10 ≤ keyOp key := h.resolve_left hrsv
    split
    case h_11 => rfl
    all_goals omega

/-- In the state 7 no row of FSM_BYTE is selected (R64). -/
theorem decode_tagSeven (hrsv : keyRsv key = false) (hop : keyOp key = 4) :
    decode (formKey key 7#3) ops = .error .badState := by
  simp only [decode, keyRsv_formKey, hrsv, keyOp_formKey, hop, keySt_formKey hop, Bool.false_eq_true, if_false]
  rfl

/-- With no sample pending, a step turns away the oldest host item when it selects no operation (R54, R64). -/
theorem step_reject (hs : s.stream = []) (hi : s.inbox = .op key ops :: rest)
    (hd : decode (formKey key s.fsm.state) ops = .error r) :
    step s =
      settle { s with inbox := rest } (rejected r (formKey key s.fsm.state) ops { s with inbox := rest }) := by
  have hf : fetch s = .reject r (formKey key s.fsm.state) ops { s with inbox := rest } := by
    simp only [fetch_host hs, fetchHost, hi, hd]
  rw [step, hf]

/-- In RUN, the tag 7 with a u8 is the fault BAD_STATE (R64, R145). -/
theorem rejected_badState {b : Int} (hp : s.phase = .run) (hb : isU8 b = true) :
    rejected .badState key [b] s = .fault .badState := by
  simp [rejected, hp, hb]

/-- Settles O9: the key stays reserved when the state tag is inserted, and RESERVED_OP leaves its mark. -/
theorem reservedKeyLeavesOnlyItsMark : Obligations.ReservedKeyLeavesOnlyItsMark := by
  intro s key ops rest hs hi hres
  have hd : decode (formKey key s.fsm.state) ops = .error .reservedOp :=
    decode_reserved (by rwa [keyRsv_formKey, keyOp_formKey])
  rw [step_reject hs hi hd]
  exact settle_refused rfl

/-- Settles O10: the inserted tag selects no row, and in RUN with a u8 that is the fault. -/
theorem tagSevenIsBadState : Obligations.TagSevenIsBadState := by
  intro s key b rest hs hi hrsv hop hp htag h0 h256
  have hd : decode (formKey key s.fsm.state) [b] = .error .badState := by
    rw [htag]
    exact decode_tagSeven hrsv hop
  rw [step_reject hs hi hd, rejected_badState (s := { s with inbox := rest }) hp (isU8_iff.2 ⟨h0, h256⟩), settle_fault]

end Sys2Proof.Machine
end

section
/-! PROOFS. Operands outside their type (30_encoding.md R63, 60_exceptions.md R146, R147). -/

namespace Sys2Proof.Machine

variable {s : State} {n m : Int} {data : List Int}

theorem isU8_eq_false (h : n < 0 ∨ 255 < n) : isU8 n = false := by
  rw [Bool.eq_false_iff, Ne, isU8_iff]
  omega

theorem isU16_eq_false (h : n < 0 ∨ 65535 < n) : isU16 n = false := by
  rw [Bool.eq_false_iff, Ne, isU16_iff]
  omega

theorem isS16_eq_false (h : n < -32768 ∨ 32767 < n) : isS16 n = false := by
  rw [Bool.eq_false_iff, Ne, isS16_iff]
  omega

theorem isBit_eq_false (h0 : n ≠ 0) (h1 : n ≠ 1) : isBit n = false := by
  rw [Bool.eq_false_iff, Ne, isBit_iff]
  omega

theorem all_isU8_eq_false (h : ∃ b ∈ data, b < 0 ∨ 255 < b) : data.all isU8 = false := by
  obtain ⟨b, hb, hr⟩ := h
  exact List.all_eq_false.2 ⟨b, hb, by simp [isU8_eq_false hr]⟩

theorem operandIq_badOperand (h2 : data.length % 2 = 0) (h : data.all isU8 = false) :
    operandIq data = .error .badOperand := by
  rw [operandIq, if_neg (by omega), operandSeq_error h]

/-- A pair is refused when either operand is outside its type. -/
theorem operandCrcByte_error (h : isU16 m = false ∨ isU8 n = false) :
    operandCrcByte m n = .error .badOperand := by
  cases hm : isU16 m with
  | false => simp [operandCrcByte, operandU16, hm]
  | true =>
    have hn : isU8 n = false := h.resolve_left (by simp [hm])
    rw [operandCrcByte, operandU16_ok hm, operandU8_error hn]

variable {α : Type} {e : Except Refusal α} {k : α → Host.Outcome State Fault Refusal} {r : Refusal}

theorem withOperand_of_error (he : e = .error r) : withOperand e k = .refused r := by
  rw [he, withOperand_error]

/-- In RUN a stateful operation refuses an operand outside its type. -/
theorem runOnly_withOperand_of_error (hp : s.phase = .run) (he : e = .error r) :
    runOnly s (withOperand e k) = .refused r := by
  rw [runOnly_run hp, withOperand_of_error he]

/-- Settles O12: each operation admits its operand by its type before anything else is done in RUN. -/
theorem operandsOutsideTheirTypeAreRefused : Obligations.OperandsOutsideTheirTypeAreRefused := by
  intro s data n m hp
  refine ⟨?oddIqBlock, ?iqBlock, ?sequence, ?bit, ?sample, ?byte, ?crcByte⟩
  case oddIqBlock => exact fun h2 => runOnly_withOperand_of_error hp (operandIq_odd h2)
  case iqBlock =>
    exact fun h2 h => runOnly_withOperand_of_error hp (operandIq_badOperand h2 (all_isU8_eq_false h))
  case sequence =>
    intro h
    have he := operandSeq_error (all_isU8_eq_false h)
    exact ⟨withOperand_of_error he, withOperand_of_error he⟩
  case bit => exact fun h0 h1 => runOnly_withOperand_of_error hp (operandBit_error (isBit_eq_false h0 h1))
  case sample => exact fun h => runOnly_withOperand_of_error hp (operandS16_error (isS16_eq_false h))
  case byte =>
    intro h
    have he := operandU8_error (isU8_eq_false h)
    have hfsm : ∀ rule, fsmOperation rule n s = .refused .badOperand :=
      fun _ => runOnly_withOperand_of_error hp he
    exact ⟨hfsm _, hfsm _, hfsm _, hfsm _, hfsm _, hfsm _, hfsm _, withOperand_of_error he⟩
  case crcByte =>
    intro h
    have he : operandCrcByte m n = .error .badOperand :=
      operandCrcByte_error ((or_assoc.2 h).imp isU16_eq_false isU8_eq_false)
    exact ⟨withOperand_of_error he, withOperand_of_error he⟩

end Sys2Proof.Machine
end

section
/-! PROOFS. The fields of a frame (30_encoding.md R72). -/

namespace Sys2Proof.Machine

/-- The fields `fs` of a frame of `len` bytes follow one another without a gap, from index `a` to the end. -/
def FieldsTile (len : Nat) : Nat → List FrameField → Prop
  | a, [] => a = len
  | a, f :: fs => (f.place len).1 = a ∧ FieldsTile len (a + (f.place len).2) fs

variable {r : FrameRecord} {len : Nat}

/-- Fields that follow one another from index `a` to the end hold the bytes from there on. -/
theorem flatMap_field_of_tile (hlen : r.len = r.bytes.length) (fs : List FrameField) (a : Nat)
    (h : FieldsTile r.len a fs) : fs.flatMap r.field = r.bytes.drop a := by
  induction fs generalizing a with
  | nil =>
    have ha : a = r.len := h
    rw [List.flatMap_nil, List.drop_eq_nil_of_le (by omega)]
  | cons f fs ih =>
    obtain ⟨hf, hfs⟩ := h
    rw [List.flatMap_cons, ih _ hfs, FrameRecord.field, hf, ← List.drop_drop, List.take_append_drop]

/-- The layout of R72 leaves no gap in a frame that has room for the fields of fixed length. -/
theorem frameFields_tile (h : 27 ≤ len) : FieldsTile len 0 frameFields := by
  simp only [frameFields, FieldsTile, FrameField.place, true_and]
  omega

/-- Every field lies inside such a frame. -/
theorem place_end_le (h : 27 ≤ len) (f : FrameField) : (f.place len).1 + (f.place len).2 ≤ len := by
  cases f <;> simp only [FrameField.place] <;> omega

theorem field_length (hlen : r.len = r.bytes.length) (h : 27 ≤ r.len) (f : FrameField) :
    (r.field f).length = (f.place r.len).2 := by
  have := place_end_le h f
  rw [FrameRecord.field, List.length_take, List.length_drop]
  omega

/-- Settles O53: the fields tile the frame, so each has its length and together they are its bytes. -/
theorem frameLayoutCoversTheFrame : Obligations.FrameLayoutCoversTheFrame := by
  intro r hlen h
  refine ⟨flatMap_field_of_tile hlen _ 0 (frameFields_tile h), ?lengths, rfl, rfl, ?crc⟩
  case lengths =>
    rw [List.map_congr_left fun f _ => field_length hlen h f]
    rfl
  case crc => exact List.take_of_length_le (by simp only [FrameField.place, List.length_drop]; omega)

end Sys2Proof.Machine
end

section
/-! PROOFS. The envelope of a decimated pair (40_conditioner.md R83). -/

namespace Sys2Proof.Machine

/-- A root in range stays in range when its next lower bit is tried: the range halves (R83). -/
theorem isqrtBits_isRoot {n : Nat} (k : Nat) {r : Nat} (hlo : r * r ≤ n) (hhi : n < (r + 2 ^ k) * (r + 2 ^ k)) :
    isqrtBits n k r * isqrtBits n k r ≤ n ∧ n < (isqrtBits n k r + 1) * (isqrtBits n k r + 1) := by
  induction k generalizing r with
  | zero => exact ⟨hlo, hhi⟩
  | succ k ih =>
    rw [isqrtBits]
    split
    · next hle =>
      refine ih hle ?_
      rwa [Nat.add_assoc, ← Nat.two_mul, ← Nat.pow_succ']
    · next hgt => exact ih hlo (Nat.lt_of_not_le hgt)

/-- The first bit tried by `isqrt` is above the root. -/
theorem lt_isqrt_start_sq (n : Nat) : n < 2 ^ (n.log2 / 2 + 1) * 2 ^ (n.log2 / 2 + 1) := by
  rw [← Nat.pow_add]
  exact Nat.lt_log2_self.trans_le (Nat.pow_le_pow_right Nat.two_pos (by omega))

/-- `isqrt(n)` is the greatest integer whose square is at most `n` (R83). -/
theorem isqrt_isRoot (n : Nat) : isqrt n * isqrt n ≤ n ∧ n < (isqrt n + 1) * (isqrt n + 1) :=
  isqrtBits_isRoot _ (Nat.zero_le n) (by simpa using lt_isqrt_start_sq n)

/-- The radicand of the envelope, a sum of squares, as a natural number. -/
theorem toNat_sum_of_squares (oi oq : Int) : ((oi * oi + oq * oq).toNat : Int) = oi * oi + oq * oq :=
  Int.toNat_of_nonneg (add_nonneg (mul_self_nonneg oi) (mul_self_nonneg oq))

/-- Settles O28: the root is `isqrt` of the sum of squares. -/
theorem envelopeIsSaturatedRoot : Obligations.EnvelopeIsSaturatedRoot := by
  intro d oi oq
  obtain ⟨hlo, hhi⟩ := isqrt_isRoot (oi * oi + oq * oq).toNat
  have hrange := envelope_range d oi oq
  refine ⟨isqrt (oi * oi + oq * oq).toNat, ?_, ?_, ?_, hrange⟩
  · rw [← toNat_sum_of_squares]
    exact_mod_cast hlo
  · rw [← toNat_sum_of_squares]
    exact_mod_cast hhi
  · simp only [envelope, outScale, Nat.cast_mul, Nat.cast_ofNat]

end Sys2Proof.Machine
end

section
/-! PROOFS. The stages after the loop over the pairs, each on its own (40_conditioner.md R84 to R89). -/

namespace Sys2Proof.Machine

open Sys2Proof.Safety

variable {par : Params} {cfg : Cfg}

/-! ### The optional stages (R84, R86, R87) -/

/-- `dc_avg` after a block of samples (R87). -/
def dcAverage (avg : Real64) (xs : List Int) : Real64 :=
  (DC_ALPHA.mul avg).add (((Real64.ofInt 1).sub DC_ALPHA).mul (meanOf xs))

/-- The DC blocker, where it is on (R84, R87). -/
def dcStage (cfg : Cfg) (avg : Real64) (xs : List Int) : Real64 × List Int :=
  if cfg.dcblockEn then dcBlock avg xs else (avg, xs)

/-- The optional stages are the de-emphasis and then the DC blocker (R84). -/
theorem optionalStages_eq (c : Cond) (xs : List Int) :
    optionalStages cfg c xs =
      ({ c with
          deemphY := (deemphStage cfg c.deemphY xs).1
          dcAvg := (dcStage cfg c.dcAvg (deemphStage cfg c.deemphY xs).2).1 },
        (dcStage cfg c.dcAvg (deemphStage cfg c.deemphY xs).2).2) := rfl

theorem dcBlock_eq (avg : Real64) (xs : List Int) :
    dcBlock avg xs =
      (if xs = [] then avg else dcAverage avg xs,
        xs.map fun x => satTrunc ((Real64.ofInt x).sub (dcAverage avg xs))) := by
  cases xs <;> simp [dcBlock, dcAverage]

theorem dcStage_fst (avg : Real64) (xs : List Int) :
    (dcStage cfg avg xs).1 = if cfg.dcblockEn = true ∧ xs ≠ [] then dcAverage avg xs else avg := by
  rw [dcStage, dcBlock_eq]
  cases cfg.dcblockEn <;> cases xs <;> simp

theorem dcStage_snd (avg : Real64) (xs : List Int) :
    (dcStage cfg avg xs).2 =
      if cfg.dcblockEn then xs.map fun x => satTrunc ((Real64.ofInt x).sub (dcAverage avg xs)) else xs := by
  rw [dcStage, dcBlock_eq, apply_ite Prod.snd]

@[simp] theorem dcStage_nil (avg : Real64) : dcStage cfg avg [] = (avg, []) := by
  unfold dcStage
  split <;> rfl

@[simp] theorem deemphStage_nil (y : Real64) : deemphStage cfg y [] = (y, []) := by
  unfold deemphStage
  split <;> rfl

@[simp] theorem deemphStage_length (y : Real64) (xs : List Int) : (deemphStage cfg y xs).2.length = xs.length := by
  unfold deemphStage
  split
  · exact deemph_length _ _ _
  · rfl

theorem deemphStage_eq_nil_iff {y : Real64} {xs : List Int} : (deemphStage cfg y xs).2 = [] ↔ xs = [] := by
  rw [← List.length_eq_zero_iff, deemphStage_length, List.length_eq_zero_iff]

/-- With no sample due the optional stages do not move. -/
theorem optionalStages_nil (c : Cond) : optionalStages cfg c [] = (c, []) := by
  rw [optionalStages_eq, deemphStage_nil, dcStage_nil]

/-! ### The squelch (R88, R89) -/

theorem squelch_nil (c : Cond) : squelch cfg [] c = { c with mute := false, hopRequest := false } := rfl

theorem squelch_of_ne_nil {ps : List (Int × Int)} (h : ps ≠ []) (c : Cond) :
    squelch cfg ps c =
      { c with
        silentCount := if isSilent cfg ps then c.silentCount + 1 else 0
        mute := muteFlag cfg (if isSilent cfg ps then c.silentCount + 1 else 0)
        hopRequest := hopFlag cfg (if isSilent cfg ps then c.silentCount + 1 else 0) } := by
  rw [squelch, if_neg (by simpa using h)]

theorem muteFlag_iff {n : Nat} : muteFlag cfg n = true ↔ 1 < n ∧ cfg.singleFreq = true := by simp [muteFlag]

theorem hopFlag_iff {n : Nat} : hopFlag cfg n = true ↔ 1 < n ∧ cfg.singleFreq = false := by simp [hopFlag]

/-- At most one of the two flags is set: they ask for different values of `CFG_SINGLE_FREQ` (R89). -/
theorem squelch_hopRequest_of_mute {ps : List (Int × Int)} {c : Cond} (h : (squelch cfg ps c).mute = true) :
    (squelch cfg ps c).hopRequest = false := by
  by_cases hps : ps = []
  · rw [hps, squelch_nil]
  · rw [squelch_of_ne_nil hps] at h ⊢
    obtain ⟨-, hsingle⟩ := muteFlag_iff.1 h
    exact Bool.eq_false_iff.2 fun hhop => by simp [(hopFlag_iff.1 hhop).2] at hsingle

/-- The one event of a set flag. -/
theorem squelchEvents_squelch (ps : List (Int × Int)) (c : Cond) :
    squelchEvents (squelch cfg ps c) =
      if (squelch cfg ps c).mute = true then [.squelchMute]
      else if (squelch cfg ps c).hopRequest = true then [.hopRequest] else [] := by
  unfold squelchEvents
  split
  · next h => rw [squelch_hopRequest_of_mute h]; rfl
  · rfl

/-! ### COND_BLOCK from its stages (R77) -/

/-- The conditioner after a block: the loop over the pairs, the optional stages, the squelch. -/
theorem conditionBlock_fst (c : Cond) (data : List Byte) :
    (conditionBlock par cfg c data).1 =
      squelch cfg (condPairs par cfg c (iqPairs data)).pairs
        (optionalStages cfg (condPairs par cfg c (iqPairs data)).cond (condPairs par cfg c (iqPairs data)).samples).1 :=
  rfl

/-- The samples of a block: those of the optional stages, or as many zeros. -/
theorem conditionBlock_snd (c : Cond) (data : List Byte) :
    (conditionBlock par cfg c data).2 =
      if (conditionBlock par cfg c data).1.mute then
        List.replicate
          (optionalStages cfg (condPairs par cfg c (iqPairs data)).cond
            (condPairs par cfg c (iqPairs data)).samples).2.length 0
      else
        (optionalStages cfg (condPairs par cfg c (iqPairs data)).cond (condPairs par cfg c (iqPairs data)).samples).2 :=
  rfl

/-- COND_BLOCK on a well-formed block in RUN: what it makes of the conditioner, the samples it sends on, its events. -/
theorem exec_condBlock_wellFormed {s : State} {data : List Int} (hp : s.phase = .run)
    (hd : (Instr.condBlock data).wellFormed = true) :
    exec (.condBlock data) s =
      .next { opOutputs s none (squelchEvents (conditionBlock s.par s.cfg s.cond (data.map (BitVec.ofInt 8))).1) none with
        cond := (conditionBlock s.par s.cfg s.cond (data.map (BitVec.ofInt 8))).1
        stream := s.stream ++ (conditionBlock s.par s.cfg s.cond (data.map (BitVec.ofInt 8))).2 } :=
  execCondBlock_wellFormed hp hd

/-- The squelch count a block starts from is the one before it. -/
theorem silentCount_before_squelch (c : Cond) (ps : List (Byte × Byte)) :
    (optionalStages cfg (condPairs par cfg c ps).cond (condPairs par cfg c ps).samples).1.silentCount =
      c.silentCount := by
  rw [optionalStages_eq, condPairs_keeps_stages]
  rfl

/-! ### The mean absolute deviation (R88) -/

/-- The mean of one component of the decimated pairs as a fold. -/
theorem meanOf_map (f : Int × Int → Int) (ps : List (Int × Int)) :
    meanOf (ps.map f) =
      (ps.foldl (fun acc p => acc.add (Real64.ofInt (f p))) Real64.zero).div (Real64.ofInt ps.length) := by
  rw [meanOf_eq, List.foldl_map, List.length_map]

/-- The mean absolute deviation of one component as a fold. -/
theorem deviationOf_map (f : Int × Int → Int) (ps : List (Int × Int)) :
    deviationOf (ps.map f) =
      (ps.foldl (fun acc p => acc.add ((Real64.ofInt (f p)).sub (meanOf (ps.map f))).abs) Real64.zero).div
        (Real64.ofInt ps.length) := by
  rw [deviationOf, Real64.sum, List.foldl_map, List.foldl_map, List.length_map]

/-- Settles O29: the deviations are folds over the decimated pairs, and the squelch is the last stage, so its count and
flags are those of the block. -/
theorem squelchFlagsFollowTheCount : Obligations.SquelchFlagsFollowTheCount := by
  intro s data hp hd ps n mean dev silent
  have hdev (f : Int × Int → Int) : dev f = deviationOf (ps.map f) := by
    simp only [dev, mean, n, deviationOf_map, meanOf_map]
  have hsilent : silent = isSilent s.cfg ps := by simp only [silent, hdev, isSilent]
  have hcount := silentCount_before_squelch (par := s.par) (cfg := s.cfg) s.cond (iqPairs (data.map (BitVec.ofInt 8)))
  refine ⟨_, (conditionBlock s.par s.cfg s.cond (data.map (BitVec.ofInt 8))).2, exec_condBlock_wellFormed hp hd, rfl,
    ?none, ?some, squelchEvents_squelch _ _, ?zeros, ?off⟩
  all_goals simp only [conditionBlock_fst]
  case none =>
    intro hnil
    rw [show (condPairs _ _ _ _).pairs = [] from hnil, squelch_nil]
    exact ⟨hcount, rfl, rfl⟩
  case some =>
    intro hne
    rw [squelch_of_ne_nil hne, hcount, ← hsilent]
    exact ⟨rfl, muteFlag_iff, hopFlag_iff⟩
  case zeros =>
    intro hmute x hx
    rw [conditionBlock_snd, conditionBlock_fst, if_pos hmute] at hx
    exact List.eq_of_mem_replicate hx
  case off =>
    intro hoff
    rw [squelch_off hoff]
    exact ⟨rfl, rfl⟩

end Sys2Proof.Machine
end

section
/-! PROOFS. A COND_BLOCK of one IQ pair (40_conditioner.md R79 to R88). -/

namespace Sys2Proof.Machine

open Sys2Proof.Safety

variable {par : Params} {cfg : Cfg}

/-! ### Rotation and conversion (R79, R80) -/

/-- The converted pair after `r` quarter turns (R79, R80). -/
def rotatedOffsets (r : Fin 4) (i q : Int) : Int × Int :=
  if r = 0 then (i - 127, q - 127)
  else if r = 1 then (255 - q - 127, i - 127)
  else if r = 2 then (255 - i - 127, 255 - q - 127)
  else (q - 127, 255 - i - 127)

theorem offset127_ofInt {x : Int} (hx : isU8 x = true) : offset127 (BitVec.ofInt 8 x) = x - 127 := by
  rw [offset127, toNat_ofInt_u8 hx]

theorem offset127_negByte {x : Int} (hx : isU8 x = true) :
    offset127 (negByte (BitVec.ofInt 8 x)) = 255 - x - 127 := by
  have hlt := (BitVec.ofInt 8 x).isLt
  have hval := toNat_ofInt_u8 hx
  have hneg : (negByte (BitVec.ofInt 8 x)).toNat = 255 - (BitVec.ofInt 8 x).toNat := by
    unfold negByte
    bv_omega
  rw [offset127, hneg]
  omega

/-- One pair of a block (R77): its rotated and converted components are decimated. -/
theorem condPair_eq {i q : Int} (hi : isU8 i = true) (hq : isU8 q = true) (r : CondRun) :
    condPair par cfg r (BitVec.ofInt 8 i, BitVec.ofInt 8 q) =
      decimate par cfg (rotatedOffsets r.cond.rotIdx i q).1 (rotatedOffsets r.cond.rotIdx i q).2
        { r with cond := { r.cond with rotIdx := r.cond.rotIdx + 1 } } := by
  unfold condPair
  generalize r.cond.rotIdx = n
  match n with
  | 0 => simp only [rotatePair, rotatedOffsets, offset127_ofInt hi, offset127_ofInt hq]; rfl
  | 1 => simp only [rotatePair, rotatedOffsets, offset127_ofInt hi, offset127_negByte hq]; rfl
  | 2 => simp only [rotatePair, rotatedOffsets, offset127_negByte hi, offset127_negByte hq]; rfl
  | 3 => simp only [rotatePair, rotatedOffsets, offset127_negByte hi, offset127_ofInt hq]; rfl

/-! ### The decimation window (R81, R82) -/

/-- A pair that does not end its window joins the sums. -/
theorem decimate_inside {r : CondRun} (h : r.cond.decCnt + 1 < par.downsample) (vi vq : Int) :
    decimate par cfg vi vq r =
      { r with cond := { r.cond with
          decAccI := r.cond.decAccI + firWeight cfg r.cond.decCnt * vi
          decAccQ := r.cond.decAccQ + firWeight cfg r.cond.decCnt * vq
          decCnt := r.cond.decCnt + 1 } } := by
  rw [decimate, if_neg (by omega)]

/-- A pair that ends its window. -/
theorem decimate_end {r : CondRun} (h : r.cond.decCnt + 1 = par.downsample) (vi vq : Int) :
    decimate par cfg vi vq r =
      windowDone par cfg (r.cond.decAccI + firWeight cfg r.cond.decCnt * vi)
        (r.cond.decAccQ + firWeight cfg r.cond.decCnt * vq) r := by
  rw [decimate, if_pos h]

theorem postDown_end {r : CondRun} (h : r.cond.postCnt + 1 = cfg.post) (e : Int) :
    postDown cfg e r =
      { r with
        cond := { r.cond with postAcc := 0, postCnt := 0 }
        samples := r.samples ++ [min 32767 (r.cond.postAcc + e)] } := by
  rw [postDown, if_pos h]

theorem postDown_inside {r : CondRun} (h : r.cond.postCnt + 1 < cfg.post) (e : Int) :
    postDown cfg e r =
      { r with cond := { r.cond with postAcc := r.cond.postAcc + e, postCnt := r.cond.postCnt + 1 } } := by
  rw [postDown, if_neg (by omega)]

/-! ### The optional stages on one sample (R86, R87) -/

/-- The de-emphasis of one sample. -/
theorem deemphStage_singleton (y : Real64) (x : Int) :
    deemphStage cfg y [x] =
      let y' := y.add (cfg.deemphA.mul ((Real64.ofInt x).sub y))
      (if cfg.deemphEn then y' else y, [if cfg.deemphEn then satTrunc y' else x]) := by
  unfold deemphStage
  split <;> rfl

/-- The DC blocker on one sample, which is its own mean. -/
theorem dcStage_singleton (avg : Real64) (x : Int) :
    dcStage cfg avg [x] =
      let mean := (Real64.zero.add (Real64.ofInt x)).div (Real64.ofInt 1)
      let avg' := (DC_ALPHA.mul avg).add (((Real64.ofInt 1).sub DC_ALPHA).mul mean)
      (if cfg.dcblockEn then avg' else avg, [if cfg.dcblockEn then satTrunc ((Real64.ofInt x).sub avg') else x]) := by
  unfold dcStage
  split <;> rfl

/-! ### The block of one pair -/

theorem wellFormed_condBlock_pair {i q : Int} (hi : isU8 i = true) (hq : isU8 q = true) :
    (Instr.condBlock [i, q]).wellFormed = true := by
  simp [Instr.wellFormed, hi, hq]

/-- The loop over a block of one pair. -/
theorem condPairs_pair {i q : Int} (hi : isU8 i = true) (hq : isU8 q = true) (c : Cond) :
    condPairs par cfg c (iqPairs ([i, q].map (BitVec.ofInt 8))) =
      decimate par cfg (rotatedOffsets c.rotIdx i q).1 (rotatedOffsets c.rotIdx i q).2
        { cond := { c with rotIdx := c.rotIdx + 1 }, pairs := [], samples := [] } :=
  condPair_eq hi hq _

/-- A block whose loop completes no window: the later stages have no pair and no sample to work on (R86 to R89). -/
theorem conditionBlock_of_nothing_due {c c' : Cond} {data : List Byte}
    (h : condPairs par cfg c (iqPairs data) = ⟨c', [], []⟩) :
    conditionBlock par cfg c data = ({ c' with mute := false, hopRequest := false }, []) := by
  simp only [conditionBlock, h, optionalStages_nil, squelch_nil, Bool.false_eq_true, if_false]

/-- A block with the squelch off: the optional stages, and the count cleared by a decimated pair (R84, R88, R89). -/
theorem conditionBlock_squelchOff (hsq : cfg.squelchL = 0) {c c' : Cond} {data : List Byte} {ps : List (Int × Int)}
    {xs : List Int} (h : condPairs par cfg c (iqPairs data) = ⟨c', ps, xs⟩) :
    conditionBlock par cfg c data =
      ({ c' with
          deemphY := (deemphStage cfg c'.deemphY xs).1
          dcAvg := (dcStage cfg c'.dcAvg (deemphStage cfg c'.deemphY xs).2).1
          silentCount := clearedCount ps c'.silentCount
          mute := false
          hopRequest := false },
        (dcStage cfg c'.dcAvg (deemphStage cfg c'.deemphY xs).2).2) := by
  simp only [conditionBlock, h, optionalStages_eq, squelch_off hsq, Bool.false_eq_true, if_false]

/-- Settles O26: the pair joins the sums of its window, and nothing is due for the later stages. -/
theorem condBlockAddsOneRotatedPair : Obligations.CondBlockAddsOneRotatedPair := by
  intro s i q hp hi0 hi hq0 hq hdec w v
  have hi8 := isU8_iff.2 ⟨hi0, hi⟩
  have hq8 := isU8_iff.2 ⟨hq0, hq⟩
  have hloop := condPairs_pair (par := s.par) (cfg := s.cfg) hi8 hq8 s.cond
  rw [decimate_inside hdec] at hloop
  rw [exec_condBlock_wellFormed hp (wellFormed_condBlock_pair hi8 hq8), conditionBlock_of_nothing_due hloop,
    List.append_nil]
  rfl

/-- Settles O27: the pair ends the decimation window, whose envelope ends the post-downsample window or joins it; the
optional stages then have one sample or none. -/
theorem condBlockEndsBothWindows : Obligations.CondBlockEndsBothWindows := by
  intro s i q hp hi0 hi hq0 hq hdec hsq w v sumI sumQ oi oq acc ended x y x1 mean avg x2
  have hi8 := isU8_iff.2 ⟨hi0, hi⟩
  have hq8 := isU8_iff.2 ⟨hq0, hq⟩
  rw [exec_condBlock_wellFormed hp (wellFormed_condBlock_pair hi8 hq8)]
  constructor
  · intro hpost
    have hloop : condPairs s.par s.cfg s.cond (iqPairs ([i, q].map (BitVec.ofInt 8))) =
        ⟨withStages s.cond { ended with postAcc := 0, postCnt := 0 }, [(oi, oq)], [x]⟩ := by
      rw [condPairs_pair hi8 hq8, decimate_end hdec, windowDone, postDown_end hpost]
      rfl
    rw [conditionBlock_squelchOff hsq hloop, deemphStage_singleton, dcStage_singleton]
    rfl
  · intro hpost
    have hloop : condPairs s.par s.cfg s.cond (iqPairs ([i, q].map (BitVec.ofInt 8))) =
        ⟨withStages s.cond { ended with postAcc := acc, postCnt := s.cond.postCnt + 1 }, [(oi, oq)], []⟩ := by
      rw [condPairs_pair hi8 hq8, decimate_end hdec, windowDone, postDown_inside hpost]
      rfl
    rw [conditionBlock_squelchOff hsq hloop, deemphStage_nil, dcStage_nil, List.append_nil]
    rfl

end Sys2Proof.Machine
end

section
/-! PROOFS. How many pairs and samples a COND_BLOCK produces, and the samples it sends (40_conditioner.md R78, R86,
R87). -/

namespace Sys2Proof.Machine

open Sys2Proof.Safety

variable {par : Params} {cfg : Cfg} {c : Cond} {m n : Nat} {r : CondRun}

/-! ### The rotation (R79) -/

@[simp] theorem postDown_rotIdx (e : Int) : (postDown cfg e r).cond.rotIdx = r.cond.rotIdx := by
  simp only [postDown]
  split <;> rfl

@[simp] theorem decimate_rotIdx (vi vq : Int) : (decimate par cfg vi vq r).cond.rotIdx = r.cond.rotIdx := by
  simp only [decimate]
  split
  · exact postDown_rotIdx _
  · rfl

/-- Each pair turns the rotation by one. -/
theorem condPair_rotIdx (p : Byte × Byte) : (condPair par cfg r p).cond.rotIdx = r.cond.rotIdx + 1 :=
  decimate_rotIdx _ _

theorem foldl_condPair_rotIdx (ps : List (Byte × Byte)) :
    ((ps.foldl (condPair par cfg) r).cond.rotIdx : Nat) = ((r.cond.rotIdx : Nat) + ps.length) % 4 := by
  induction ps generalizing r with
  | nil => exact (Nat.mod_eq_of_lt r.cond.rotIdx.isLt).symm
  | cons p ps ih =>
    rw [List.foldl_cons, ih, condPair_rotIdx, Fin.val_add, Fin.val_one, List.length_cons]
    omega

theorem condPairs_rotIdx (ps : List (Byte × Byte)) :
    ((condPairs par cfg c ps).cond.rotIdx : Nat) = ((c.rotIdx : Nat) + ps.length) % 4 :=
  foldl_condPair_rotIdx ps

/-! ### The two windows (R78): what enters a window is a multiple of its length and the rest the counter holds -/

/-- The decimation window after `m` pairs from `c`; each decimated pair turns `dec_odd` (R81, R82). -/
def DecCounts (par : Params) (c : Cond) (m : Nat) (r : CondRun) : Prop :=
  r.cond.decCnt < par.downsample ∧ par.downsample * r.pairs.length + r.cond.decCnt = c.decCnt + m ∧
    r.cond.decOdd = (c.decOdd != decide (r.pairs.length % 2 = 1))

/-- The post-downsample window after `n` decimated pairs from `c` (R85). -/
def PostCounts (cfg : Cfg) (c : Cond) (n : Nat) (r : CondRun) : Prop :=
  r.cond.postCnt < cfg.post ∧ cfg.post * r.samples.length + r.cond.postCnt = c.postCnt + n

/-- The parity of a count turns when it grows by one. -/
theorem bne_odd_succ (b : Bool) (k : Nat) : (b != decide ((k + 1) % 2 = 1)) = !(b != decide (k % 2 = 1)) := by
  have hturn : decide ((k + 1) % 2 = 1) = !decide (k % 2 = 1) := by
    rw [← decide_not, decide_eq_decide]
    omega
  rw [hturn, Bool.bne_not]

@[simp] theorem postDown_pairs (e : Int) : (postDown cfg e r).pairs = r.pairs := by
  simp only [postDown]
  split <;> rfl

/-- The post window does not touch the decimation window. -/
theorem decCounts_postDown (e : Int) : DecCounts par c m (postDown cfg e r) ↔ DecCounts par c m r := by
  simp only [postDown]
  split <;> rfl

theorem decCounts_decimate (h : DecCounts par c m r) (vi vq : Int) :
    DecCounts par c (m + 1) (decimate par cfg vi vq r) := by
  obtain ⟨hlt, hcount, hodd⟩ := h
  by_cases hend : r.cond.decCnt + 1 = par.downsample
  · rw [decimate_end hend, windowDone, decCounts_postDown]
    refine ⟨Nat.zero_lt_of_lt hlt, ?_, ?_⟩
    · simp only [List.length_append, List.length_singleton, Nat.mul_add_one]
      omega
    · rw [List.length_append, List.length_singleton, bne_odd_succ, ← hodd]
  · rw [decimate_inside (by omega)]
    exact ⟨by simp only; omega, by simp only; omega, hodd⟩

theorem postCounts_postDown (h : PostCounts cfg c n r) (e : Int) : PostCounts cfg c (n + 1) (postDown cfg e r) := by
  obtain ⟨hlt, hcount⟩ := h
  by_cases hend : r.cond.postCnt + 1 = cfg.post
  · rw [postDown_end hend]
    refine ⟨Nat.zero_lt_of_lt hlt, ?_⟩
    simp only [List.length_append, List.length_singleton, Nat.mul_add_one]
    omega
  · rw [postDown_inside (by omega)]
    exact ⟨by simp only; omega, by simp only; omega⟩

/-- Each decimated pair enters the post window once. -/
theorem postCounts_decimate (h : PostCounts cfg c r.pairs.length r) (vi vq : Int) :
    PostCounts cfg c (decimate par cfg vi vq r).pairs.length (decimate par cfg vi vq r) := by
  by_cases hend : r.cond.decCnt + 1 = par.downsample
  · rw [decimate_end hend, windowDone, postDown_pairs, List.length_append, List.length_singleton]
    refine postCounts_postDown ?_ _
    exact h
  · rw [decimate, if_neg hend]
    exact h

theorem counts_foldl_condPair (hd : DecCounts par c m r) (hp : PostCounts cfg c r.pairs.length r)
    (ps : List (Byte × Byte)) :
    DecCounts par c (m + ps.length) (ps.foldl (condPair par cfg) r) ∧
      PostCounts cfg c (ps.foldl (condPair par cfg) r).pairs.length (ps.foldl (condPair par cfg) r) := by
  induction ps generalizing m r with
  | nil => exact ⟨hd, hp⟩
  | cons p ps ih =>
    rw [List.foldl_cons, List.length_cons, Nat.add_comm ps.length, ← Nat.add_assoc]
    exact ih (decCounts_decimate (r := { r with cond := { r.cond with rotIdx := r.cond.rotIdx + 1 } }) hd _ _)
      (postCounts_decimate (r := { r with cond := { r.cond with rotIdx := r.cond.rotIdx + 1 } }) hp _ _)

/-- The counts of the loop over the pairs of a block, from counters in their ranges. -/
theorem condPairs_counts (hdec : c.decCnt < par.downsample) (hpost : c.postCnt < cfg.post) (ps : List (Byte × Byte)) :
    DecCounts par c ps.length (condPairs par cfg c ps) ∧
      PostCounts cfg c (condPairs par cfg c ps).pairs.length (condPairs par cfg c ps) := by
  have h := counts_foldl_condPair (par := par) (cfg := cfg) (c := c) (m := 0)
    (r := { cond := c, pairs := [], samples := [] }) ⟨hdec, by simp, by simp⟩ ⟨hpost, by simp⟩ ps
  rwa [Nat.zero_add] at h

/-- A sum of whole windows and a rest below their length `d`, as quotient and remainder (R78). -/
theorem div_mod_of_windows {d k rest total : Nat} (hlt : rest < d) (h : d * k + rest = total) :
    total / d = k ∧ total % d = rest :=
  (Nat.div_mod_unique (Nat.zero_lt_of_lt hlt)).2 ⟨by rw [Nat.add_comm, h], hlt⟩

/-! ### The samples and the filters of a block (R84, R86, R87) -/

/-- `sat16(trunc(y))` of a finite value, with its units written out (R86). -/
theorem satTrunc_finite {y : Real64} (h : y.isFinite = true) :
    satTrunc y =
      max (-32768) (min 32767
        (if y.negative then -((y.units / 2 ^ 1074 : Nat) : Int) else ((y.units / 2 ^ 1074 : Nat) : Int))) := by
  rw [satTrunc_of_finite h, sat16, Real64.truncFinite, oneUnits, pow2_eq]

/-- The state of the de-emphasis after each sample, and the samples it gives (R86). -/
theorem deemphStage_eq (y : Real64) (xs : List Int) :
    deemphStage cfg y xs =
      let y' (j : Nat) := (xs.take j).foldl (fun y x => y.add (cfg.deemphA.mul ((Real64.ofInt x).sub y))) y
      (if cfg.deemphEn then y' xs.length else y,
        if cfg.deemphEn then (List.range xs.length).map fun j => satTrunc (y' (j + 1)) else xs) := by
  unfold deemphStage
  split
  · simp only [deemph_eq, List.take_length]
  · rfl

/-- The loop over the pairs does not filter: the optional stages start from the filters before the block. -/
theorem optionalStages_condPairs (ps : List (Byte × Byte)) (xs : List Int) :
    optionalStages cfg (condPairs par cfg c ps).cond xs =
      ({ (condPairs par cfg c ps).cond with
          deemphY := (deemphStage cfg c.deemphY xs).1
          dcAvg := (dcStage cfg c.dcAvg (deemphStage cfg c.deemphY xs).2).1 },
        (dcStage cfg c.dcAvg (deemphStage cfg c.deemphY xs).2).2) := by
  rw [optionalStages_eq, condPairs_keeps_stages]
  rfl

/-- The conditioner after a block is that of the loop over the pairs but for the filters and the squelch. -/
theorem conditionBlock_fst_frame (data : List Byte) :
    (conditionBlock par cfg c data).1 =
      let xs := (condPairs par cfg c (iqPairs data)).samples
      { (condPairs par cfg c (iqPairs data)).cond with
        deemphY := (deemphStage cfg c.deemphY xs).1
        dcAvg := (dcStage cfg c.dcAvg (deemphStage cfg c.deemphY xs).2).1
        silentCount := (conditionBlock par cfg c data).1.silentCount
        mute := (conditionBlock par cfg c data).1.mute
        hopRequest := (conditionBlock par cfg c data).1.hopRequest } := by
  simp only [conditionBlock_fst, optionalStages_condPairs]
  exact squelch_frame _ _

/-- Settles O24: the two windows count what the loop produces, and the optional stages filter it in order. -/
theorem condBlockProducesTheSamplesDue : Obligations.CondBlockProducesTheSamplesDue := by
  refine ⟨fun y => satTrunc_finite, ?_⟩
  intro s data hp hd hdec hpost m k due y x1 mean avg x2
  have hm : (iqPairs (data.map (BitVec.ofInt 8))).length = m := by rw [iqPairs_length, List.length_map]
  obtain ⟨⟨hdlt, hdcount, hodd⟩, hplt, hpcount⟩ := condPairs_counts hdec hpost (iqPairs (data.map (BitVec.ofInt 8)))
  have hrot := condPairs_rotIdx (par := s.par) (cfg := s.cfg) (c := s.cond) (iqPairs (data.map (BitVec.ofInt 8)))
  rw [hm] at hdcount hrot
  obtain ⟨hk, hdrest⟩ := div_mod_of_windows hdlt hdcount
  rw [← hk] at hpcount hodd
  obtain ⟨hsamples, hprest⟩ := div_mod_of_windows hplt hpcount
  have hx1 : (deemphStage s.cfg s.cond.deemphY due).2 = x1 := by rw [deemphStage_eq]
  have havg : dcAverage s.cond.dcAvg x1 = avg := by rw [dcAverage, meanOf_eq]
  have hx2 : (dcStage s.cfg s.cond.dcAvg x1).2 = x2 := by rw [dcStage_snd, havg]
  have hdue : x1 ≠ [] ↔ due ≠ [] := by rw [← hx1, Ne, deemphStage_eq_nil_iff]
  have hdc : (dcStage s.cfg s.cond.dcAvg (deemphStage s.cfg s.cond.deemphY due).2).1 =
      if s.cfg.dcblockEn = true ∧ due ≠ [] then avg else s.cond.dcAvg := by
    rw [hx1, dcStage_fst, havg]
    simp only [hdue]
  have hframe := conditionBlock_fst_frame (par := s.par) (cfg := s.cfg) (c := s.cond) (data.map (BitVec.ofInt 8))
  refine ⟨_, (conditionBlock s.par s.cfg s.cond (data.map (BitVec.ofInt 8))).2, exec_condBlock_wellFormed hp hd, rfl,
    hk.symm, ?length, ?decCnt, ?postCnt, ?rotIdx, ?decOdd, ?samples, ?deemphY, ?dcAvg⟩
  case length => rw [conditionBlock_length, hsamples]
  case samples =>
    rw [conditionBlock_snd, optionalStages_condPairs, hx1, hx2]
  all_goals
    simp only
    rw [hframe]
  case decCnt => exact hdrest.symm
  case postCnt => exact hprest.symm
  case rotIdx => exact hrot
  case decOdd => exact hodd
  case deemphY => exact congrArg Prod.fst (deemphStage_eq _ _)
  case dcAvg => exact hdc

end Sys2Proof.Machine
end

section
/-! PROOFS. The test port of the bit link (41_bitsync.md R113, R114). -/

namespace Sys2Proof.Machine

open Sys2Proof.Safety

variable {s : State} {v : Int}

/-- BIT_IN of a bit in RUN is LINK of that bit (R114). -/
theorem exec_bitIn (hp : s.phase = .run) (hv : v = 0 ∨ v = 1) :
    exec (.bitIn v) s = ofExcept (linkBit (decide (v = 1)) (beginOp s)) := by
  show runOnly s (withOperand (operandBit v) fun bit => ofExcept (linkBit bit (beginOp s))) = _
  rw [runOnly_run hp, operandBit_ok (isBit_iff.2 hv), withOperand_ok]

/-- The new bit of R113 as a byte to be set: bit 7 alone, or none. -/
theorem shiftBit_eq (bit : Bool) (l : Link) :
    shiftBit bit l =
      { outbits := (l.outbits >>> 1) ||| (if bit then 0x80#8 else 0x00#8), nbits := l.nbits + 1 } := by
  cases bit <;> rfl

/-- LINK's first update, as BIT_IN makes it. -/
theorem bitTaken_beginOp :
    bitTaken (decide (v = 1)) (beginOp s) =
      { opOutputs s none [] none with
        link := { outbits := (s.link.outbits >>> 1) ||| (if v = 1 then 0x80#8 else 0x00#8)
                  nbits := s.link.nbits + 1 } } := by
  simp only [bitTaken, shiftBit_eq, decide_eq_true_eq, beginOp_link, opOutputs_empty]

/-- Settles O40: below 7 held bits LINK only takes the bit. -/
theorem bitInShiftsIntoLink : Obligations.BitInShiftsIntoLink := by
  intro s v hp hv hn
  have hshort : (beginOp s).link.nbits < 7 := hn
  rw [exec_bitIn hp hv, linkBit_short hshort, ofExcept_ok, bitTaken_beginOp]

/-- With 7 bits held, BIT_IN is FSM_BYTE of the new register with 8 bits held (R113). -/
theorem exec_bitIn_eighth (hp : s.phase = .run) (hv : v = 0 ∨ v = 1) (hn : s.link.nbits = 7) :
    exec (.bitIn v) s =
      ofExcept ((fsmByte ((s.link.outbits >>> 1) ||| (if v = 1 then 0x80#8 else 0x00#8))
        { opOutputs s none [] none with
          link := { outbits := (s.link.outbits >>> 1) ||| (if v = 1 then 0x80#8 else 0x00#8), nbits := 8 } }).map
            fun p => linkAfter p.1 p.2) := by
  have hfull : 7 ≤ (beginOp s).link.nbits := hn.ge
  rw [exec_bitIn hp hv, linkBit_call hfull, bitTaken_beginOp, shiftBit_eq, hn]
  simp only [decide_eq_true_eq, beginOp_link]

/-- Settles O41: FSM_BYTE leaves the link as it was called with, so only `nbits` follows its result. -/
theorem eighthBitCallsFrameMachine : Obligations.EighthBitCallsFrameMachine := by
  intro s v hp hv hn byte called
  have hexec : exec (.bitIn v) s = ofExcept ((fsmByte byte called).map fun p => linkAfter p.1 p.2) :=
    exec_bitIn_eighth hp hv hn
  have hlink : ∀ r u, fsmByte byte called = .ok (r, u) → u.link = { outbits := byte, nbits := 8 } :=
    fun r u h => (fsmByte_frame h).1.link
  constructor
  · intro u hu
    rw [hexec, hu]
    show Host.Outcome.next { u with link := { u.link with nbits := 0 } } = _
    rw [hlink _ u hu]
  · intro n u hu
    rw [hexec, hu]
    show Host.Outcome.next { u with link := { u.link with nbits := u.link.nbits - n } } = _
    rw [hlink _ u hu]

/-- Settles O42: the frame machine answers under its invariant, and LINK keeps the rest. -/
theorem bitInCompletes : Obligations.BitInCompletes := by
  intro s v hp hv hl hf
  obtain ⟨t, ht⟩ := linkBit_answers (s := beginOp s) hf (decide (v = 1))
  have hbits : t.link.nbits < 8 := linkBit_nbits (s := beginOp s) hl ht
  refine ⟨t, by rw [exec_bitIn hp hv, ht, ofExcept_ok], hbits, ?_⟩
  rcases (linkBit_frame ht).1 with hkept | hcleared
  · rw [hkept]
    exact ⟨rfl, rfl, .inl ⟨rfl, rfl⟩⟩
  · rw [hcleared]
    exact ⟨rfl, rfl, .inr ⟨rfl, rfl⟩⟩

end Sys2Proof.Machine
end

section
/-! PROOFS. Small whole numbers of units are representable, so the remainder of a phase reduction is exact
(41_bitsync.md R100), and the constants of R92. -/

namespace Sys2Proof

/-! ### Representable numbers of units -/

/-- The order of the values is the order of the magnitudes. -/
theorem le_of_unitsOfMag_le {m n : Nat} (h : unitsOfMag m ≤ unitsOfMag n) : m ≤ n :=
  (le_roundSteps (num := unitsOfMag m) (m := m) one_pos (Nat.mul_one _).le).trans
    (roundSteps_le one_pos (by rwa [Nat.mul_one]))

/-- A number of at most 53 bits, shifted, is a magnitude's number of units. -/
theorem exists_mag {c : Nat} (hc : c < 2 ^ 53) (e : Nat) : ∃ m, unitsOfMag m = c * 2 ^ e := by
  induction e generalizing c with
  | zero => exact ⟨c, by rw [unitsOfMag_small hc, pow_zero, Nat.mul_one]⟩
  | succ e ih =>
    rcases Nat.lt_or_ge c (2 ^ 52) with hsmall | hlarge
    · obtain ⟨m, hm⟩ := ih (c := 2 * c) (by omega)
      exact ⟨m, by rw [hm, pow_succ]; ring⟩
    · exact ⟨(e + 1 + 1) * 2 ^ 52 + (c - 2 ^ 52), by
        rw [unitsOfMag_large (by omega), Nat.sub_add_cancel hlarge]⟩

/-- A magnitude's number of units has at most 53 bits, shifted by its exponent. -/
theorem unitsOfMag_eq (m : Nat) : ∃ c, c < 2 ^ 53 ∧ unitsOfMag m = c * 2 ^ (m / 2 ^ 52 - 1) := by
  rcases Nat.lt_or_ge m (2 ^ 52) with hsmall | hlarge
  · refine ⟨m, by omega, ?_⟩
    rw [unitsOfMag_small (by omega), Nat.div_eq_of_lt hsmall, Nat.zero_sub, pow_zero, Nat.mul_one]
  · refine ⟨m % 2 ^ 52 + 2 ^ 52, by omega, ?_⟩
    rw [unitsOfMag, if_neg (by omega), pow2_eq]

/-- The exact remainder of two magnitudes is a magnitude. -/
theorem exists_mag_mod (m n : Nat) : ∃ k, k ≤ m ∧ unitsOfMag k = unitsOfMag m % unitsOfMag n := by
  suffices hk : ∃ k, unitsOfMag k = unitsOfMag m % unitsOfMag n by
    obtain ⟨k, hk⟩ := hk
    exact ⟨k, le_of_unitsOfMag_le (hk ▸ Nat.mod_le _ _), hk⟩
  rcases Nat.lt_or_ge (unitsOfMag m) (unitsOfMag n) with hlt | hge
  · exact ⟨m, (Nat.mod_eq_of_lt hlt).symm⟩
  · obtain ⟨c, -, hm⟩ := unitsOfMag_eq m
    obtain ⟨d, hd, hn⟩ := unitsOfMag_eq n
    have hexp : n / 2 ^ 52 - 1 ≤ m / 2 ^ 52 - 1 :=
      Nat.sub_le_sub_right (Nat.div_le_div_right (le_of_unitsOfMag_le hge)) 1
    obtain ⟨j, hj⟩ := Nat.exists_eq_add_of_le hexp
    have hrem : unitsOfMag m % unitsOfMag n = (c * 2 ^ j) % d * 2 ^ (n / 2 ^ 52 - 1) := by
      rw [hm, hn, hj, Nat.add_comm, pow_add, ← Nat.mul_assoc, Nat.mul_mod_mul_right]
    rcases Nat.eq_zero_or_pos d with rfl | hpos
    · exact ⟨m, by rw [hn, Nat.zero_mul, Nat.mod_zero]⟩
    · rw [hrem]
      exact exists_mag ((Nat.mod_lt _ hpos).trans hd) _

/-! ### The remainder of a phase (R100) -/

theorem isFinite_iff {x : Real64} : x.isFinite = true ↔ x.mag < infMag := by simp [Real64.isFinite]

/-- The remainder of finite values is exact (R100). -/
theorem fmod_exact {x y : Real64} (hx : x.isFinite = true) (hy : y.isFinite = true) (h0 : y.isZero = false) :
    (x.fmod y).isFinite = true ∧ (x.fmod y).negative = x.negative ∧ (x.fmod y).units = x.units % y.units := by
  obtain ⟨k, hk, hunits⟩ := exists_mag_mod x.mag y.mag
  have hlt : k < infMag := hk.trans_lt (isFinite_iff.1 hx)
  have hr : x.fmod y = Real64.ofMag x.negative k := by
    have hround : roundUnits (x.units % y.units) 1 = k := by
      rw [Real64.units, Real64.units, ← hunits, roundUnits_unit hlt.le]
    simp [Real64.fmod, isFinite_not_nan hx, isFinite_not_nan hy, isFinite_not_inf hx, isFinite_not_inf hy, h0, hround]
  rw [hr, isFinite_iff, Real64.units, mag_ofMag (hlt.trans infMag_lt), negative_ofMag (hlt.trans infMag_lt)]
  exact ⟨hlt, rfl, hunits⟩

/-- A value is fixed by its sign and its number of units. -/
theorem eq_of_negative_units {x y : Real64} (hs : x.negative = y.negative) (hu : x.units = y.units) : x = y := by
  have hm : x.mag = y.mag := le_antisymm (le_of_unitsOfMag_le hu.le) (le_of_unitsOfMag_le hu.ge)
  rw [← ofMag_eta x, ← ofMag_eta y, hs, hm]

theorem fourPi_facts : FOURPI.isFinite = true ∧ FOURPI.isZero = false ∧ FOURPI.key = FOURPI.mag := by decide +kernel

theorem zero_facts : Real64.zero.isNaN = false ∧ Real64.zero.key = 0 := by decide

theorem key_of_not_negative {x : Real64} (h : x.negative = false) : x.key = x.mag := by simp [Real64.key, h]

theorem key_of_negative {x : Real64} (h : x.negative = true) : x.key = -x.mag := by simp [Real64.key, h]

/-- Only a value with the sign plus is above 0 in the order. -/
theorem not_negative_of_key_pos {x : Real64} (h : 0 < x.key) : x.negative = false := by
  by_contra hs
  rw [key_of_negative (by simpa using hs)] at h
  omega

theorem negative_of_key_neg {x : Real64} (h : x.key < 0) : x.negative = true := by
  by_contra hs
  rw [key_of_not_negative (by simpa using hs)] at h
  omega

/-- Equal in the order and above 0 is equal. -/
theorem eq_of_key_eq {x y : Real64} (hy : 0 < y.key) (h : x.key = y.key) : x = y := by
  have hsx := not_negative_of_key_pos (h ▸ hy)
  have hsy := not_negative_of_key_pos hy
  rw [key_of_not_negative hsx, key_of_not_negative hsy] at h
  rw [← ofMag_eta x, ← ofMag_eta y, hsx, hsy, Int.ofNat_inj.1 h]

theorem not_lt_of_le {x y : Real64} (h : Real64.le y x = true) : Real64.lt x y = false := by
  have hk := (le_iff.1 h).2.2
  simp [Real64.lt, not_lt.2 hk]

theorem not_le_of_lt {x y : Real64} (h : Real64.lt x y = true) : Real64.le y x = false := by
  have hk := (lt_iff.1 h).2.2
  simp [Real64.le, not_le.2 hk]

theorem mag_lt_of_units_lt {x y : Real64} (hx : x.isFinite = true) (h : x.units < y.units) : x.mag < y.mag := by
  by_contra hle
  exact absurd (unitsOfMag_le (isFinite_iff.1 hx).le (not_lt.1 hle)) (not_le.2 h)

/-- A value below 0 plus a larger value above 0: the sum has the sign plus and is no larger than the second. -/
theorem add_opposite {x y : Real64} (hx : x.isFinite = true) (hy : y.isFinite = true) (hxs : x.negative = true)
    (hys : y.negative = false) (h : x.units < y.units) :
    (x.add y).negative = false ∧ (x.add y).mag ≤ y.mag := by
  have hz : x.value + y.value = y.units - x.units := by simp only [Real64.value, hxs, hys]; simp; ring
  have hpos : 0 < x.value + y.value := by omega
  have hneg : decide (x.value + y.value < 0) = false := by simpa using hpos.le
  rw [add_of_finite hx hy]
  simp only [Real64.addFinite, if_neg hpos.ne', hneg, negative_ofMag (roundUnits_lt _ _), mag_ofMag (roundUnits_lt _ _)]
  exact ⟨trivial, roundUnits_le one_pos (by rw [Nat.mul_one]; show _ ≤ y.units; omega)⟩

/-- The remainder of a phase by `4 pi`, and its size. -/
theorem fmod_fourPi {x : Real64} (hx : x.isFinite = true) :
    (x.fmod FOURPI).isFinite = true ∧ (x.fmod FOURPI).negative = x.negative ∧
      (x.fmod FOURPI).units = x.units % FOURPI.units ∧ (x.fmod FOURPI).units < FOURPI.units := by
  obtain ⟨hf, h0, -⟩ := fourPi_facts
  obtain ⟨hm, hs, hu⟩ := fmod_exact hx hf h0
  refine ⟨hm, hs, hu, ?_⟩
  rw [hu]
  exact Nat.mod_lt _ (units_pos hf h0)

/-- The first correction of R100. -/
def raised (m : Real64) : Real64 := if Real64.lt m Real64.zero then m.add FOURPI else m

/-- The second correction of R100. -/
def lowered (y : Real64) : Real64 := if Real64.le FOURPI y then y.sub FOURPI else y

theorem raised_of_nonneg {m : Real64} (h : Real64.le Real64.zero m = true) : raised m = m := by
  simp [raised, not_lt_of_le h]

theorem lowered_of_lt {y : Real64} (h : Real64.lt y FOURPI = true) : lowered y = y := by
  simp [lowered, not_le_of_lt h]

/-- After the first correction a remainder is in `[0, 4 pi]`, the upper end by rounding. -/
theorem raised_range {m : Real64} (hm : m.isFinite = true) (h : m.units < FOURPI.units) :
    Real64.le Real64.zero (raised m) = true ∧ Real64.le (raised m) FOURPI = true := by
  obtain ⟨hf, -, hkey⟩ := fourPi_facts
  obtain ⟨hzn, hzk⟩ := zero_facts
  rw [le_iff, le_iff, hzk, hkey]
  cases hlt : Real64.lt m Real64.zero with
  | true =>
    have hneg : m.negative = true := negative_of_key_neg (hzk ▸ (lt_iff.1 hlt).2.2)
    have hr : raised m = m.add FOURPI := by rw [raised, hlt, if_pos rfl]
    obtain ⟨hs, hmag⟩ := add_opposite hm hf hneg (by decide +kernel) h
    have hn := add_finite_not_nan hm hf
    rw [hr, key_of_not_negative hs]
    exact ⟨⟨hzn, hn, Int.natCast_nonneg _⟩, hn, isFinite_not_nan hf, Int.ofNat_le.2 hmag⟩
  | false =>
    have hr : raised m = m := by rw [raised, hlt]; rfl
    have hn := isFinite_not_nan hm
    have hk : 0 ≤ m.key := by simpa [Real64.lt, hn, hzn, hzk] using hlt
    have hmag := mag_lt_of_units_lt hm h
    rw [hr]
    exact ⟨⟨hzn, hn, hk⟩, hn, isFinite_not_nan hf, by have := key_le_mag m; omega⟩

/-- The second correction takes the upper end of `[0, 4 pi]` to 0. -/
theorem lowered_range {y : Real64} (h0 : Real64.le Real64.zero y = true) (h1 : Real64.le y FOURPI = true) :
    Real64.le Real64.zero (lowered y) = true ∧ Real64.lt (lowered y) FOURPI = true := by
  obtain ⟨hyn, hfn, hyk⟩ := le_iff.1 h1
  cases hle : Real64.le FOURPI y with
  | false =>
    have hy : lowered y = y := by rw [lowered, hle]; rfl
    have hk : y.key < FOURPI.key := by simpa [Real64.le, hyn, hfn] using hle
    rw [hy]
    exact ⟨h0, lt_iff.2 ⟨hyn, hfn, hk⟩⟩
  | true =>
    have hkey : y.key = FOURPI.key := le_antisymm hyk (le_iff.1 hle).2.2
    have hy : y = FOURPI := eq_of_key_eq (by decide +kernel) hkey
    rw [lowered, hle, if_pos rfl, hy]
    decide +kernel

end Sys2Proof

namespace Sys2Proof.Machine

/-- MOD4PI of a finite value: the exact remainder, corrected at most twice (R100). -/
theorem mod4pi_eq {x : Real64} (hx : x.isFinite = true) : mod4pi x = .ok (lowered (raised (x.fmod FOURPI))) := by
  have hf := fourPi_facts.1
  obtain ⟨hm, -, -, hlt⟩ := fmod_fourPi hx
  have hup := (le_iff.1 (raised_range hm hlt).2).1
  have hsecond : geChecked (raised (x.fmod FOURPI)) FOURPI = .ok (Real64.le FOURPI (raised (x.fmod FOURPI))) :=
    geChecked_ok hup (isFinite_not_nan hf)
  simp only [mod4pi, ltChecked_ok (isFinite_not_nan hm) zero_facts.1, ok_bind]
  rw [← raised, hsecond, ok_bind, lowered]

/-- What MOD4PI answers is in `[0, 4 pi)` (R100). -/
theorem mod4pi_range {x : Real64} (hx : x.isFinite = true) :
    Real64.le Real64.zero (lowered (raised (x.fmod FOURPI))) = true ∧
      Real64.lt (lowered (raised (x.fmod FOURPI))) FOURPI = true := by
  obtain ⟨hm, -, -, hlt⟩ := fmod_fourPi hx
  obtain ⟨hlo, hhi⟩ := raised_range hm hlt
  exact lowered_range hlo hhi

/-- A value in `[0, 4 pi)` is smaller in size than `4 pi`. -/
theorem mag_lt_fourPi {x : Real64} (h0 : Real64.le Real64.zero x = true) (h1 : Real64.lt x FOURPI = true) :
    x.mag < FOURPI.mag := by
  have hk := (lt_iff.1 h1).2.2
  rw [fourPi_facts.2.2] at hk
  rcases not_negative_or_zero h0 with hs | hzero
  · rw [key_of_not_negative hs] at hk
    omega
  · rw [hzero]
    decide +kernel

/-- A value in `[0, 4 pi)` is its own remainder. -/
theorem fmod_fourPi_self {x : Real64} (h0 : Real64.le Real64.zero x = true) (h1 : Real64.lt x FOURPI = true) :
    x.fmod FOURPI = x := by
  have hf := fourPi_facts.1
  have hmag := mag_lt_fourPi h0 h1
  have hx : x.isFinite = true := isFinite_iff.2 (hmag.trans (isFinite_iff.1 hf))
  obtain ⟨-, hs, hu, -⟩ := fmod_fourPi hx
  exact eq_of_negative_units hs (hu.trans (Nat.mod_eq_of_lt (unitsOfMag_lt (isFinite_iff.1 hf).le hmag)))

/-- Settles O33: the remainder is exact, and each correction answers in its range. -/
theorem phaseReductionRange : Obligations.PhaseReductionRange := by
  intro x hx
  obtain ⟨hm, hs, hu, -⟩ := fmod_fourPi hx
  obtain ⟨hlo, hhi⟩ := mod4pi_range hx
  refine ⟨⟨x.fmod FOURPI, _, hm, hs, hu, mod4pi_eq hx, rfl, hlo, hhi⟩, fun hx0 hx1 => ?_⟩
  rw [mod4pi_eq hx, fmod_fourPi_self hx0 hx1, raised_of_nonneg hx0, lowered_of_lt hx1]

/-- Settles O32: each product and quotient of R92, evaluated. -/
theorem phaseIncrementsAreTheStatedValues : Obligations.PhaseIncrementsAreTheStatedValues := by
  unfold Obligations.PhaseIncrementsAreTheStatedValues
  decide +kernel

end Sys2Proof.Machine
end

section
/-! PROOFS. The first bit after a clear (41_bitsync.md R107), and the ranges of the index and of the timing adjustment
over any number of samples (R111). -/

namespace Sys2Proof

/-- A sign as a real value (R29). -/
theorem ofInt_sgn : ∀ sg : Machine.Sgn,
    (Real64.ofInt sg.toInt).isFinite = true ∧ (Real64.ofInt sg.toInt).negative = decide (sg = .minus) ∧
      (Real64.ofInt sg.toInt).mag = if sg = .zero then 0 else oneMag
  | .minus => by decide +kernel
  | .zero => by decide +kernel
  | .plus => by decide +kernel

/-- A number times the real 1 or -1: the magnitude stays, and the signs multiply. -/
theorem mul_ofInt_sgn {v : Real64} (hv : v.isNaN = false) {sg : Machine.Sgn} (hsg : sg ≠ .zero) :
    v.mul (Real64.ofInt sg.toInt) = Real64.ofMag (v.negative != decide (sg = .minus)) v.mag := by
  obtain ⟨hf, hs, hm⟩ := ofInt_sgn sg
  rw [if_neg hsg] at hm
  cases hfin : v.isFinite with
  | true =>
    have hunits : (Real64.ofInt sg.toInt).units = oneUnits := by rw [Real64.units, hm, unitsOfMag_oneMag]
    have hround : roundUnits (v.units * oneUnits) oneUnits = v.mag :=
      roundUnits_exact oneUnits_pos (isFinite_iff.1 hfin).le
    rw [mul_of_finite hfin hf, hs, hunits, hround]
  | false =>
    have hinf : v.mag = infMag := by
      simp only [Real64.isFinite, Real64.isNaN, decide_eq_false_iff_not] at hfin hv
      omega
    have hzero : v.isZero = false := by simp [Real64.isZero, hinf]; decide
    have hone : (Real64.ofInt sg.toInt).isZero = false := by simp [Real64.isZero, hm]; decide
    simp [Real64.mul, hv, isFinite_not_nan hf, Real64.isInf, hinf, hzero, hone, hs, Real64.inf]

end Sys2Proof

namespace Sys2Proof.Machine

open Sys2Proof.Safety

/-- The sign of a number that is not 0 is its sign bit. -/
theorem signOf_of_not_zero {v : Real64} (hv : v.isNaN = false) (h0 : v.isZero = false) :
    signOf v = if v.negative then .minus else .plus := by
  have hmag : 0 < v.mag := by simpa [Real64.isZero, Nat.pos_iff_ne_zero] using h0
  obtain ⟨hzn, hzk⟩ := zero_facts
  cases hs : v.negative with
  | false => simp [signOf, zero_lt_iff.2 ⟨hv, hs, hmag⟩]
  | true => simp [signOf, Real64.lt, hv, hzn, hzk, key_of_negative hs, hmag]

/-- Zero of either sign is equal to 0 in the order. -/
theorem key_of_isZero {v : Real64} (h0 : v.isZero = true) : v.key = 0 := by
  have hmag : v.mag = 0 := by simpa [Real64.isZero] using h0
  simp [Real64.key, hmag]

/-- Zero of either sign has the sign 0. -/
theorem signOf_of_isZero {v : Real64} (h0 : v.isZero = true) : signOf v = .zero := by
  simp [signOf, Real64.lt, zero_facts, key_of_isZero h0]

/-- Zero of either sign times the real 0 is a zero. -/
theorem mul_zero_isZero {v : Real64} (h0 : v.isZero = true) : (v.mul (Real64.ofInt 0)).isZero = true := by
  have hmag : v.mag = 0 := by simpa [Real64.isZero] using h0
  have hf : v.isFinite = true := isFinite_iff.2 (hmag ▸ by decide)
  have hunits : v.units = 0 := by rw [Real64.units, hmag, unitsOfMag_zero]
  have hle : (v.mul (Real64.ofInt 0)).mag ≤ 0 := mul_mag_le hf (by decide) (by simp [hunits])
  simpa [Real64.isZero] using hle

/-- Settles O35: an integral that is not 0 is multiplied by its own sign, which gives its size. -/
theorem firstBitAfterClearIsOne : Obligations.FirstBitAfterClearIsOne := by
  intro v hv
  constructor
  · intro h0
    have hsign := signOf_of_not_zero hv h0
    have hprod : v.mul (Real64.ofInt (latchSign .zero v).toInt) = Real64.ofMag false v.mag := by
      rw [latchSign, if_pos rfl, hsign, mul_ofInt_sgn hv (by split <;> decide)]
      cases v.negative <;> rfl
    have hpos : Real64.lt Real64.zero (Real64.ofMag false v.mag) = true := by
      rw [zero_lt_iff, negative_ofMag (mag_lt v), mag_ofMag (mag_lt v)]
      refine ⟨?_, rfl, by simpa [Real64.isZero, Nat.pos_iff_ne_zero] using h0⟩
      simpa [Real64.isNaN, mag_ofMag (mag_lt v)] using hv
    rw [slice_ok hv (by rw [hprod]; exact (lt_iff.1 hpos).2.1), hprod, hpos, latchSign, if_pos rfl, hsign]
  · intro h0
    have hlatch : latchSign .zero v = .zero := by rw [latchSign, if_pos rfl, signOf_of_isZero h0]
    have hzero := mul_zero_isZero h0
    have hn : (v.mul (Real64.ofInt 0)).isNaN = false := by
      have hmag : (v.mul (Real64.ofInt 0)).mag = 0 := by simpa [Real64.isZero] using hzero
      simp [Real64.isNaN, hmag]
    have hlt : Real64.lt Real64.zero (v.mul (Real64.ofInt 0)) = false := by
      simp [Real64.lt, zero_facts, key_of_isZero hzero]
    rw [slice_ok hv (by rw [hlatch]; exact hn), hlatch]
    exact congrArg (fun bit => Except.ok (Sgn.zero, bit)) hlt

/-! ### The index and the timing adjustment over a list of samples (R111) -/

variable {s t : State}

/-- R111's bounds are the synchronizer's invariant. -/
theorem bsyncOk_iff :
    BsyncOk s ↔ s.bsync.is < 40 ∧ Real64.le (Real64.ofInt (-2)) s.bsync.ea = true ∧
      Real64.le s.bsync.ea (Real64.ofInt 2) = true := by
  have hlo : Real64.neg EA_MAX = Real64.ofInt (-2) := by decide +kernel
  rw [BsyncOk, hlo]
  rfl

theorem bsyncOk_feedAll {xs : List Int} (h : BsyncOk s) (ht : feedAll xs s = .ok t) : BsyncOk t := by
  induction xs generalizing s with
  | nil => cases ht; exact h
  | cons x xs ih =>
    obtain ⟨u, hu, hrest⟩ := bind_ok ht
    exact ih (bsyncOk_bsFeed h hu) hrest

/-- Settles O22: every sample keeps the bounds. -/
theorem indexAndTimingStayInRange : Obligations.IndexAndTimingStayInRange :=
  fun _ _ _ his hlo hhi ht => bsyncOk_iff.1 (bsyncOk_feedAll (bsyncOk_iff.2 ⟨his, hlo, hhi⟩) ht)

end Sys2Proof.Machine
end

section
/-! PROOFS. BS_FEED of one sample, step by step in the order of R94 (41_bitsync.md R95 to R110). -/

namespace Sys2Proof.Machine

open Sys2Proof.Safety

variable {s : State} {x : Int} {phiH phiL : Real64} {b b' : Bsync} {par : Params} {c : Real64} {f : Fault}

/-! ### BS_FEED as an operation -/

/-- The host's BS_FEED of an s16 in RUN (R94). -/
theorem exec_bsFeed (hp : s.phase = .run) (hx : isS16 x = true) :
    exec (.bsFeed x) s = ofExcept (bsFeed x (beginOp s)) := by
  show runOnly s (withOperand (operandS16 x) fun v => ofExcept (bsFeed v (beginOp s))) = _
  rw [runOnly_run hp, operandS16_ok hx, withOperand_ok]

/-- BS_FEED starts from what the synchronizer's step makes of the state before it. -/
theorem bsFeed_beginOp (x : Int) (s : State) :
    bsFeed x (beginOp s) = syncFeed s.par x s.bsync >>= fun b => handBit b (beginOp s) := bsFeed_eq x _

theorem exec_bsFeed_fault (hp : s.phase = .run) (hx : isS16 x = true) (h : syncFeed s.par x s.bsync = .error f) :
    exec (.bsFeed x) s = .fault f := by rw [exec_bsFeed hp hx, bsFeed_beginOp, h, error_bind, ofExcept_error]

/-- A step of the synchronizer without a bit. -/
theorem exec_bsFeed_silent (hp : s.phase = .run) (hx : isS16 x = true) (h : syncFeed s.par x s.bsync = .ok b)
    (hv : b.bitValid = false) : exec (.bsFeed x) s = .next { opOutputs s none [] none with bsync := b } := by
  rw [exec_bsFeed hp hx, bsFeed_beginOp, h, ok_bind, handBit, hv]
  rfl

/-- A step of the synchronizer with a bit, which LINK takes (R113). -/
theorem exec_bsFeed_bit (hp : s.phase = .run) (hx : isS16 x = true) (h : syncFeed s.par x s.bsync = .ok b)
    (hv : b.bitValid = true) :
    exec (.bsFeed x) s = ofExcept (linkBit b.bit { opOutputs s none [] none with bsync := b }) := by
  rw [exec_bsFeed hp hx, bsFeed_beginOp, h, ok_bind, handBit, hv]
  rfl

/-! ### Steps 1 to 5 (R95 to R102) -/

/-- The two phase reductions of a sample answer (R98, R99). -/
def PhasesAnswer (b : Bsync) (phiH phiL : Real64) : Prop :=
  mod4pi (phaseArg DPHI_H b.phiH b.dfH) = .ok phiH ∧ mod4pi (phaseArg DPHI_L b.phiL b.dfL) = .ok phiL

theorem bsFront_ok (hl : (levelAfter s x).isNaN = false) (hphi : PhasesAnswer s.bsync phiH phiL) :
    bsFront s.par x { s.bsync with bitValid := false, bit := false } = .ok (afterMixers s x phiH phiL) := by
  obtain ⟨hH, hL⟩ := hphi
  have hu : normalise x (trackLevel x s.bsync.lin) = .ok (ratioOf s x) := normalise_ok x hl
  simp only [bsFront, hu, vfoStep_ok hH, vfoStep_ok hL, ok_bind, afterMixers, recentSum_eq]
  rfl

theorem syncFeed_front (hl : (levelAfter s x).isNaN = false) (hphi : PhasesAnswer s.bsync phiH phiL) :
    syncFeed s.par x s.bsync = bsClock s.par (afterMixers s x phiH phiL) := by
  rw [syncFeed, bsFront_ok hl hphi, ok_bind]

/-- A fault of steps 1 to 5 is the fault of BS_FEED. -/
theorem syncFeed_front_error (h : bsFront par x { b with bitValid := false, bit := false } = .error f) :
    syncFeed par x b = .error f := by rw [syncFeed, h, error_bind]

/-- Settles O36: below its threshold the clock counts, and steps 1 to 5 are all that happens. -/
theorem bsFeedBetweenTicks : Obligations.BsFeedBetweenTicks := by
  intro s x phiH phiL hp hx hl hH hL hn hbelow
  have hfeed := (syncFeed_front hl ⟨hH, hL⟩).trans (bsClock_count hn hbelow)
  exact exec_bsFeed_silent hp hx hfeed rfl

/-! ### Step 6 (R103 to R109) -/

/-- A sample at a tick: the rest is the slicing, with the correlator's value (R104). -/
theorem syncFeed_tick (hl : (levelAfter s x).isNaN = false) (hphi : PhasesAnswer s.bsync phiH phiL)
    (hn : ((Real64.ofInt 10).add s.bsync.ea).isNaN = false)
    (htick : Real64.le ((Real64.ofInt 10).add s.bsync.ea) (Real64.ofInt (s.bsync.clock + 1 : Nat)) = true) :
    syncFeed s.par x s.bsync =
      tickWith s.par
        (correlation s.par.trig (afterMixers s x phiH phiL).csample (afterMixers s x phiH phiL).is)
        (afterMixers s x phiH phiL) := by
  rw [syncFeed_front hl hphi, correlation_eq]
  exact bsClock_tick (b := afterMixers s x phiH phiL) hn htick

/-- The Q branch (R105), its integral written out. -/
theorem sliceQ_ok (hv : (recentSum b.qsample b.is par.integLen).isNaN = false)
    (hp : ((recentSum b.qsample b.is par.integLen).mul
      (Real64.ofInt (latchSign b.sgQ (recentSum b.qsample b.is par.integLen)).toInt)).isNaN = false)
    (he : (timingError c b.ppC).isNaN = false) :
    sliceQ par c b = .ok { b with
      sgQ := latchSign b.sgQ (recentSum b.qsample b.is par.integLen)
      bit := Real64.lt Real64.zero ((recentSum b.qsample b.is par.integLen).mul
        (Real64.ofInt (latchSign b.sgQ (recentSum b.qsample b.is par.integLen)).toInt))
      ea := Real64.clamp (timingError c b.ppC).neg (Real64.neg EA_MAX) EA_MAX
      bitValid := true } := by
  rw [recentSum_eq] at *
  simp only [sliceQ, slice_ok hv hp, clampEa_ok ((neg_isNaN _).trans he), ok_bind]

/-- The I branch (R106), its integral written out. -/
theorem sliceI_ok (hv : (recentSum b.isample b.is par.integLen).isNaN = false)
    (hp : ((recentSum b.isample b.is par.integLen).mul
      (Real64.ofInt (latchSign b.sgI (recentSum b.isample b.is par.integLen)).toInt)).isNaN = false)
    (he : (timingError c b.ppC).isNaN = false) :
    sliceI par c b = .ok { b with
      sgI := latchSign b.sgI (recentSum b.isample b.is par.integLen)
      bit := Real64.lt Real64.zero ((recentSum b.isample b.is par.integLen).mul
        (Real64.ofInt (latchSign b.sgI (recentSum b.isample b.is par.integLen)).toInt))
      ea := Real64.clamp (timingError c b.ppC) (Real64.neg EA_MAX) EA_MAX
      bitValid := true } := by
  rw [recentSum_eq] at *
  simp only [sliceI, slice_ok hv hp, clampEa_ok he, ok_bind]

/-- A rising correlator is not a falling one (R106). -/
theorem lt_asymm {y z : Real64} (h : Real64.lt y z = true) : Real64.lt z y = false := by
  have hk := (lt_iff.1 h).2.2
  simp [Real64.lt, hk.le]

/-- At a local minimum the Q branch runs (R105). -/
theorem bsSlice_minimum (hlt : Real64.lt b.pC c = true) (hold : Real64.lt b.pC b.ppC = true) :
    bsSlice par c b = sliceQ par c b := by
  rw [bsSlice_ok (lt_iff.1 hlt).2.1 (lt_iff.1 hlt).1 (lt_iff.1 hold).2.1, hlt, hold]
  rfl

/-- At a local maximum the I branch runs (R106). -/
theorem bsSlice_maximum (hlt : Real64.lt c b.pC = true) (hold : Real64.lt b.ppC b.pC = true) :
    bsSlice par c b = sliceI par c b := by
  rw [bsSlice_ok (lt_iff.1 hlt).1 (lt_iff.1 hlt).2.1 (lt_iff.1 hold).1, hlt, hold, lt_asymm hlt]
  rfl

/-- At any other tick neither branch runs (R108). -/
theorem bsSlice_neither (hc : c.isNaN = false) (hp : b.pC.isNaN = false) (hq : b.ppC.isNaN = false)
    (hmin : ¬(Real64.lt b.pC c = true ∧ Real64.lt b.pC b.ppC = true))
    (hmax : ¬(Real64.lt c b.pC = true ∧ Real64.lt b.ppC b.pC = true)) : bsSlice par c b = .ok b := by
  rw [bsSlice_ok hc hp hq, if_neg (by simpa using hmin), if_neg (by simpa using hmax)]

/-- Settles O37: the branch that the correlator's history selects, and the shift of that history. The result is compared
with the statement up to reducible unfolding only: more would evaluate the real constants in it. -/
theorem bsFeedAtTick : Obligations.BsFeedAtTick := by
  intro s x phiH phiL hp hx hl hH hL hn htick m c err sumQ sumI sgQ sgI hc hpC hppC
  have hfeed : syncFeed s.par x s.bsync = tickWith s.par c m := syncFeed_tick hl ⟨hH, hL⟩ hn htick
  have hm : m.bitValid = false := rfl
  clear_value m c
  refine ⟨?_, ?_, ?_⟩
  · intro hlt hold he hsum bit hprod
    have hbranch := (bsSlice_minimum (par := s.par) (b := { m with clock := 0 }) hlt hold).trans
      (sliceQ_ok hsum hprod he)
    have hexec := exec_bsFeed_bit hp hx (hfeed.trans (tickWith_ok hbranch)) rfl
    simp only [latchSign, timingError] at hexec
    with_reducible exact hexec
  · intro hlt hold he hsum bit hprod
    have hbranch := (bsSlice_maximum (par := s.par) (b := { m with clock := 0 }) hlt hold).trans
      (sliceI_ok hsum hprod he)
    have hexec := exec_bsFeed_bit hp hx (hfeed.trans (tickWith_ok hbranch)) rfl
    simp only [latchSign, timingError] at hexec
    with_reducible exact hexec
  · intro hmin hmax
    have hnone := bsSlice_neither (par := s.par) (b := { m with clock := 0 }) hc hpC hppC hmin hmax
    exact exec_bsFeed_silent hp hx (hfeed.trans (tickWith_ok hnone)) hm

end Sys2Proof.Machine
end

section
/-! PROOFS. A NaN at a comparison of BS_FEED is the fault NAN_IN_LOOP (41_bitsync.md R110): a step that answers met
none, and a step that does not answer ends in that fault. -/

namespace Sys2Proof.Machine

open Sys2Proof.Safety

variable {s : State} {x : Int} {phiH phiL : Real64} {b b' : Bsync} {par : Params} {c : Real64}

/-! ### What a part that answers has compared -/

theorem fmod_not_finite {y z : Real64} (h : y.isFinite = false) : (y.fmod z).isNaN = true := by
  have hclass : y.isNaN = true ∨ y.isInf = true := by
    simp only [Real64.isFinite, Real64.isNaN, Real64.isInf, decide_eq_false_iff_not, decide_eq_true_eq] at h ⊢
    omega
  have hr : y.fmod z = Real64.nan := by rcases hclass with h | h <;> simp [Real64.fmod, h]
  rw [hr]
  decide

/-- A phase reduction that answers had a finite argument (R100). -/
theorem mod4pi_answers {y r : Real64} (h : mod4pi y = .ok r) : y.isFinite = true := by
  obtain ⟨below, hlt, -⟩ := bind_ok h
  by_contra hf
  have hnan := fmod_not_finite (z := FOURPI) (by simpa using hf)
  exact nomatch (ltChecked_cases hlt).1.symm.trans hnan

/-- Steps 1 to 5 that answer had a level that is a number and finite phases (R97, R98, R99). -/
theorem bsFront_answers (h : bsFront par x b = .ok b') :
    (trackLevel x b.lin).isNaN = false ∧ (phaseArg DPHI_H b.phiH b.dfH).isFinite = true ∧
      (phaseArg DPHI_L b.phiL b.dfL).isFinite = true := by
  obtain ⟨u, hu, h⟩ := bind_ok h
  obtain ⟨vH, hH, h⟩ := bind_ok h
  obtain ⟨vL, hL, -⟩ := bind_ok h
  refine ⟨?_, mod4pi_answers (vfoStep_cases hH).1, mod4pi_answers (vfoStep_cases hL).1⟩
  by_contra hn
  rw [normalise, if_pos (by simpa using hn)] at hu
  cases hu

theorem slice_answers {sg : Sgn} {v : Real64} {p : Sgn × Bool} (h : slice sg v = .ok p) : v.isNaN = false := by
  obtain ⟨q, hq, -⟩ := bind_ok h
  exact (ltChecked_cases hq).1

/-- A Q branch that answers had an integral and a timing error that are numbers (R105). -/
theorem sliceQ_answers (h : sliceQ par c b = .ok b') :
    (recentSum b.qsample b.is par.integLen).isNaN = false ∧ (timingError c b.ppC).isNaN = false := by
  obtain ⟨p, hp, h⟩ := bind_ok h
  obtain ⟨ea, hea, -⟩ := bind_ok h
  rw [recentSum_eq]
  exact ⟨slice_answers hp, (neg_isNaN _).symm.trans (clampEa_cases hea).1⟩

/-- An I branch that answers had an integral and a timing error that are numbers (R106). -/
theorem sliceI_answers (h : sliceI par c b = .ok b') :
    (recentSum b.isample b.is par.integLen).isNaN = false ∧ (timingError c b.ppC).isNaN = false := by
  obtain ⟨p, hp, h⟩ := bind_ok h
  obtain ⟨ea, hea, -⟩ := bind_ok h
  rw [recentSum_eq]
  exact ⟨slice_answers hp, (clampEa_cases hea).1⟩

/-- A slicing that answers compared three numbers (R105, R106). -/
theorem bsSlice_answers (h : bsSlice par c b = .ok b') :
    c.isNaN = false ∧ b.pC.isNaN = false ∧ b.ppC.isNaN = false := by
  obtain ⟨rising, hrising, h⟩ := bind_ok h
  obtain ⟨old, hold, -⟩ := bind_ok h
  obtain ⟨hpC, hc, -⟩ := ltChecked_cases hrising
  exact ⟨hc, hpC, (ltChecked_cases hold).2.1⟩

theorem bsSlice_minimum_answers (hlt : Real64.lt b.pC c = true) (hold : Real64.lt b.pC b.ppC = true)
    (h : bsSlice par c b = .ok b') :
    (recentSum b.qsample b.is par.integLen).isNaN = false ∧ (timingError c b.ppC).isNaN = false :=
  sliceQ_answers ((bsSlice_minimum hlt hold).symm.trans h)

theorem bsSlice_maximum_answers (hlt : Real64.lt c b.pC = true) (hold : Real64.lt b.ppC b.pC = true)
    (h : bsSlice par c b = .ok b') :
    (recentSum b.isample b.is par.integLen).isNaN = false ∧ (timingError c b.ppC).isNaN = false :=
  sliceI_answers ((bsSlice_maximum hlt hold).symm.trans h)

/-- A step of the synchronizer that answers (R97 to R103). -/
theorem syncFeed_answers (h : syncFeed s.par x s.bsync = .ok b) :
    (levelAfter s x).isNaN = false ∧ (phaseArg DPHI_H s.bsync.phiH s.bsync.dfH).isFinite = true ∧
      (phaseArg DPHI_L s.bsync.phiL s.bsync.dfL).isFinite = true ∧
      ((Real64.ofInt 10).add s.bsync.ea).isNaN = false := by
  obtain ⟨f, hf, hb⟩ := bind_ok h
  obtain ⟨hl, hH, hL⟩ := bsFront_answers hf
  obtain ⟨-, -, -, hea, -⟩ := bsFront_cases hf
  refine ⟨hl, hH, hL, ?_⟩
  have hthreshold := (bsClock_cases hb).1
  rw [hea] at hthreshold
  exact hthreshold

/-- A step at a tick that answers sliced with the correlator's value (R104). -/
theorem syncFeed_tick_answers (hphi : PhasesAnswer s.bsync phiH phiL)
    (htick : Real64.le ((Real64.ofInt 10).add s.bsync.ea) (Real64.ofInt (s.bsync.clock + 1 : Nat)) = true)
    (h : syncFeed s.par x s.bsync = .ok b) :
    ∃ b', bsSlice s.par
      (correlation s.par.trig (afterMixers s x phiH phiL).csample (afterMixers s x phiH phiL).is)
      { afterMixers s x phiH phiL with clock := 0 } = .ok b' := by
  obtain ⟨hl, -, -, hn⟩ := syncFeed_answers h
  rw [syncFeed_tick hl hphi hn htick] at h
  obtain ⟨b', hb, -⟩ := bind_ok h
  exact ⟨b', hb⟩

/-! ### A step that does not answer -/

/-- BS_FEED of a step that cannot answer ends in NAN_IN_LOOP, the synchronizer's one fault. -/
theorem exec_bsFeed_nan (hp : s.phase = .run) (hx : isS16 x = true) (h : ∀ b, syncFeed s.par x s.bsync ≠ .ok b) :
    exec (.bsFeed x) s = .fault .nanInLoop := by
  have honly : FaultsOnNan (syncFeed s.par x s.bsync) :=
    faultsOnNan_bind (faultsOnNan_bsFront _ _ _) (faultsOnNan_bsClock _)
  cases he : syncFeed s.par x s.bsync with
  | ok b => exact absurd he (h b)
  | error f =>
    have hf := honly f he
    exact exec_bsFeed_fault hp hx (he.trans (congrArg Except.error hf))

/-- Settles O38: in each clause the step would have compared a NaN, so it cannot answer. -/
theorem nanAtAComparisonIsAFault : Obligations.NanAtAComparisonIsAFault := by
  intro s x hp hx argH argL threshold
  have hfault := exec_bsFeed_nan hp hx
  refine ⟨fun hnan => hfault fun b h => ?_, fun hinf => hfault fun b h => ?_, fun hinf => hfault fun b h => ?_,
    fun phiH phiL hH hL => ⟨fun hnan => hfault fun b h => ?_, ?_⟩⟩
  · exact nomatch (syncFeed_answers h).1.symm.trans hnan
  · exact nomatch (syncFeed_answers h).2.1.symm.trans hinf
  · exact nomatch (syncFeed_answers h).2.2.1.symm.trans hinf
  · exact nomatch (syncFeed_answers h).2.2.2.symm.trans hnan
  · intro _ htick m c err
    have hslice : ∀ b, syncFeed s.par x s.bsync = .ok b → ∃ b', bsSlice s.par c { m with clock := 0 } = .ok b' :=
      fun _ h => syncFeed_tick_answers ⟨hH, hL⟩ htick h
    refine ⟨fun hnan => hfault fun b h => ?_, fun _ hnan => hfault fun b h => ?_,
      fun hlt hold hnan => hfault fun b h => ?_, fun hlt hold hnan => hfault fun b h => ?_⟩
    · obtain ⟨b', hb⟩ := hslice b h
      obtain ⟨hc, hpC, -⟩ := bsSlice_answers hb
      rcases hnan with hnan | hnan
      · exact nomatch hc.symm.trans hnan
      · exact nomatch hpC.symm.trans hnan
    · obtain ⟨b', hb⟩ := hslice b h
      exact nomatch (bsSlice_answers hb).2.2.symm.trans hnan
    · obtain ⟨b', hb⟩ := hslice b h
      obtain ⟨hsum, herr⟩ := bsSlice_minimum_answers (b := { m with clock := 0 }) hlt hold hb
      rcases hnan with hnan | hnan
      · exact nomatch hsum.symm.trans hnan
      · exact nomatch herr.symm.trans hnan
    · obtain ⟨b', hb⟩ := hslice b h
      obtain ⟨hsum, herr⟩ := bsSlice_maximum_answers (b := { m with clock := 0 }) hlt hold hb
      rcases hnan with hnan | hnan
      · exact nomatch hsum.symm.trans hnan
      · exact nomatch herr.symm.trans hnan

end Sys2Proof.Machine
end

section
/-! PROOFS. BS_FEED answers while the synchronizer's real values are bounded and `SIN` and `COS` are the reference pair
(41_bitsync.md R94 to R110, 60_exceptions.md R145). -/

namespace Sys2Proof.Safety

variable {a n k : Nat} {x y : Real64}

/-! ### Bounded values -/

/-- A whole number below 2^53 is a magnitude. -/
theorem exists_mag_whole (h : n < 2 ^ 53) : ∃ m, m < infMag ∧ unitsOfMag m = n * oneUnits := by
  obtain ⟨m, hm⟩ := exists_mag h 1074
  have hone : oneUnits = 2 ^ 1074 := by rw [oneUnits, pow2_eq]
  obtain ⟨k, hk, hku⟩ : ∃ k, k < infMag ∧ unitsOfMag k = 2 ^ 53 * oneUnits :=
    ⟨(1023 + 53) * 2 ^ 52, by decide, by decide +kernel⟩
  refine ⟨m, (le_of_unitsOfMag_le ?_).trans_lt hk, by rw [hm, hone]⟩
  rw [hm, hku, hone]
  exact Nat.mul_le_mul_right _ h.le

/-- A value whose size rounds a number of at most `n` has size at most `n`. -/
theorem bounded_of_mag_le {m : Nat} (hlt : m < infMag) (hm : unitsOfMag m = n * oneUnits) (h : x.mag ≤ m) :
    Bounded n x :=
  ⟨isFinite_of_mag_le h hlt, (unitsOfMag_le hlt.le h).trans hm.le⟩

theorem Bounded.mono (h : Bounded a x) (hle : a ≤ n) : Bounded n x := ⟨h.1, h.2.trans (Nat.mul_le_mul_right _ hle)⟩

theorem Bounded.not_nan (h : Bounded a x) : x.isNaN = false := isFinite_not_nan h.1

theorem Bounded.neg (h : Bounded a x) : Bounded a x.neg := ⟨(neg_isFinite x).trans h.1, (units_neg x).trans_le h.2⟩

theorem Bounded.add (hx : Bounded a x) (hy : Bounded k y) (h : a + k < 2 ^ 53) : Bounded (a + k) (x.add y) := by
  obtain ⟨m, hlt, hm⟩ := exists_mag_whole h
  refine bounded_of_mag_le hlt hm (add_mag_le hx.1 hy.1 ?_)
  rw [hm, Nat.add_mul]
  exact Nat.add_le_add hx.2 hy.2

theorem Bounded.sub (hx : Bounded a x) (hy : Bounded k y) (h : a + k < 2 ^ 53) : Bounded (a + k) (x.sub y) :=
  hx.add hy.neg h

theorem Bounded.mul (hx : Bounded a x) (hy : Bounded k y) (h : a * k < 2 ^ 53) : Bounded (a * k) (x.mul y) := by
  obtain ⟨m, hlt, hm⟩ := exists_mag_whole h
  refine bounded_of_mag_le hlt hm (mul_mag_le hx.1 hy.1 ?_)
  calc x.units * y.units ≤ a * oneUnits * (k * oneUnits) := Nat.mul_le_mul hx.2 hy.2
    _ = unitsOfMag m * oneUnits := by rw [hm]; ring

/-- A quotient by a value of size at least 1 is no larger. -/
theorem Bounded.div (hx : Bounded a x) (hy : y.isFinite = true) (h : oneUnits ≤ y.units) : Bounded a (x.div y) := by
  have h0 : y.isZero = false := by
    by_contra hz
    have hmag : y.mag = 0 := by simpa [Real64.isZero] using hz
    rw [Real64.units, hmag, unitsOfMag_zero] at h
    exact absurd oneUnits_pos (not_lt.2 h)
  have hmag : (x.div y).mag ≤ x.mag := div_mag_le hx.1 hy h0 (Nat.mul_le_mul_left _ h)
  exact ⟨isFinite_of_mag_le hmag (isFinite_iff.1 hx.1), (unitsOfMag_le (isFinite_iff.1 hx.1).le hmag).trans hx.2⟩

theorem bounded_of_oneMag (h : x.mag ≤ oneMag) : Bounded 1 x :=
  bounded_of_mag_le (by decide) (by rw [unitsOfMag_oneMag, Nat.one_mul]) h

theorem bounded_zero : Bounded 0 Real64.zero := by unfold Bounded; decide

/-- A sum of `n` values of size at most `a` has size at most `n * a` (R11). -/
theorem bounded_sum {xs : List Real64} (hxs : ∀ z ∈ xs, Bounded a z) (h : xs.length * a < 2 ^ 53) :
    Bounded (xs.length * a) (Real64.sum xs) := by
  induction xs using List.reverseRecOn with
  | nil => exact bounded_zero.mono (Nat.zero_le _)
  | append_singleton xs z ih =>
    rw [List.length_append, List.length_singleton, Nat.add_mul, Nat.one_mul] at h ⊢
    rw [Real64.sum, List.foldl_append]
    exact (ih (fun w hw => hxs w (by simp [hw])) (by omega)).add (hxs z (by simp)) h

/-- The size of a whole number below 2^53, as a real, is exact (R11). -/
theorem ofInt_units {z : Int} (h : z.natAbs < 2 ^ 53) :
    (Real64.ofInt z).isFinite = true ∧ (Real64.ofInt z).units = z.natAbs * oneUnits := by
  rcases eq_or_ne z 0 with rfl | h0
  · decide
  · obtain ⟨m, hlt, hm⟩ := exists_mag_whole h
    have he : Real64.ofInt z = Real64.ofMag (decide (z < 0)) m := by
      rw [Real64.ofInt, if_neg h0, ← hm, roundUnits_unit hlt.le]
    rw [he, isFinite_iff, Real64.units, mag_ofMag (hlt.trans infMag_lt)]
    exact ⟨hlt, hm⟩

theorem ofInt_bounded {z : Int} (h : z.natAbs < 2 ^ 53) : Bounded z.natAbs (Real64.ofInt z) :=
  ⟨(ofInt_units h).1, (ofInt_units h).2.le⟩

end Sys2Proof.Safety

namespace Sys2Proof.Machine

open Sys2Proof.Safety

variable {s : State} {x : Int} {n : Nat}

/-! ### The constants of R6 and R92 -/

theorem linA_bounded : Bounded 1 LIN_A := by unfold Bounded; decide +kernel

theorem linB_bounded : Bounded 1 LIN_B := by unfold Bounded; decide +kernel

theorem bitPll_bounded : Bounded 1 BITPLL := by unfold Bounded; decide +kernel

theorem vfoPll_bounded : Bounded 1 VFOPLL := by unfold Bounded; decide +kernel

theorem dphi_bounded : Bounded 1 DPHI_H ∧ Bounded 1 DPHI_L := by unfold Bounded; decide +kernel

theorem pi_bounded : Bounded 4 PI := by unfold Bounded; decide +kernel

theorem fourPi_bounded : Bounded 16 FOURPI := by unfold Bounded; decide +kernel

/-- `LIN_A` is above 1/512, which bounds `u` (R97). -/
theorem linA_large : oneUnits ≤ 2 ^ 9 * LIN_A.units := by decide +kernel

/-! ### The level and the ratio (R96, R97) -/

/-- A sum of two values with the sign plus is no smaller than the first. -/
theorem units_le_add {y z : Real64} (hy : y.isFinite = true) (hz : z.isFinite = true) (hys : y.negative = false)
    (hzs : z.negative = false) : y.units ≤ (y.add z).units := by
  have hv : y.value + z.value = (y.units + z.units : Nat) := by simp [Real64.value, hys, hzs]
  rw [add_of_finite hy hz, Real64.addFinite]
  simp only [hv]
  split
  · next h0 =>
    have hzero : y.units = 0 := by omega
    rw [hzero]
    exact Nat.zero_le _
  · rw [Real64.units, Real64.units, mag_ofMag (roundUnits_lt _ _)]
    refine unitsOfMag_le (roundUnits_le_infMag _ _) (le_roundUnits one_pos (isFinite_iff.1 hy).le ?_)
    rw [Nat.mul_one, Int.natAbs_natCast]
    exact Nat.le_add_right _ _

theorem natAbs_le_of_isS16 (hx : isS16 x = true) : x.natAbs ≤ 32768 := by
  rw [isS16_iff] at hx
  omega

/-- The sample's share of the level is at least 1/512 of the sample. -/
theorem sampleShare_large (hx : isS16 x = true) :
    x.natAbs * oneUnits ≤ 512 * (LIN_A.mul (Real64.ofInt (x.natAbs : Int))).units := by
  have hn := natAbs_le_of_isS16 hx
  obtain ⟨hf, hu⟩ := ofInt_units (z := (x.natAbs : Int)) (by omega)
  rw [Int.natAbs_natCast] at hu
  obtain ⟨m, hlt, hm⟩ := exists_mag_whole (n := x.natAbs) (by omega)
  obtain ⟨k, hk⟩ := exists_mag (c := x.natAbs) (by omega) 1065
  have hone : oneUnits = 2 ^ 9 * 2 ^ 1065 := by rw [oneUnits, pow2_eq, ← pow_add]
  have hk9 : 2 ^ 9 * unitsOfMag k = x.natAbs * oneUnits := by rw [hk, hone, Nat.mul_left_comm]
  have hkm : k ≤ infMag := (le_of_unitsOfMag_le (by omega)).trans hlt.le
  have hround : k ≤ roundUnits (LIN_A.units * (x.natAbs * oneUnits)) oneUnits :=
    le_roundUnits oneUnits_pos hkm (by
      rw [← hk9, ← Nat.mul_assoc, Nat.mul_comm LIN_A.units, Nat.mul_comm (unitsOfMag k)]
      exact Nat.mul_le_mul_right _ linA_large)
  rw [mul_of_finite linA_bounded.1 hf, hu, Real64.units, mag_ofMag (roundUnits_lt _ _)]
  have hle := unitsOfMag_le (roundUnits_le_infMag _ _) hround
  omega

/-- The level after a sample is finite and at least 1/512 of the sample. -/
theorem levelAfter_bounds (hneg : s.bsync.lin.negative = false) (hlin : Bounded (2 ^ 16) s.bsync.lin)
    (hx : isS16 x = true) :
    (levelAfter s x).isFinite = true ∧ x.natAbs * oneUnits ≤ 512 * (levelAfter s x).units := by
  have hn := natAbs_le_of_isS16 hx
  have hshare := linA_bounded.mul (ofInt_bounded (z := (x.natAbs : Int)) (by omega)) (by omega)
  have hold := linB_bounded.mul hlin (by omega)
  refine ⟨(hshare.add hold (by omega)).1, (sampleShare_large hx).trans (Nat.mul_le_mul_left _ ?_)⟩
  refine units_le_add hshare.1 hold.1 ?_ ?_
  · rw [mul_of_finite linA_bounded.1 (ofInt_natAbs hx).1, negative_ofMag (roundUnits_lt _ _), linA_size.2.1,
      (ofInt_natAbs hx).2.1]
    rfl
  · rw [mul_of_finite linB_bounded.1 hlin.1, negative_ofMag (roundUnits_lt _ _), linB_size.2.1, hneg]
    rfl

/-- The ratio of a sample to its level has size at most 512 (R97). -/
theorem ratioOf_bounded (hneg : s.bsync.lin.negative = false) (hlin : Bounded (2 ^ 16) s.bsync.lin)
    (hx : isS16 x = true) : Bounded 512 (ratioOf s x) := by
  obtain ⟨hf, hlarge⟩ := levelAfter_bounds hneg hlin hx
  have hn := natAbs_le_of_isS16 hx
  obtain ⟨hxf, hxu⟩ := ofInt_units (z := x) (by omega)
  unfold ratioOf
  split
  · exact bounded_zero.mono (Nat.zero_le _)
  · next h0 =>
    obtain ⟨m, hlt, hm⟩ := exists_mag_whole (n := 512) (by omega)
    refine bounded_of_mag_le hlt hm (div_mag_le hxf hf (by simpa using h0) ?_)
    calc (Real64.ofInt x).units * oneUnits = x.natAbs * oneUnits * oneUnits := by rw [hxu]
      _ ≤ 512 * (levelAfter s x).units * oneUnits := Nat.mul_le_mul_right _ hlarge
      _ = unitsOfMag m * (levelAfter s x).units := by rw [hm]; ring

/-! ### The phases and the oscillators (R98 to R102) -/

/-- The phase reduction of a bounded argument answers a phase below `4 pi` (R100). -/
theorem mod4pi_bounded {y : Real64} (hy : y.isFinite = true) : ∃ p, mod4pi y = .ok p ∧ Bounded 16 p := by
  obtain ⟨hlo, hhi⟩ := mod4pi_range hy
  have hmag := mag_lt_fourPi hlo hhi
  have hf := isFinite_iff.1 fourPi_bounded.1
  exact ⟨_, mod4pi_eq hy, isFinite_iff.2 (hmag.trans hf), (unitsOfMag_le hf.le hmag.le).trans fourPi_bounded.2⟩

theorem phaseArg_isFinite {dphi phi df : Real64} (hd : Bounded 1 dphi) (hp : Bounded 16 phi)
    (hdf : Bounded (20 * 2 ^ 18) df) : (phaseArg dphi phi df).isFinite = true :=
  ((hp.add hd (by omega)).sub (vfoPll_bounded.mul hdf (by omega)) (by omega)).1

/-- Both phase reductions of a sample answer when the phases and drifts are bounded. -/
theorem phasesAnswer (h : NumericOk s) :
    ∃ phiH phiL, PhasesAnswer s.bsync phiH phiL ∧ Bounded 16 phiH ∧ Bounded 16 phiL := by
  obtain ⟨-, -, ⟨hphiH, hphiL⟩, ⟨hdfH, hdfL⟩, -⟩ := h
  obtain ⟨phiH, hH, hbH⟩ := mod4pi_bounded (phaseArg_isFinite dphi_bounded.1 hphiH hdfH)
  obtain ⟨phiL, hL, hbL⟩ := mod4pi_bounded (phaseArg_isFinite dphi_bounded.2 hphiL hdfL)
  exact ⟨phiH, phiL, ⟨hH, hL⟩, hbH, hbL⟩

theorem ofInt_large {z : Int} (h0 : z ≠ 0) (h : z.natAbs < 2 ^ 53) :
    (Real64.ofInt z).isFinite = true ∧ oneUnits ≤ (Real64.ofInt z).units := by
  obtain ⟨hf, hu⟩ := ofInt_units h
  rw [hu]
  exact ⟨hf, Nat.le_mul_of_pos_left _ (Int.natAbs_pos.2 h0)⟩

/-- The reference `SIN` of a finite value has size at most 1. -/
theorem sin_bounded {y : Real64} (hy : y.isFinite = true) : Bounded 1 (sinOf .reference y) :=
  bounded_of_oneMag (sinReference_mag_le hy)

/-- The reference `COS` of a finite value has size at most 1. -/
theorem cos_bounded {y : Real64} (hy : y.isFinite = true) : Bounded 1 (cosOf .reference y) :=
  bounded_of_oneMag (cosReference_mag_le hy)

/-- The reference half-angle oscillator has size at most 1 (R98). -/
theorem osc_bounded {p : Real64} (hp : Bounded n p) :
    Bounded 1 (cosOf .reference (p.div (Real64.ofInt 2))) := by
  obtain ⟨hf, hlarge⟩ := ofInt_large (z := 2) (by omega) (by omega)
  exact cos_bounded (hp.div hf hlarge).1

/-- The reference correlator weights have size at most 1 (R93). -/
theorem hWeight_bounded {i : Nat} (hi : i < BITLEN) : Bounded 1 (hWeight .reference i) := by
  have hlen : BITLEN = 40 := rfl
  obtain ⟨hf, hlarge⟩ := ofInt_large (z := (BITLEN : Int)) (by omega) (by omega)
  have htwo : Bounded 2 (Real64.ofInt 2) := ofInt_bounded (by omega)
  have hindex : Bounded i (Real64.ofInt (i : Int)) := ofInt_bounded (z := (i : Int)) (by omega)
  have hangle := (htwo.mul pi_bounded (by omega)).mul hindex (by omega)
  rw [hWeight]
  exact sin_bounded (hangle.div hf hlarge).1

/-! ### The sums (R101, R104, R105) -/

/-- `n` values of size at most `a` sum to at most `n * a` (R11). -/
theorem sumTo_bounded {f : Nat → Real64} {a : Nat} (hf : ∀ k < n, Bounded a (f k)) (h : n * a < 2 ^ 53) :
    Bounded (n * a) (sumTo n f) := by
  have hlen : ((List.range n).map f).length = n := by simp
  have hsum := bounded_sum (List.forall_mem_map.2 fun k hk => hf k (List.mem_range.1 hk)) (by rwa [hlen])
  rwa [hlen, ← sumTo_eq] at hsum

theorem recentSum_bounded {v : Ring} {a : Nat} (hv : ∀ i, Bounded a (ringGet v i)) (is : Nat) (h : n * a < 2 ^ 53) :
    Bounded (n * a) (recentSum v is n) := sumTo_bounded (fun k _ => hv (is + k)) h

/-- The reference correlator over entries of size at most 1 has size at most 40 (R104). -/
theorem correlator_bounded {v : Ring} (hv : ∀ i, Bounded 1 (ringGet v i)) (is : Nat) :
    Bounded 40 (correlator .reference v is) := by
  have hterm : ∀ i < BITLEN, Bounded 1 ((hWeight .reference i).mul (ringGet v (is + i))) := by
    intro i hi
    have hprod := (hWeight_bounded hi).mul (hv (is + i)) (by omega)
    exact hprod
  rw [correlator, ← sumTo_eq]
  have hsum := sumTo_bounded hterm (by decide)
  exact hsum

/-! ### The mixers (R102) -/

/-- What steps 1 to 5 leave for the bit clock: the buffers it sums and the correlator's history are bounded. -/
def ClockInputsBounded (b : Bsync) : Prop :=
  (∀ i, Bounded 1024 (ringGet b.isample i) ∧ Bounded 1024 (ringGet b.qsample i) ∧ Bounded 1 (ringGet b.csample i)) ∧
    Bounded 64 b.pC ∧ Bounded 64 b.ppC

theorem afterMixers_bounded {phiH phiL : Real64} (ht : s.par.trig = .reference) (h : NumericOk s)
    (hx : isS16 x = true) (hH : Bounded 16 phiH) (hL : Bounded 16 phiL) :
    ClockInputsBounded (afterMixers s x phiH phiL) := by
  obtain ⟨-, ⟨hneg, hlin⟩, -, -, ⟨hpC, hppC⟩, hrings⟩ := h
  have hu := ratioOf_bounded hneg hlin hx
  have hoscH := osc_bounded hH
  have hoscL := osc_bounded hL
  rw [← ht] at hoscH hoscL
  refine ⟨fun i => ⟨?_, ?_, ?_⟩, hpC, hppC⟩
  · exact ringGet_ringSet_all (hu.mul (hoscL.add hoscH (by omega)) (by omega)) (fun j => (hrings j).2.2.1) i
  · exact ringGet_ringSet_all (hu.mul (hoscL.sub hoscH (by omega)) (by omega)) (fun j => (hrings j).2.2.2.1) i
  · exact ringGet_ringSet_all (hoscL.mul hoscH (by omega)) (fun j => (hrings j).2.2.2.2) i

/-! ### The bit clock (R103 to R109) -/

variable {par : Params} {b : Bsync} {c : Real64}

theorem timingError_not_nan (hc : Bounded 40 c) (hp : Bounded 64 b.ppC) : (timingError c b.ppC).isNaN = false :=
  (bitPll_bounded.mul (hc.sub hp (by omega)) (by omega)).not_nan

/-- The slicing answers with a bounded correlator and bounded integrals (R105, R106). -/
theorem bsSlice_answers_of_bounded (hn : par.integLen ≤ 2 ^ 20) (h : ClockInputsBounded b) (hc : Bounded 40 c) :
    ∃ b', bsSlice par c b = .ok b' := by
  obtain ⟨hrings, hpC, hppC⟩ := h
  have hlen : par.integLen * 1024 < 2 ^ 53 := by omega
  have herr := timingError_not_nan hc hppC
  have hQ := (recentSum_bounded (fun i => (hrings i).2.1) b.is hlen).1
  have hI := (recentSum_bounded (fun i => (hrings i).1) b.is hlen).1
  rw [bsSlice_ok hc.not_nan hpC.not_nan hppC.not_nan]
  split
  · exact ⟨_, sliceQ_ok (isFinite_not_nan hQ) (mul_finite_not_nan hQ (ofInt_sgn _).1) herr⟩
  · split
    · exact ⟨_, sliceI_ok (isFinite_not_nan hI) (mul_finite_not_nan hI (ofInt_sgn _).1) herr⟩
    · exact ⟨_, rfl⟩

theorem clockThreshold_not_nan {ea : Real64} (hlo : Real64.le (Real64.ofInt (-2)) ea = true)
    (hhi : Real64.le ea (Real64.ofInt 2) = true) : (clockThreshold ea).isNaN = false := by
  have hmag : ea.mag ≤ (Real64.ofInt 2).mag := mag_le_of_between (by decide +kernel) (by decide +kernel) hlo hhi
  exact add_finite_not_nan (by decide +kernel) (isFinite_of_mag_le hmag (by decide +kernel))

/-- The bit clock answers on bounded inputs (R103). -/
theorem bsClock_answers (ht : par.trig = .reference) (hn : par.integLen ≤ 2 ^ 20) (h : ClockInputsBounded b)
    (hea : (clockThreshold b.ea).isNaN = false) : ∃ b', bsClock par b = .ok b' := by
  cases htick : Real64.le (clockThreshold b.ea) (Real64.ofInt ((b.clock + 1 : Nat) : Int)) with
  | false => exact ⟨_, bsClock_count hea htick⟩
  | true =>
    have hc : Bounded 40 (correlator par.trig b.csample b.is) := by
      rw [ht]
      exact correlator_bounded (fun i => (h.1 i).2.2) b.is
    obtain ⟨b', hb⟩ := bsSlice_answers_of_bounded (b := { b with clock := 0 }) hn h hc
    exact ⟨_, (bsClock_tick hea htick).trans (tickWith_ok hb)⟩

/-- BS_FEED answers for every s16 in every bounded state (R145). -/
theorem bsFeed_answers (ht : s.par.trig = .reference) (h : NumericOk s) (hb : BsyncOk s) (hf : FsmOk s)
    (hx : isS16 x = true) : ∃ t, bsFeed x s = .ok t := by
  obtain ⟨-, hlo, hhi⟩ := bsyncOk_iff.1 hb
  obtain ⟨phiH, phiL, hphi, hbH, hbL⟩ := phasesAnswer h
  have hmixed := afterMixers_bounded ht h hx hbH hbL
  obtain ⟨hn, ⟨hneg, hlin⟩, -⟩ := h
  have hlevel := isFinite_not_nan (levelAfter_bounds hneg hlin hx).1
  obtain ⟨b, hclock⟩ := bsClock_answers ht hn hmixed (clockThreshold_not_nan hlo hhi)
  rw [bsFeed_eq, (syncFeed_front hlevel hphi).trans hclock, ok_bind, handBit]
  split
  · exact linkBit_answers (s := { s with bsync := b }) hf b.bit
  · exact ⟨_, rfl⟩

/-! ### What BS_FEED leaves -/

/-- The bit clock counts without a bit, or it is 0 (R103). -/
theorem bsClock_clock {b' : Bsync} (h : bsClock par b = .ok b') :
    b'.clock = b.clock + 1 ∧ b'.bitValid = b.bitValid ∨ b'.clock = 0 := by
  obtain ⟨-, ⟨-, rfl⟩ | ⟨-, htick⟩⟩ := bsClock_cases h
  · exact .inl ⟨rfl, rfl⟩
  · obtain ⟨m, ⟨-, -, -, hm⟩ | rfl, rfl⟩ := tickWith_cases htick
    · exact .inr (by rw [hm])
    · exact .inr rfl

theorem bsClock_lin {b' : Bsync} (h : bsClock par b = .ok b') : b'.lin = b.lin := by
  obtain ⟨-, ⟨-, rfl⟩ | ⟨-, htick⟩⟩ := bsClock_cases h
  · rfl
  · obtain ⟨m, ⟨-, -, -, hm⟩ | rfl, rfl⟩ := tickWith_cases htick
    · rw [hm]
    · rfl

/-- The index, the level and the clock after BS_FEED (R95, R96, R103). -/
theorem bsFeed_index_level_clock {t : State} (h : bsFeed x s = .ok t) :
    t.bsync.is = prevIndex s.bsync.is ∧ t.bsync.lin = levelAfter s x ∧
      (t.bsync.clock = s.bsync.clock + 1 ∧ t.bsync.bitValid = false ∨ t.bsync.clock = 0) := by
  obtain ⟨f, c, hf, hc, ht⟩ := bsFeed_bsync h
  obtain ⟨his, hlin, hclock, -, -, -, -, -, hvalid, -⟩ := bsFront_cases hf
  rw [ht]
  refine ⟨(bsClock_index_timing hc).1.trans his, (bsClock_lin hc).trans hlin, ?_⟩
  rcases bsClock_clock hc with ⟨hcount, hv⟩ | h0
  · exact .inl ⟨hcount.trans (congrArg (· + 1) hclock), hv.trans hvalid⟩
  · exact .inr h0

/-- Settles O39: no value that BS_FEED compares is a NaN, and LINK answers under its invariant. -/
theorem bsFeedCompletes : Obligations.BsFeedCompletes := by
  intro s x ht h hb _ hf hp hx
  obtain ⟨t, hfeed⟩ := bsFeed_answers (s := beginOp s) ht h hb hf hx
  obtain ⟨his, hlin, hclock⟩ := bsFeed_index_level_clock hfeed
  refine ⟨t, by rw [exec_bsFeed hp hx, hfeed, ofExcept_ok], his, hlin, ?_, ?_, bsFeed_frame (s := beginOp s) hfeed⟩
  · exact hclock.imp_left fun hc => hc.1
  · intro hv
    rcases hclock with ⟨-, hno⟩ | h0
    · exact nomatch hno.symm.trans hv
    · exact h0

end Sys2Proof.Machine
end

section
/-! PROOFS. FSM_BYTE of the host in HeadLost, Text, Crc1 and Crc2 (42_frame_fsm.md R118, R121 to R123), and the order of
the frame machine's states (R127). -/

namespace Sys2Proof.Machine

open Sys2Proof.Safety

variable {s t : State} {b : Int} {v : Byte} {r : FsmResult} {f : Fault}
  {rule : Byte → State → Except Fault (FsmResult × State)}

/-! ### The operation of the host (R116, R146) -/

/-- FSM_BYTE of a u8 in RUN is the state's rule, with its result put out (R116). -/
theorem fsmOperation_eq (rule : Byte → State → Except Fault (FsmResult × State)) (hp : s.phase = .run) (h0 : 0 ≤ b)
    (h1 : b < 256) :
    fsmOperation rule b s =
      ofExcept ((rule (BitVec.ofInt 8 b) (beginOp s)).map fun p => setResult (.fsm p.1.toInt) p.2) := by
  rw [fsmOperation, runOnly_run hp, operandU8_ok (isU8_iff.2 ⟨h0, h1⟩), withOperand_ok]

theorem fsmOperation_next (hp : s.phase = .run) (h0 : 0 ≤ b) (h1 : b < 256)
    (h : rule (BitVec.ofInt 8 b) (beginOp s) = .ok (r, t)) :
    fsmOperation rule b s = .next (setResult (.fsm r.toInt) t) := by
  rw [fsmOperation_eq rule hp h0 h1, h]
  rfl

theorem fsmOperation_fault (hp : s.phase = .run) (h0 : 0 ≤ b) (h1 : b < 256)
    (h : rule (BitVec.ofInt 8 b) (beginOp s) = .error f) : fsmOperation rule b s = .fault f := by
  rw [fsmOperation_eq rule hp h0 h1, h]
  rfl

/-- A u8 operand names a byte by the byte's value (R9). -/
theorem ofInt_eq_iff (h0 : 0 ≤ b) (h1 : b < 256) : BitVec.ofInt 8 b = v ↔ b = v.toNat := by
  have hval := toNat_ofInt_u8 (isU8_iff.2 ⟨h0, h1⟩)
  rw [← BitVec.toNat_inj]
  omega

/-- The two terminators with their parity bits: `odd(ETX)` and `odd(ETB)` (R69, R121). -/
theorem isTerminator_iff : isTerminator v = true ↔ v = 0x83#8 ∨ v = 0x97#8 := by
  have hetx : oddByte chETX = 0x83#8 := by decide
  have hetb : oddByte chETB = 0x97#8 := by decide
  simp [isTerminator, hetx, hetb]

/-- A rule that pushes its byte first faults on a full buffer (R43). -/
theorem push_full {k : State → Except Fault (FsmResult × State)} (h : s.fsm.raw.length = RAW_CAP) :
    (pushRaw v s >>= k) = .error .rawOverflow := by
  rw [pushRaw_full h]
  rfl

/-! ### The return to HeadLost (R117), with the outputs of the operation -/

theorem goHeadLost_pushed (v : Byte) (s : State) : goHeadLost (pushed v s) = goHeadLost s := rfl

theorem raiseEvent_goHeadLost (e : Event) (s : State) : raiseEvent e (goHeadLost s) = goHeadLost (raiseEvent e s) := rfl

theorem setResult_goHeadLost (o : OpResult) (s : State) : setResult o (goHeadLost s) = goHeadLost (setResult o s) := rfl

/-- The statements' word for the machine back in HeadLost is GO_HEADLOST with `crc_err` written. -/
theorem headLost_eq (s : State) (c : Bool) : headLost s c = goHeadLost (setCrcErr c s) := rfl

theorem headLost_crcErr (s : State) : headLost s s.fsm.crcErr = goHeadLost s := rfl

theorem opOutputs_event (s : State) (e : Event) (o : OpResult) :
    opOutputs s none [e] (some o) = setResult o (raiseEvent e (beginOp s)) := rfl

theorem opOutputs_frame (s : State) (bytes : List Byte) (flag : Bool) (e : Event) (o : OpResult) :
    opOutputs s (some { bytes := bytes, len := bytes.length, crcCorrected := flag }) [e] (some o) =
      setResult o (raiseEvent e (emitFrame bytes flag (beginOp s))) := rfl

/-- A byte given up for HeadLost with one event, `crc_err` kept (R117, R121). -/
theorem givenUp_eq (e : Event) (o : OpResult) (s : State) :
    setResult o (raiseEvent e (goHeadLost (beginOp s))) = headLost (opOutputs s none [e] (some o)) s.fsm.crcErr := by
  rw [raiseEvent_goHeadLost, setResult_goHeadLost, ← opOutputs_event]
  exact (headLost_crcErr _).symm

/-! ### The states -/

/-- Settles O43: the three branches of HeadLost. -/
theorem headLostCountsPrekey : Obligations.HeadLostCountsPrekey := by
  intro s b hp h0 h1
  obtain ⟨⟨r, t⟩, hrule⟩ := fsmHeadLost_answers (BitVec.ofInt 8 b) (beginOp s)
  have hexec : exec (.fsmByteHeadLost b) s = .next (setResult (.fsm r.toInt) t) := fsmOperation_next hp h0 h1 hrule
  have hbyte : BitVec.ofInt 8 b = PREKEY_BYTE ↔ b = 255 := ofInt_eq_iff h0 h1
  obtain ⟨rfl, ⟨hb, hn, rfl⟩ | ⟨hb, hn, rfl⟩ | ⟨hb, rfl⟩⟩ := fsmHeadLost_cases hrule
  · have hbelow : ¬24 < s.fsm.consecutivePrekey + 1 := Nat.not_lt.2 hn
    rw [hexec, if_pos (hbyte.1 hb), if_neg hbelow]
    rfl
  · have habove : 24 < s.fsm.consecutivePrekey + 1 := hn
    rw [hexec, if_pos (hbyte.1 hb), if_pos habove]
    rfl
  · rw [hexec, if_neg (hbyte.not.1 hb)]
    rfl

/-- Settles O46: the overflow test, the terminator test, and the push into a full buffer. -/
theorem textAppendsUntilTerminator : Obligations.TextAppendsUntilTerminator := by
  intro s b hp h0 h1
  refine ⟨fun hroom => ?_, fun hfull => fsmOperation_fault hp h0 h1 (push_full hfull)⟩
  obtain ⟨⟨r, t⟩, hrule⟩ := fsmText_answers (s := beginOp s) (b := BitVec.ofInt 8 b) hroom
  have hexec : exec (.fsmByteText b) s = .next (setResult (.fsm r.toInt) t) := fsmOperation_next hp h0 h1 hrule
  have hterm : isTerminator (BitVec.ofInt 8 b) = true ↔ b = 0x83 ∨ b = 0x97 :=
    isTerminator_iff.trans (or_congr (ofInt_eq_iff h0 h1) (ofInt_eq_iff h0 h1))
  obtain ⟨-, rfl, ⟨hlen, rfl⟩ | ⟨hlen, hb, rfl⟩ | ⟨hlen, hb, rfl⟩⟩ := fsmText_cases hrule
  · have hover : 244 < s.fsm.raw.length := hlen
    rw [hexec, if_pos hover, goHeadLost_pushed]
    exact congrArg _ (givenUp_eq .textOverflow (.fsm 8) s)
  · have hfits : ¬244 < s.fsm.raw.length := Nat.not_lt.2 hlen
    rw [hexec, if_neg hfits, if_pos (hterm.1 hb)]
    rfl
  · have hfits : ¬244 < s.fsm.raw.length := Nat.not_lt.2 hlen
    rw [hexec, if_neg hfits, if_neg (hterm.not.1 (ne_true_of_eq_false hb))]
    rfl

/-- Settles O47: Crc1 pushes its byte, or faults on a full buffer. -/
theorem firstCrcByteIsAppended : Obligations.FirstCrcByteIsAppended := by
  intro s b hp h0 h1
  refine ⟨fun hroom => ?_, fun hfull => fsmOperation_fault hp h0 h1 (push_full hfull)⟩
  obtain ⟨⟨r, t⟩, hrule⟩ := fsmCrc1_answers (s := beginOp s) (b := BitVec.ofInt 8 b) hroom
  obtain ⟨-, rfl, rfl⟩ := fsmCrc1_cases hrule
  exact fsmOperation_next hp h0 h1 hrule

/-- Settles O48: Crc2 pushes its byte, or faults on a full buffer. -/
theorem secondCrcByteIsAppended : Obligations.SecondCrcByteIsAppended := by
  intro s b hp h0 h1
  refine ⟨fun hroom => ?_, fun hfull => fsmOperation_fault hp h0 h1 (push_full hfull)⟩
  obtain ⟨⟨r, t⟩, hrule⟩ := fsmCrc2_answers (s := beginOp s) (b := BitVec.ofInt 8 b) hroom
  obtain ⟨-, rfl, rfl⟩ := fsmCrc2_cases hrule
  exact fsmOperation_next hp h0 h1 hrule

/-! ### The order of the states (R127) -/

/-- HeadLost stays or goes to HeadFound (R118). -/
theorem fsmHeadLost_tag (h : fsmHeadLost v s = .ok (r, t)) :
    t.fsm.state = s.fsm.state ∨ t.fsm.state = stHeadFound := by
  obtain ⟨-, ⟨-, -, rfl⟩ | ⟨-, -, rfl⟩ | ⟨-, rfl⟩⟩ := fsmHeadLost_cases h
  · exact .inl rfl
  · exact .inr rfl
  · exact .inl rfl

/-- Sync stays, finds its word, or gives up (R120). -/
theorem fsmSync_tag (h : fsmSync v s = .ok (r, t)) :
    t.fsm.state = s.fsm.state ∨ t.fsm.state = stText ∨ t.fsm.state = stHeadLost := by
  obtain ⟨-, ⟨w, rfl⟩, -⟩ | ⟨k, w, -, -, -, -, -, rfl | ⟨-, rfl⟩⟩ := syncScan_cases le_rfl h
  · exact .inl rfl
  · exact .inr (.inl rfl)
  · exact .inr (.inr rfl)

/-- HeadFound stays, or goes where Sync goes (R119). -/
theorem fsmHeadFound_tag (h : fsmHeadFound v s = .ok (r, t)) :
    t.fsm.state = s.fsm.state ∨ t.fsm.state = stSync ∨ t.fsm.state = stText ∨ t.fsm.state = stHeadLost := by
  obtain ⟨-, -, rfl⟩ | ⟨-, hsync⟩ := fsmHeadFound_cases h
  · exact .inl rfl
  · exact .inr (fsmSync_tag hsync)

/-- End always goes to HeadLost (R124). -/
theorem fsmEnd_tag (h : fsmEnd v s = .ok (r, t)) : t.fsm.state = stHeadLost := by
  obtain ⟨-, -, rfl⟩ | ⟨-, ⟨bytes, -, -, rfl⟩ | ⟨-, -, rfl⟩⟩ := fsmEnd_cases h
  · rfl
  · rfl
  · rfl

/-- What R127 says of one FSM_BYTE from `s` to `t`: which state each of Crc1, Crc2 and End is entered from, and the
byte Crc1 and Crc2 take. -/
def TrailerOrder (s t : State) (v : Byte) (r : FsmResult) : Prop :=
  (t.fsm.state = 6#3 ↔ s.fsm.state = 5#3) ∧ (t.fsm.state = 5#3 ↔ s.fsm.state = 4#3) ∧
    (t.fsm.state = 4#3 ↔ s.fsm.state = 3#3 ∧ s.fsm.raw.length ≤ 244 ∧ (v = 0x83#8 ∨ v = 0x97#8)) ∧
    (s.fsm.state = 4#3 ∨ s.fsm.state = 5#3 → r = .consumed 8 ∧ t.fsm.raw = s.fsm.raw ++ [v])

/-- A step that neither starts in Text, Crc1 or Crc2 nor ends in Crc1, Crc2 or End keeps the order. -/
theorem trailerOrder_of_outside (hs : s.fsm.state ∉ [stText, stCrc1, stCrc2])
    (ht : t.fsm.state ∉ [stCrc1, stCrc2, stEnd]) : TrailerOrder s t v r := by
  simp only [List.mem_cons, List.not_mem_nil, or_false, not_or] at hs ht
  obtain ⟨hs3, hs4, hs5⟩ := hs
  obtain ⟨ht4, ht5, ht6⟩ := ht
  exact ⟨iff_of_false ht6 hs5, iff_of_false ht5 hs4, iff_of_false ht4 fun hc => hs3 hc.1,
    fun hc => hc.elim (absurd · hs4) (absurd · hs5)⟩

theorem trailerOrder_fsmText (hs : s.fsm.state = stText) (hf : fsmText v s = .ok (r, t)) : TrailerOrder s t v r := by
  obtain ⟨-, -, ⟨hlen, rfl⟩ | ⟨hlen, hb, rfl⟩ | ⟨-, hb, rfl⟩⟩ := fsmText_cases hf
  · have hlong : ¬s.fsm.raw.length ≤ 244 := Nat.not_le.2 hlen
    simp [TrailerOrder, hs, hlong, stHeadLost, stText]
  · have hshort : s.fsm.raw.length ≤ 244 := hlen
    simp [TrailerOrder, hs, hshort, isTerminator_iff.1 hb, stCrc1, stText]
  · have hother : ¬(v = 0x83#8 ∨ v = 0x97#8) := isTerminator_iff.not.1 (ne_true_of_eq_false hb)
    simp [TrailerOrder, hs, hother, pushed, stText]

/-- Settles O52: the states before Text and End lead outside Crc1, Crc2 and End; Text, Crc1 and Crc2 lead on. -/
theorem endOnlyAfterTerminatorAndTwoBytes : Obligations.EndOnlyAfterTerminatorAndTwoBytes := by
  intro s t b r h
  show TrailerOrder s t b r
  rcases fsmByte_cases h with ⟨hs, hf⟩ | ⟨hs, hf⟩ | ⟨hs, hf⟩ | ⟨hs, hf⟩ | ⟨hs, hf⟩ | ⟨hs, hf⟩ | ⟨hs, hf⟩
  · refine trailerOrder_of_outside (by rw [hs]; decide) ?_
    rcases fsmHeadLost_tag hf with ht | ht <;> simp only [ht, hs] <;> decide
  · refine trailerOrder_of_outside (by rw [hs]; decide) ?_
    rcases fsmHeadFound_tag hf with ht | ht | ht | ht <;> simp only [ht, hs] <;> decide
  · refine trailerOrder_of_outside (by rw [hs]; decide) ?_
    rcases fsmSync_tag hf with ht | ht | ht <;> simp only [ht, hs] <;> decide
  · exact trailerOrder_fsmText hs hf
  · obtain ⟨-, rfl, rfl⟩ := fsmCrc1_cases hf
    simp [TrailerOrder, hs, pushed, stCrc1, stCrc2]
  · obtain ⟨-, rfl, rfl⟩ := fsmCrc2_cases hf
    simp [TrailerOrder, hs, pushed, stCrc2, stEnd]
  · exact trailerOrder_of_outside (by rw [hs]; decide) (by rw [fsmEnd_tag hf]; decide)

end Sys2Proof.Machine
end

section
/-! PROOFS. FSM_BYTE in Sync and HeadFound (42_frame_fsm.md R119, R120, R164). -/

namespace Sys2Proof.Machine

open Sys2Proof.Safety

variable {s : State} {b : Byte} {w : Word40} {held j k : Nat}

/-! ### The word after `k` bits of a byte (R120) -/

/-- A bit of the window is a bit of the held word, or of the byte above it. -/
theorem getLsbD_syncWindow (b : Byte) (w : Word40) (k : Nat) {i : Nat} (hi : i < 40) :
    (syncWindow b w k).getLsbD i = if k + i < 40 then w.getLsbD (k + i) else b.getLsbD (k + i - 40) := by
  rw [syncWindow, BitVec.getLsbD_extractLsb', BitVec.getLsbD_append]
  simp [hi]

/-- Before the first bit the window is the held word. -/
theorem syncWindow_zero (b : Byte) (w : Word40) : syncWindow b w 0 = w := by
  apply BitVec.eq_of_getLsbD_eq
  intro i hi
  rw [getLsbD_syncWindow b w 0 hi, Nat.zero_add, if_pos hi]

/-- With one more bit the window moves up by one: bit `k` of the byte enters at bit 39, the others move down. -/
theorem syncWindow_succ (w : Word40) (hk : k < 8) :
    (syncWindow b w k >>> 1) ||| ((BitVec.ofBool (b.getLsbD k)).zeroExtend 40 <<< 39) = syncWindow b w (k + 1) := by
  apply BitVec.eq_of_getLsbD_eq
  intro i hi
  rw [BitVec.getLsbD_or, BitVec.getLsbD_ushiftRight, getLsbD_syncWindow b w (k + 1) hi]
  by_cases hlast : i = 39
  · subst hlast
    have hbyte : ¬k + 1 + 39 < 40 := by omega
    have hidx : k + 1 + 39 - 40 = k := by omega
    rw [if_neg hbyte, hidx]
    simp
  · have hin : 1 + i < 40 := by omega
    have hsum : k + (1 + i) = k + 1 + i := by omega
    have hlow : i < 39 := by omega
    rw [getLsbD_syncWindow b w k hin, hsum]
    simp [BitVec.getLsbD_shiftLeft, hlow]

/-- The statements' match is the machine's: enough bits held, and few enough of them wrong (R70, R120). -/
theorem syncHit_iff :
    syncHit b w held k ↔ SYNC_BITS ≤ held + k ∧ syncDistance (syncWindow b w k) ≤ SYNC_TOL := by
  have hword : SYNC_CHECK = 0x0116162AAB#40 := by decide
  rw [syncDistance, hword]
  rfl

/-! ### The loop of Sync -/

/-- Sync after `k` bits of the byte, when none of them ended it. -/
def syncAfter (b : Byte) (k : Nat) (s : State) : State := syncTaken (syncWindow b s.fsm.syncForming k) k s

theorem syncAfter_zero (b : Byte) (s : State) : syncAfter b 0 s = s := by
  rw [syncAfter, syncWindow_zero]
  rfl

theorem syncShift_syncAfter (s : State) (hk : k < 8) :
    syncShift (b.getLsbD k) (syncAfter b k s) = syncAfter b (k + 1) s := by
  have hword := syncWindow_succ (b := b) s.fsm.syncForming hk
  simp only [syncAfter, ← hword]
  rfl

/-- The next bit of Sync: a match, the limit, or one bit more (R120). -/
theorem syncScan_syncAfter (b : Byte) (s : State) (hj : j < 8) :
    syncScan b (8 - j) (syncAfter b j s) =
      if SYNC_BITS ≤ s.fsm.syncBitsHave + (j + 1) ∧
          syncDistance (syncWindow b s.fsm.syncForming (j + 1)) ≤ SYNC_TOL then
        .ok (.consumed (j + 1), raiseEvent .syncFound
          { syncAfter b (j + 1) s with
            fsm := { (syncAfter b (j + 1) s).fsm with state := stText, raw := [oddByte chSOH] } })
      else if SYNC_BITS ≤ s.fsm.syncBitsHave + (j + 1) ∧ SYNC_MAX ≤ s.fsm.syncBitsHave + (j + 1) then
        .ok (.consumed (j + 1), raiseEvent .syncTimeout (goHeadLost (syncAfter b (j + 1) s)))
      else syncScan b (8 - (j + 1)) (syncAfter b (j + 1) s) := by
  obtain ⟨n, hn⟩ : ∃ n, 8 - j = n + 1 := ⟨7 - j, by omega⟩
  have hbit : 7 - n = j := by omega
  have hrest : 8 - (j + 1) = n := by omega
  rw [hn, hrest, syncScan_succ, hbit, syncShift_syncAfter s hj]
  rfl

/-- None of the first `j` bits of the byte ends Sync: no match and not the limit (R120). -/
def SyncGoesOn (b : Byte) (w : Word40) (held j : Nat) : Prop :=
  ∀ k, 1 ≤ k → k ≤ j → ¬syncHit b w held k ∧ held + k < 55

/-- Sync comes to the next bit when none before ended it. -/
theorem fsmSync_goesOn (hj : j ≤ 8) (h : SyncGoesOn b s.fsm.syncForming s.fsm.syncBitsHave j) :
    fsmSync b s = syncScan b (8 - j) (syncAfter b j s) := by
  induction j with
  | zero => rw [syncAfter_zero]; rfl
  | succ j ih =>
    obtain ⟨hmiss, hlim⟩ := h (j + 1) (Nat.succ_pos j) le_rfl
    have hbelow : ¬(SYNC_BITS ≤ s.fsm.syncBitsHave + (j + 1) ∧ SYNC_MAX ≤ s.fsm.syncBitsHave + (j + 1)) :=
      fun hx => Nat.not_lt.2 hx.2 hlim
    rw [ih (Nat.le_of_succ_le hj) fun k h1 h2 => h k h1 (Nat.le_succ_of_le h2), syncScan_syncAfter b s hj,
      if_neg (syncHit_iff.not.1 hmiss), if_neg hbelow]

/-- The first match ends in Text with `odd(SOH)` as the only raw byte (R120). -/
theorem fsmSync_match (hj : j < 8) (h : SyncGoesOn b s.fsm.syncForming s.fsm.syncBitsHave j)
    (hhit : syncHit b s.fsm.syncForming s.fsm.syncBitsHave (j + 1)) :
    fsmSync b s = .ok (.consumed (j + 1), raiseEvent .syncFound
      { syncAfter b (j + 1) s with
        fsm := { (syncAfter b (j + 1) s).fsm with state := stText, raw := [oddByte chSOH] } }) := by
  rw [fsmSync_goesOn hj.le h, syncScan_syncAfter b s hj, if_pos (syncHit_iff.1 hhit)]

/-- The 55th bit without a match ends in HeadLost (R120). -/
theorem fsmSync_timeout (hj : j < 8) (h : SyncGoesOn b s.fsm.syncForming s.fsm.syncBitsHave j)
    (hmiss : ¬syncHit b s.fsm.syncForming s.fsm.syncBitsHave (j + 1)) (hmax : 55 ≤ s.fsm.syncBitsHave + (j + 1)) :
    fsmSync b s = .ok (.consumed (j + 1), raiseEvent .syncTimeout (goHeadLost (syncAfter b (j + 1) s))) := by
  have hlimit : SYNC_BITS ≤ s.fsm.syncBitsHave + (j + 1) ∧ SYNC_MAX ≤ s.fsm.syncBitsHave + (j + 1) :=
    ⟨le_trans (by decide) hmax, hmax⟩
  rw [fsmSync_goesOn hj.le h, syncScan_syncAfter b s hj, if_neg (syncHit_iff.not.1 hmiss), if_pos hlimit]

/-- A byte that does not end Sync is taken whole (R120). -/
theorem fsmSync_whole (h : SyncGoesOn b s.fsm.syncForming s.fsm.syncBitsHave 8) :
    fsmSync b s = .ok (.consumed 8, syncAfter b 8 s) := fsmSync_goesOn le_rfl h

/-- The outputs of a timeout, set on the state Sync has come to (R117, R120). -/
theorem timedOut_eq (w : Word40) (k : Nat) (e : Event) (o : OpResult) (s : State) :
    setResult o (raiseEvent e (goHeadLost (syncTaken w k (beginOp s)))) =
      goHeadLost (syncTaken w k (opOutputs s none [e] (some o))) := by
  rw [raiseEvent_goHeadLost, setResult_goHeadLost, opOutputs_event]
  rfl

/-! ### The statements -/

/-- Settles O45: the three ends of the loop, each reached after the bits that did not end it. -/
theorem syncTakesBitsOldestFirst : Obligations.SyncTakesBitsOldestFirst := by
  intro s b hp h0 h1 byte w held
  refine ⟨fun j hj hon hhit => ?_, fun j hj hon hmiss hmax => ?_, fun hon => ?_⟩
  · exact fsmOperation_next hp h0 h1 (fsmSync_match (s := beginOp s) hj hon hhit)
  · have hexec : exec (.fsmByteSync b) s = _ :=
      fsmOperation_next hp h0 h1 (fsmSync_timeout (s := beginOp s) hj hon hmiss hmax)
    rw [hexec, syncAfter, timedOut_eq]
    rfl
  · exact fsmOperation_next hp h0 h1 (fsmSync_whole (s := beginOp s) hon)

/-- The first byte in a cleared sync register is held in its top 8 bits (R120, R164). -/
theorem syncWindow_cleared {n : Int} (h0 : 0 ≤ n) :
    syncWindow (BitVec.ofInt 8 n) 0#40 8 = BitVec.ofInt 40 n <<< 32 := by
  apply BitVec.eq_of_getLsbD_eq
  intro i hi
  lift n to Nat using h0
  have hidx : 8 + i - 40 = i - 32 := by omega
  rw [getLsbD_syncWindow _ _ _ hi, hidx, BitVec.ofInt_natCast, BitVec.ofInt_natCast]
  by_cases hlow : i < 32
  · have hheld : 8 + i < 40 := by omega
    simp [hheld, hlow]
  · have hbyte : ¬8 + i < 40 := by omega
    have htop : i - 32 < 8 := by omega
    have hsame : (BitVec.ofNat 8 n).getLsbD (i - 32) = (BitVec.ofNat 40 n).getLsbD (i - 32) := by
      rw [BitVec.getLsbD_ofNat, BitVec.getLsbD_ofNat, decide_eq_true htop, decide_eq_true (htop.trans (by decide))]
    rw [if_neg hbyte, hsame, BitVec.getLsbD_shiftLeft, decide_eq_true hi, decide_eq_false hlow]
    rfl

/-- Eight bits in a cleared register are too few for a match or the limit (R120). -/
theorem syncGoesOn_cleared (b : Byte) (w : Word40) : SyncGoesOn b w 0 8 := by
  intro k _ hk
  exact ⟨fun hhit => by have := hhit.1; omega, by omega⟩

/-- Settles O44: the byte that ends the pre-key is the first of Sync, whose registers are cleared. -/
theorem headFoundHandsByteToSync : Obligations.HeadFoundHandsByteToSync := by
  intro s b hp h0 h1
  obtain ⟨⟨r, t⟩, hrule⟩ := fsmHeadFound_answers (BitVec.ofInt 8 b) (beginOp s)
  have hexec : exec (.fsmByteHeadFound b) s = .next (setResult (.fsm r.toInt) t) := fsmOperation_next hp h0 h1 hrule
  have hbyte : BitVec.ofInt 8 b = PREKEY_BYTE ↔ b = 255 := ofInt_eq_iff h0 h1
  obtain ⟨hb, rfl, rfl⟩ | ⟨hb, hsync⟩ := fsmHeadFound_cases hrule
  · rw [hexec, if_pos (hbyte.1 hb)]
    rfl
  · cases hsync.symm.trans (fsmSync_whole (s := enterSync (beginOp s)) (syncGoesOn_cleared _ _))
    rw [hexec, if_neg (hbyte.not.1 hb), ← syncWindow_cleared h0]
    rfl

end Sys2Proof.Machine
end

section
/-! PROOFS. FSM_BYTE in End (42_frame_fsm.md R124, R125). -/

namespace Sys2Proof

/-- A scan of the numbers below `n` stops at the first that answers. -/
theorem findSome?_range_first {α : Type} {f : Nat → Option α} {n i : Nat} {a : α} (hi : i < n) (hf : f i = some a)
    (hbefore : ∀ k < i, f k = none) : (List.range n).findSome? f = some a := by
  obtain ⟨m, rfl⟩ := Nat.exists_eq_add_of_lt hi
  have hnone : (List.range i).findSome? f = none :=
    List.findSome?_eq_none_iff.2 fun k hk => hbefore k (List.mem_range.1 hk)
  rw [Nat.add_assoc, List.range_add, List.findSome?_append, hnone, Option.none_or, List.range_succ_eq_map,
    List.map_cons, List.findSome?_cons, Nat.add_zero, hf]

end Sys2Proof

namespace Sys2Proof.Machine

open Sys2Proof.Safety

variable {s : State} {b : Int} {raw : List Byte} {i j : Nat}

/-- The scan of R124 stops at the first flip, byte index outer and bit index inner, whose CRC is zero. -/
theorem firstCorrection_first (hi : i < raw.length) (hj : j < 8) (hzero : crcGen (flipBit raw i j) = 0#16)
    (hbefore : ∀ i' j', i' < raw.length → j' < 8 → i' < i ∨ i' = i ∧ j' < j → crcGen (flipBit raw i' j') ≠ 0#16) :
    firstCorrection raw = some (flipBit raw i j) := by
  refine findSome?_range_first hi (findSome?_range_first hj (if_pos hzero) fun k hk => ?_) fun k hk => ?_
  · exact if_neg (hbefore i k hi (hk.trans hj) (.inr ⟨rfl, hk⟩))
  · refine List.findSome?_eq_none_iff.2 fun l hl => if_neg ?_
    exact hbefore k l (hk.trans hi) (List.mem_range.1 hl) (.inl hk)

/-- The scan of R124 finds nothing when no flip makes the CRC zero. -/
theorem firstCorrection_none (h : ∀ i j, i < raw.length → j < 8 → crcGen (flipBit raw i j) ≠ 0#16) :
    firstCorrection raw = none := by
  refine List.findSome?_eq_none_iff.2 fun i hi => List.findSome?_eq_none_iff.2 fun j hj => if_neg ?_
  exact h i j (List.mem_range.1 hi) (List.mem_range.1 hj)

theorem fsmEnd_zero (v : Byte) (h : crcGen s.fsm.raw = 0#16) :
    fsmEnd v s = .ok (.accepted, acceptFrame s.fsm.raw false (setCrcErr false s)) := if_pos h

theorem fsmEnd_corrected (v : Byte) {bytes : List Byte} (h : crcGen s.fsm.raw ≠ 0#16)
    (hfix : firstCorrection s.fsm.raw = some bytes) :
    fsmEnd v s = .ok (.accepted, acceptFrame bytes true (setCrcErr true s)) := by
  rw [fsmEnd, if_neg h, hfix]

theorem fsmEnd_dropped (v : Byte) (h : crcGen s.fsm.raw ≠ 0#16) (hfix : firstCorrection s.fsm.raw = none) :
    fsmEnd v s = .ok (.consumed 8, goHeadLost (raiseEvent .crcFail (setCrcErr true s))) := by
  rw [fsmEnd, if_neg h, hfix]

/-- The outputs of an accepted frame, in the statements' words (R124, R125). -/
theorem accepted_eq (bytes : List Byte) (corrected c : Bool) (o : OpResult) (s : State) :
    setResult o (acceptFrame bytes corrected (setCrcErr c (beginOp s))) =
      headLost (opOutputs s (some { bytes := bytes, len := bytes.length, crcCorrected := corrected })
        [if corrected then .frameCorrected else .frameAccepted] (some o)) c := by
  rw [opOutputs_frame, acceptFrame, setResult_goHeadLost, headLost_eq]
  rfl

/-- The outputs of a dropped frame, in the statements' words (R124). -/
theorem dropped_eq (e : Event) (o : OpResult) (c : Bool) (s : State) :
    setResult o (goHeadLost (raiseEvent e (setCrcErr c (beginOp s)))) =
      headLost (opOutputs s none [e] (some o)) c := by
  rw [opOutputs_event, setResult_goHeadLost, headLost_eq]
  rfl

/-- End with a first flip that gives a zero CRC emits the flipped frame (R124). -/
theorem exec_fsmByteEnd_corrected (hp : s.phase = .run) (h0 : 0 ≤ b) (h1 : b < 256) (hbad : crcGen s.fsm.raw ≠ 0#16)
    (hi : i < s.fsm.raw.length) (hj : j < 8) (hfix : crcGen (flipBit s.fsm.raw i j) = 0#16)
    (hbefore : ∀ i' j', i' < s.fsm.raw.length → j' < 8 → i' < i ∨ i' = i ∧ j' < j →
      crcGen (flipBit s.fsm.raw i' j') ≠ 0#16) :
    exec (.fsmByteEnd b) s =
      .next (headLost (opOutputs s
        (some { bytes := flipBit s.fsm.raw i j, len := (flipBit s.fsm.raw i j).length, crcCorrected := true })
        [.frameCorrected] (some (.fsm (-1)))) true) := by
  have hscan := firstCorrection_first hi hj hfix hbefore
  have hexec : exec (.fsmByteEnd b) s = _ :=
    fsmOperation_next hp h0 h1 (fsmEnd_corrected (s := beginOp s) _ hbad hscan)
  rw [hexec]
  exact congrArg _ (accepted_eq _ true true _ s)

/-- Settles O49: a zero CRC, the first flip that gives one, or none. -/
theorem endJudgesTheFrame : Obligations.EndJudgesTheFrame := by
  intro s b hp h0 h1 raw flip
  refine ⟨fun hzero => ?_, fun i j hbad hi hj hfix hbefore => ?_, fun hbad hnone => ?_⟩
  · have hexec : exec (.fsmByteEnd b) s = _ := fsmOperation_next hp h0 h1 (fsmEnd_zero (s := beginOp s) _ hzero)
    rw [hexec]
    exact congrArg _ (accepted_eq raw false false _ s)
  · have hlen : raw.length = (flip i j).length := (flipBit_length raw i j).symm
    rw [hlen]
    exact exec_fsmByteEnd_corrected hp h0 h1 hbad hi hj hfix hbefore
  · have hexec : exec (.fsmByteEnd b) s = _ :=
      fsmOperation_next hp h0 h1 (fsmEnd_dropped (s := beginOp s) _ hbad (firstCorrection_none hnone))
    rw [hexec]
    exact congrArg _ (dropped_eq .crcFail _ true s)

end Sys2Proof.Machine
end

section
/-! PROOFS. What a flipped bit does to the CRC register (43_crc.md R131, R135, R142): the register gains the table step
applied to 1, once for each bit from the flipped one to the end of the frame. The step keeps the parity of a word and
does not come back to 1 within as many steps as a frame of 247 bytes has bits. -/

namespace Sys2Proof

variable {c : Word16} {raw : List Byte} {i j i' j' n m : Nat}

/-! ### The table step -/

theorem crcTabSteps_eq_iterate (n : Nat) : crcTabSteps n = crcTabStep^[n] := by
  funext c
  induction n generalizing c with
  | zero => rfl
  | succ n ih => rw [crcTabSteps, ih, Function.iterate_succ_apply]

theorem crcTabSteps_add (m n : Nat) (c : Word16) : crcTabSteps (m + n) c = crcTabSteps m (crcTabSteps n c) := by
  simp only [crcTabSteps_eq_iterate, Function.iterate_add_apply]

/-- Only 0 steps to 0: where the polynomial is added, bit 0 is set. -/
theorem eq_zero_of_crcTabStep (h : crcTabStep c = 0#16) : c = 0#16 := by
  unfold crcTabStep at h
  split at h
  · have hbit := congrArg (fun v : Word16 => v.getLsbD 0) h
    simp [CRC_POLY] at hbit
  · next htop =>
    apply BitVec.eq_of_getLsbD_eq
    intro k hk
    by_cases hlast : k = 15
    · subst hlast; simpa using htop
    · have hin : k + 1 < 16 := by omega
      have hbit : (c <<< 1).getLsbD (k + 1) = false := by rw [h, BitVec.getLsbD_zero]
      rw [BitVec.getLsbD_zero]
      rwa [BitVec.getLsbD_shiftLeft, decide_eq_true hin, Nat.add_sub_cancel, decide_eq_false (by omega)] at hbit

theorem crcTabStep_injective : Function.Injective crcTabStep := by
  intro c d h
  have hdiff : crcTabStep (c ^^^ d) = 0#16 := by rw [crcTabStep_xor, h, BitVec.xor_self]
  exact BitVec.xor_eq_zero_iff.1 (eq_zero_of_crcTabStep hdiff)

/-! ### Parity -/

theorem countP_xor (p q : Nat → Bool) (l : List Nat) :
    (l.countP fun k => p k ^^ q k) % 2 = (l.countP p + l.countP q) % 2 := by
  induction l with
  | nil => rfl
  | cons k l ih =>
    simp only [List.countP_cons]
    cases p k <;> cases q k <;> simp <;> omega

theorem popcount_xor {w : Nat} (u v : BitVec w) : popcount (u ^^^ v) % 2 = (popcount u + popcount v) % 2 := by
  simp only [popcount, BitVec.getLsbD_xor]
  exact countP_xor _ _ _

/-- A shift by one loses the top bit and nothing else. -/
theorem popcount_shiftLeft_one {w : Nat} (v : BitVec (w + 1)) :
    popcount v = popcount (v <<< 1) + (v.getLsbD w).toNat := by
  have hmoved : (List.range w).countP ((fun k => (v <<< 1).getLsbD k) ∘ Nat.succ) =
      (List.range w).countP fun k => v.getLsbD k := by
    refine List.countP_congr fun k hk => ?_
    have hin : k < w := List.mem_range.1 hk
    simp [hin]
  have hshifted : popcount (v <<< 1) = (List.range w).countP fun k => v.getLsbD k := by
    rw [popcount, List.range_succ_eq_map, List.countP_cons, List.countP_map, hmoved]
    simp
  rw [hshifted, popcount, List.range_succ, List.countP_append, List.countP_singleton]
  cases v.getLsbD w <;> rfl

/-- The polynomial has one bit for the top bit it replaces and two more (R130), so a step keeps the parity. -/
theorem popcount_crcTabStep (c : Word16) : popcount (crcTabStep c) % 2 = popcount c % 2 := by
  have hpoly : popcount CRC_POLY = 3 := by decide
  have hshift := popcount_shiftLeft_one (w := 15) c
  unfold crcTabStep
  split
  · next htop =>
    rw [popcount_xor, hpoly, hshift, htop]
    simp only [Bool.toNat_true]
    omega
  · next htop =>
    rw [hshift, Bool.eq_false_of_not_eq_true htop]
    rfl

theorem popcount_crcTabSteps (n : Nat) (c : Word16) : popcount (crcTabSteps n c) % 2 = popcount c % 2 := by
  induction n generalizing c with
  | zero => rfl
  | succ n ih => rw [crcTabSteps, ih, popcount_crcTabStep]

/-! ### The period -/

/-- None of the next `n` steps from `c` gives 1. -/
def avoidsOne : Nat → Word16 → Bool
  | 0, _ => true
  | n + 1, c => crcTabStep c != 1#16 && avoidsOne n (crcTabStep c)

theorem crcTabSteps_ne_one (h : avoidsOne n c = true) (h1 : 1 ≤ m) (hm : m ≤ n) : crcTabSteps m c ≠ 1#16 := by
  induction n generalizing c m with
  | zero => omega
  | succ n ih =>
    obtain ⟨hfirst, hrest⟩ : crcTabStep c ≠ 1#16 ∧ avoidsOne n (crcTabStep c) = true := by
      simpa [avoidsOne] using h
    obtain ⟨m, rfl⟩ := Nat.exists_eq_succ_of_ne_zero (Nat.ne_of_gt h1)
    rcases Nat.eq_zero_or_pos m with rfl | hpos
    · exact hfirst
    · rw [crcTabSteps]
      exact ih hrest hpos (Nat.le_of_succ_le_succ hm)

/-- The step does not come back to 1 within the bits of 247 bytes (R43). -/
theorem avoidsOne_rawCap : avoidsOne (8 * RAW_CAP) 1#16 = true := by decide +kernel

/-- Two of the first powers of the step are different, when fewer steps apart than 247 bytes have bits. -/
theorem eq_of_crcTabSteps_eq (hmn : m ≤ n) (hn : n - m ≤ 8 * RAW_CAP) (h : crcTabSteps n 1#16 = crcTabSteps m 1#16) :
    n = m := by
  rw [crcTabSteps_eq_iterate, crcTabSteps_eq_iterate] at h
  by_contra hne
  have hback : crcTabSteps (n - m) 1#16 = 1#16 := by
    rw [crcTabSteps_eq_iterate]
    exact Function.iterate_cancel crcTabStep_injective h
  exact crcTabSteps_ne_one avoidsOne_rawCap (by omega) hn hback

/-! ### The register -/

/-- A byte in a word's low half comes to the high half in eight steps. -/
theorem crcTabSteps_low (b : Byte) : crcTabSteps 8 (b.zeroExtend 16) = b.zeroExtend 16 <<< 8 := by
  revert b
  decide +kernel

/-- A fold is eight steps from the register with the byte added at the top (R131, R135). -/
theorem crcFold_eq (c : Word16) (b : Byte) : crcFold c b = crcTabSteps 8 (c ^^^ b.zeroExtend 16 <<< 8) := by
  have hsplit : c ^^^ b.zeroExtend 16 <<< 8 =
      ((c.extractLsb' 8 8 ^^^ b).zeroExtend 16 <<< 8) ^^^ (c.extractLsb' 0 8).zeroExtend 16 := by
    apply BitVec.eq_of_getLsbD_eq
    intro k hk
    by_cases hlow : k < 8
    · simp [hk, hlow]
    · have hidx : 8 + (k - 8) = k := by omega
      have htop : k - 8 < 8 := by omega
      simp [hk, hlow, hidx, htop]
  have hlow : c <<< 8 = (c.extractLsb' 0 8).zeroExtend 16 <<< 8 := by
    apply BitVec.eq_of_getLsbD_eq
    intro k hk
    have htop : k - 8 < 8 := by omega
    have hin : k - 8 < 16 := by omega
    simp [hk, htop, BitVec.getLsbD_eq_getElem hin]
  rw [hsplit, crcTabSteps_xor, crcTabSteps_low, ← hlow, BitVec.xor_comm, crcFold, crcTab]

theorem crcFoldRev_eq (c : Word16) (b : Byte) :
    crcFoldRev c b = crcTabSteps 8 (c ^^^ (revByte b).zeroExtend 16 <<< 8) := crcFold_eq c (revByte b)

/-- A difference in the register moves on by eight steps a byte. -/
theorem foldl_crcFoldRev_xor (raw : List Byte) (c d : Word16) :
    raw.foldl crcFoldRev (c ^^^ d) = raw.foldl crcFoldRev c ^^^ crcTabSteps (8 * raw.length) d := by
  induction raw generalizing c d with
  | nil => rfl
  | cons b raw ih =>
    have hstep : crcFoldRev (c ^^^ d) b = crcFoldRev c b ^^^ crcTabSteps 8 d := by
      rw [crcFoldRev_eq, crcFoldRev_eq, ← crcTabSteps_xor]
      congr 1
      ac_rfl
    have hcount : 8 * (b :: raw).length = 8 * raw.length + 8 := by rw [List.length_cons]; omega
    rw [List.foldl_cons, List.foldl_cons, hstep, ih, hcount, crcTabSteps_add]

/-- Bit `j` of a byte enters the register at bit `15 - j` (R132, R135). -/
theorem revByte_bit (hj : j < 8) : (revByte (1#8 <<< j)).zeroExtend 16 <<< 8 = crcTabSteps (15 - j) 1#16 := by
  have hall : ∀ k : Fin 8, (revByte (1#8 <<< k.val)).zeroExtend 16 <<< 8 = crcTabSteps (15 - k.val) 1#16 := by
    decide +kernel
  exact hall ⟨j, hj⟩

/-- A flipped bit of a byte, as the register has it after that byte. -/
theorem crcFoldRev_bit (c : Word16) (b : Byte) (hj : j < 8) :
    crcFoldRev c (b ^^^ (1#8 <<< j)) = crcFoldRev c b ^^^ crcTabSteps (23 - j) 1#16 := by
  have hcount : 23 - j = 8 + (15 - j) := by omega
  calc crcFold c (revByte (b ^^^ (1#8 <<< j)))
      = crcFold (c ^^^ 0#16) (revByte b ^^^ revByte (1#8 <<< j)) := by rw [revByte_xor, BitVec.xor_zero]
    _ = crcFold c (revByte b) ^^^ crcFold 0#16 (revByte (1#8 <<< j)) := crcFold_xor _ _ _ _
    _ = crcFold c (revByte b) ^^^ crcTabSteps (23 - j) 1#16 := by
      rw [crcFold_eq 0#16, BitVec.zero_xor, revByte_bit hj, hcount, crcTabSteps_add]

/-! ### One bit of a frame -/

/-- The steps from bit `j` of byte `i` to the end of a frame of `len` bytes: 8 for each byte after it, and those inside
its own byte. -/
def flipSteps (len i j : Nat) : Nat := 8 * (len - 1 - i) + (23 - j)

/-- A flipped bit adds to the register the table step applied to 1, once for each of its steps to the end (R142). -/
theorem foldl_crcFoldRev_flipBit (hi : i < raw.length) (hj : j < 8) (c : Word16) :
    (flipBit raw i j).foldl crcFoldRev c = raw.foldl crcFoldRev c ^^^ crcTabSteps (flipSteps raw.length i j) 1#16 := by
  induction raw generalizing c i with
  | nil => exact absurd hi (Nat.not_lt_zero i)
  | cons b raw ih =>
    cases i with
    | zero =>
      show raw.foldl crcFoldRev (crcFoldRev c (b ^^^ (1#8 <<< j))) = _
      rw [crcFoldRev_bit c b hj, foldl_crcFoldRev_xor, ← crcTabSteps_add]
      rfl
    | succ i =>
      have hi' : i < raw.length := Nat.lt_of_succ_lt_succ hi
      have hsteps : flipSteps (b :: raw).length (i + 1) j = flipSteps raw.length i j := by
        simp only [flipSteps, List.length_cons]
        omega
      rw [hsteps]
      exact ih hi' (crcFoldRev c b)

theorem crcRegister_flipBit (hi : i < raw.length) (hj : j < 8) :
    crcRegister (flipBit raw i j) = crcRegister raw ^^^ crcTabSteps (flipSteps raw.length i j) 1#16 :=
  foldl_crcFoldRev_flipBit hi hj 0#16

/-- A flip changes the parity of the register (R130: the polynomial has an even number of terms). -/
theorem popcount_crcRegister_flipBit (hi : i < raw.length) (hj : j < 8) :
    popcount (crcRegister (flipBit raw i j)) % 2 = (popcount (crcRegister raw) + 1) % 2 := by
  have hone : popcount 1#16 = 1 := by decide
  rw [crcRegister_flipBit hi hj, popcount_xor, Nat.add_mod, popcount_crcTabSteps, hone, ← Nat.add_mod]

/-- Different bits of a frame that fits the raw buffer have different steps to its end, and fewer apart than the period
of the table step. -/
theorem flipSteps_inj {len : Nat} (hlen : len ≤ RAW_CAP) (hi : i < len) (hj : j < 8) (hi' : i' < len) (hj' : j' < 8)
    (h : crcTabSteps (flipSteps len i j) 1#16 = crcTabSteps (flipSteps len i' j') 1#16) : (i, j) = (i', j') := by
  have hnear : ∀ k l k' l', k < len → l < 8 → k' < len → l' < 8 →
      flipSteps len k l - flipSteps len k' l' ≤ 8 * RAW_CAP := by
    intro k l k' l' _ _ _ _
    simp only [flipSteps]
    omega
  have hsteps : flipSteps len i j = flipSteps len i' j' := by
    rcases Nat.le_total (flipSteps len i' j') (flipSteps len i j) with hle | hle
    · exact eq_of_crcTabSteps_eq hle (hnear i j i' j' hi hj hi' hj') h
    · exact (eq_of_crcTabSteps_eq hle (hnear i' j' i j hi' hj' hi hj) h.symm).symm
  simp only [flipSteps] at hsteps
  simp only [Prod.mk.injEq]
  omega

/-- A second flip of the same bit undoes the first. -/
theorem flipBit_flipBit (raw : List Byte) (i j : Nat) : flipBit (flipBit raw i j) i j = raw := by
  have hid : ((fun b : Byte => b ^^^ (1#8 <<< j)) ∘ fun b => b ^^^ (1#8 <<< j)) = id := by
    funext b
    simp
  rw [flipBit, flipBit, List.modify_modify_eq, hid, List.modify_id]

/-! ### A zero CRC -/

theorem revByte_eq_reverse (b : Byte) : revByte b = b.reverse := by
  revert b
  decide +kernel

/-- `rev16` is the reversal of all 16 bits (R134). -/
theorem rev16_eq_reverse (x : Word16) : rev16 x = x.reverse := by
  apply BitVec.eq_of_getLsbD_eq
  intro k hk
  simp only [rev16, revByte_eq_reverse, BitVec.getLsbD_or, BitVec.getLsbD_shiftLeft, BitVec.zeroExtend,
    BitVec.getLsbD_setWidth, BitVec.getLsbD_reverse, BitVec.getMsbD, BitVec.getLsbD_extractLsb']
  by_cases hlow : k < 8
  · have hidx : 8 + (8 - 1 - k) = 16 - 1 - k := by omega
    have hin : 8 - 1 - k < 8 := by omega
    simp [hk, hlow, hidx, hin]
  · have hidx : 8 - 1 - (k - 8) = 16 - 1 - k := by omega
    have hin : 16 - 1 - k < 8 := by omega
    have hoff : k - 8 < 8 := by omega
    have hword : k - 8 < 16 := by omega
    simp [hk, hlow, hidx, hin, hoff, hword]

/-- CRC_GEN is zero exactly when its register is (R134, R137). -/
theorem crcGen_eq_zero_iff (raw : List Byte) : crcGen raw = 0#16 ↔ crcRegister raw = 0#16 := by
  have hzero : (0#16).reverse = 0#16 := by decide
  rw [crcGen, rev16_eq_reverse]
  constructor
  · intro h
    rw [← BitVec.reverse_reverse_eq (x := crcRegister raw), h, hzero]
  · intro h
    rw [h, hzero]

/-- A frame with an odd number of flipped bits has no zero CRC. -/
theorem crcGen_ne_zero_of_odd (h : popcount (crcRegister raw) % 2 = 1) : crcGen raw ≠ 0#16 := by
  intro hzero
  have heven : popcount 0#16 = 0 := by decide
  rw [(crcGen_eq_zero_iff raw).1 hzero, heven] at h
  exact absurd h (by decide)

/-- A second flip gives a zero CRC again only where the first was. -/
theorem eq_of_crcGen_flips_zero (hlen : raw.length ≤ RAW_CAP) (hzero : crcGen raw = 0#16) (hi : i < raw.length)
    (hj : j < 8) (hi' : i' < raw.length) (hj' : j' < 8) (h : crcGen (flipBit (flipBit raw i j) i' j') = 0#16) :
    (i, j) = (i', j') := by
  rw [crcGen_eq_zero_iff] at hzero h
  have hi2 : i' < (flipBit raw i j).length := by rwa [flipBit_length]
  rw [crcRegister_flipBit hi2 hj', crcRegister_flipBit hi hj, hzero, flipBit_length, BitVec.zero_xor] at h
  exact flipSteps_inj hlen hi hj hi' hj' (BitVec.xor_eq_zero_iff.1 h)

end Sys2Proof
end

section
/-! PROOFS. Frames with one and with two flipped bits in End (42_frame_fsm.md R124, R128). -/

namespace Sys2Proof.Machine

open Sys2Proof.Safety

/-- Settles O50: of the flips End tries, only the flip that happened gives a zero CRC. -/
theorem singleFlipIsCorrected : Obligations.SingleFlipIsCorrected := by
  intro s b frame i j hp h0 h1 hlen hzero hi hj hraw
  have hrestored : flipBit s.fsm.raw i j = frame := by rw [hraw, flipBit_flipBit]
  have hlength : s.fsm.raw.length = frame.length := by rw [hraw, flipBit_length]
  have heven : popcount (crcRegister frame) % 2 = 0 := by
    rw [(crcGen_eq_zero_iff frame).1 hzero]
    decide
  have hbad : crcGen s.fsm.raw ≠ 0#16 := by
    refine crcGen_ne_zero_of_odd ?_
    rw [hraw, popcount_crcRegister_flipBit hi hj, Nat.add_mod, heven]
  have honly : ∀ i' j', i' < s.fsm.raw.length → j' < 8 → i' < i ∨ i' = i ∧ j' < j →
      crcGen (flipBit s.fsm.raw i' j') ≠ 0#16 := by
    intro i' j' hi' hj' hbefore hfix
    have hsame : (i, j) = (i', j') := eq_of_crcGen_flips_zero hlen hzero hi hj (hlength ▸ hi') hj' (hraw ▸ hfix)
    obtain ⟨rfl, rfl⟩ := Prod.mk.inj hsame
    omega
  rw [exec_fsmByteEnd_corrected hp h0 h1 hbad (hlength.symm ▸ hi) hj (hrestored.symm ▸ hzero) honly, hrestored]

/-- Settles O51: with two flips the CRC is not zero, and with a third its register has odd parity. -/
theorem doubleFlipIsDropped : Obligations.DoubleFlipIsDropped := by
  intro s b frame i j i' j' hp h0 h1 hlen hzero hi hj hi' hj' hne hraw
  have hi2 : i' < (flipBit frame i j).length := by rwa [flipBit_length]
  have hbad : crcGen s.fsm.raw ≠ 0#16 := fun h =>
    hne (eq_of_crcGen_flips_zero hlen hzero hi hj hi' hj' (hraw ▸ h))
  have heven : popcount (crcRegister s.fsm.raw) % 2 = 0 := by
    rw [hraw, popcount_crcRegister_flipBit hi2 hj', Nat.add_mod, popcount_crcRegister_flipBit hi hj,
      (crcGen_eq_zero_iff frame).1 hzero]
    decide
  obtain ⟨-, -, hdrop⟩ := endJudgesTheFrame s b hp h0 h1
  refine hdrop hbad fun k l hk hl => crcGen_ne_zero_of_odd (raw := flipBit s.fsm.raw k l) ?_
  rw [popcount_crcRegister_flipBit hk hl, Nat.add_mod, heven]

end Sys2Proof.Machine
end

section
/-! PROOFS. The combinational operations answer in both phases with their result and change no state (43_crc.md R135 to
R139, 20_memory.md R53). -/

namespace Sys2Proof.Machine

open Sys2Proof.Safety

variable {s : State} {data : List Int} {crc b : Int}

/-! ### Operands in their type -/

theorem all_isU8_iff : data.all isU8 = true ↔ ∀ b ∈ data, 0 ≤ b ∧ b < 256 := by
  simp only [List.all_eq_true, isU8_iff]

/-- Every 16-bit word is a u16. -/
theorem isU16_toNat (c : Word16) : isU16 (c.toNat : Int) = true := by
  rw [isU16_iff]
  have := c.isLt
  omega

/-- A word is read back from its value. -/
theorem ofInt_toNat {w : Nat} (v : BitVec w) : BitVec.ofInt w (v.toNat : Int) = v := by
  rw [BitVec.ofInt_natCast, BitVec.ofNat_toNat, BitVec.setWidth_eq]

/-! ### One answer for each operation -/

/-- With its operand in its type, a combinational operation answers the state with its result as the one output. -/
theorem combinational_of_ok {α : Type} {e : Except Refusal α} {a : α} (f : α → OpResult) (he : e = .ok a) :
    withOperand e (fun x => combinational (f x) s) = .next (opOutputs s none [] (some (f a))) := by
  rw [he, withOperand_ok]
  rfl

theorem exec_crcGen (h : data.all isU8 = true) :
    exec (.crcGen data) s = .next (opOutputs s none [] (some (.u16 (crcGen (data.map (BitVec.ofInt 8)))))) :=
  combinational_of_ok (fun bytes => .u16 (crcGen bytes)) (operandSeq_ok h)

theorem exec_crcCheck (h : data.all isU8 = true) :
    exec (.crcCheck data) s = .next (opOutputs s none [] (some (.truth (crcCheck (data.map (BitVec.ofInt 8)))))) :=
  combinational_of_ok (fun bytes => .truth (crcCheck bytes)) (operandSeq_ok h)

theorem exec_crcFold (hc : isU16 crc = true) (hb : isU8 b = true) :
    exec (.crcFold crc b) s =
      .next (opOutputs s none [] (some (.u16 (crcFold (BitVec.ofInt 16 crc) (BitVec.ofInt 8 b))))) := by
  show execCrcFold crc b s = _
  rw [execCrcFold, combinational_of_ok (fun p => .u16 (crcFold p.1 p.2)) (operandCrcByte_ok hc hb)]

theorem exec_crcFoldRev (hc : isU16 crc = true) (hb : isU8 b = true) :
    exec (.crcFoldRev crc b) s =
      .next (opOutputs s none [] (some (.u16 (crcFoldRev (BitVec.ofInt 16 crc) (BitVec.ofInt 8 b))))) := by
  show execCrcFoldRev crc b s = _
  rw [execCrcFoldRev, combinational_of_ok (fun p => .u16 (crcFoldRev p.1 p.2)) (operandCrcByte_ok hc hb)]

theorem exec_oddParity (h : isU8 b = true) :
    exec (.oddParity b) s = .next (opOutputs s none [] (some (.u8 (oddByte (BitVec.ofInt 8 b))))) :=
  combinational_of_ok (fun v => .u8 (oddByte v)) (operandU8_ok h)

/-! ### The CRC operations -/

/-- Settles O54: CRC_GEN's fold over the operand bytes is the fold over the operand values. -/
theorem crcGenReturnsReflectedRegister : Obligations.CrcGenReturnsReflectedRegister := by
  intro s data h
  rw [exec_crcGen (all_isU8_iff.2 h), crcGen, crcRegister, List.foldl_map]
  rfl

/-- Settles O55: CRC_CHECK compares the register folded over the operand values with 0. -/
theorem crcCheckTestsPlainRegister : Obligations.CrcCheckTestsPlainRegister := by
  intro s data h
  rw [exec_crcCheck (all_isU8_iff.2 h), crcCheck, crcPlain, List.foldl_map]

/-- The fold as R135 writes it, with the register's high byte taken by a shift. -/
theorem crcFold_shift (c : Word16) (v : Byte) :
    crcFold c v = (c <<< 8) ^^^ crcTab ((c >>> 8).setWidth 8 ^^^ v) := by
  rw [BitVec.setWidth_ushiftRight_eq_extractLsb, crcFold]

/-- Settles O56: the folds are those of R135 and R136 on the values of any word and byte. -/
theorem crcFoldsReturnTableStep : Obligations.CrcFoldsReturnTableStep := by
  intro s c v
  constructor
  · rw [exec_crcFold (isU16_toNat c) (isU8_toNat v), ofInt_toNat, ofInt_toNat, crcFold_shift]
  · rw [exec_crcFoldRev (isU16_toNat c) (isU8_toNat v), ofInt_toNat, ofInt_toNat, crcFoldRev, crcFold_shift,
      revByte_eq_reverse]

end Sys2Proof.Machine
end

section
/-! PROOFS. The parity bit of a byte (43_crc.md R133, R139, R141): it leaves the low 7 bits, and it makes the count of
ones odd when bit 7 was clear. -/

namespace Sys2Proof

variable {c : Byte}

/-- The ones of a word are those below its top bit, and that bit. -/
theorem popcount_eq_low_add_top {w : Nat} (v : BitVec (w + 1)) :
    popcount v = popcount (v.extractLsb' 0 w) + (v.getLsbD w).toNat := by
  have hlow : (List.range w).countP (fun k => (v.extractLsb' 0 w).getLsbD k) =
      (List.range w).countP fun k => v.getLsbD k := by
    refine List.countP_congr fun k hk => ?_
    have hin : k < w := List.mem_range.1 hk
    simp [hin]
  rw [popcount, popcount, hlow, List.range_succ, List.countP_append, List.countP_singleton]
  cases v.getLsbD w <;> rfl

/-- A word is its bits below the top one, and that bit. -/
theorem eq_of_low_of_top {w : Nat} {u v : BitVec (w + 1)} (hlow : u.extractLsb' 0 w = v.extractLsb' 0 w)
    (htop : u.getLsbD w = v.getLsbD w) : u = v := by
  apply BitVec.eq_of_getLsbD_eq
  intro k hk
  rcases Nat.lt_succ_iff_lt_or_eq.1 hk with hin | rfl
  · have hbit := congrArg (fun t : BitVec w => t.getLsbD k) hlow
    simpa [hin] using hbit
  · exact htop

/-- The parity bit is bit 7 alone (R133). -/
theorem parityBit_low (x : BitVec 7) : (parityBit x).extractLsb' 0 7 = 0#7 := by
  unfold parityBit
  split <;> rfl

theorem parityBit_top (x : BitVec 7) : (parityBit x).getLsbD 7 = decide (popcount x % 2 = 0) := by
  unfold parityBit
  split
  · next heven => rw [decide_eq_true heven]; rfl
  · next hodd => rw [decide_eq_false hodd]; rfl

/-- `odd(c)` has the character of `c` (R139). -/
theorem oddByte_low (c : Byte) : (oddByte c).extractLsb' 0 7 = c.extractLsb' 0 7 := by
  rw [oddByte, BitVec.extractLsb'_or, parityBit_low, BitVec.or_zero]

/-- Bit 7 of `odd(c)` is set where it was, or where the character has an even number of ones. -/
theorem oddByte_top (c : Byte) :
    (oddByte c).getLsbD 7 = (c.getLsbD 7 || decide (popcount (c.extractLsb' 0 7) % 2 = 0)) := by
  rw [oddByte, BitVec.getLsbD_or, parityBit_top]

/-- The byte sent for a 7-bit character has an odd number of ones (R141). -/
theorem popcount_oddByte (h : c.getLsbD 7 = false) : popcount (oddByte c) % 2 = 1 := by
  rw [popcount_eq_low_add_top, oddByte_low, oddByte_top, h, Bool.false_or]
  by_cases heven : popcount (c.extractLsb' 0 7) % 2 = 0
  · rw [decide_eq_true heven, Bool.toNat_true]
    omega
  · rw [decide_eq_false heven, Bool.toNat_false]
    omega

/-- A byte with bit 7 set stays as it is. -/
theorem oddByte_of_top (h : c.getLsbD 7 = true) : oddByte c = c :=
  eq_of_low_of_top (oddByte_low c) (by rw [oddByte_top, h, Bool.true_or])

/-- Bit 7 of a byte tells whether its value is 128 or more. -/
theorem getLsbD_seven (c : Byte) : c.getLsbD 7 = decide (128 ≤ c.toNat) :=
  (BitVec.msb_eq_getLsbD_last c).symm.trans (BitVec.msb_eq_decide c)

end Sys2Proof

namespace Sys2Proof.Machine

/-- Settles O57: the result is `odd(c)`, with bit 7 of `c` clear below 128 and set from 128 up. -/
theorem oddParityMakesOddBytes : Obligations.OddParityMakesOddBytes := by
  intro s c
  refine ⟨oddByte c, ?answer, oddByte_low c, fun hlt => ?odd, fun hge => ?same⟩
  case answer => rw [exec_oddParity (isU8_toNat c), ofInt_toNat]
  case odd => exact popcount_oddByte (by rw [getLsbD_seven, decide_eq_false (Nat.not_le.2 hlt)])
  case same => exact oddByte_of_top (by rw [getLsbD_seven, decide_eq_true hge])

end Sys2Proof.Machine
end

section
/-! PROOFS. The reversals (43_crc.md R132, R134), the trailer of a sequence (R140), and the CRC over XOR (R142). -/

namespace Sys2Proof

/-! ### Reversals -/

/-- Settles O60: both reversals are the reversal of all bits, which is its own inverse. -/
theorem reversalsAreInvolutions : Obligations.ReversalsAreInvolutions := by
  refine ⟨fun b => ⟨revByte_eq_reverse b, ?byte⟩, fun x => ⟨rev16_eq_reverse x, ?word⟩⟩
  case byte => rw [revByte_eq_reverse, revByte_eq_reverse, BitVec.reverse_reverse_eq]
  case word => rw [rev16_eq_reverse, rev16_eq_reverse, BitVec.reverse_reverse_eq]

/-- The bits of a reversed word from `i` up are those at the same distance from the other end, reversed. -/
theorem reverse_extractLsb'_reverse {w i len : Nat} (h : i + len ≤ w) (x : BitVec w) :
    (x.reverse.extractLsb' i len).reverse = x.extractLsb' (w - (i + len)) len := by
  apply BitVec.eq_of_getLsbD_eq
  intro k hk
  have hfrom : len - 1 - k < len := by omega
  have hin : i + (len - 1 - k) < w := by omega
  have hidx : w - 1 - (i + (len - 1 - k)) = w - (i + len) + k := by omega
  simp only [BitVec.getLsbD_reverse, BitVec.getMsbD, BitVec.getLsbD_extractLsb', hk, hfrom, hin, hidx, decide_true,
    Bool.true_and]

theorem reverse_xor {w : Nat} (u v : BitVec w) : (u ^^^ v).reverse = u.reverse ^^^ v.reverse := by
  apply BitVec.eq_of_getLsbD_eq
  intro k _
  simp only [BitVec.getLsbD_reverse, BitVec.getLsbD_xor, BitVec.getMsbD_xor]

theorem rev16_xor (u v : Word16) : rev16 (u ^^^ v) = rev16 u ^^^ rev16 v := by
  rw [rev16_eq_reverse, rev16_eq_reverse, rev16_eq_reverse, reverse_xor]

/-- The low byte of `rev16(x)`, reversed as the fold takes it, is the high byte of `x`. -/
theorem revByte_rev16_low (x : Word16) : revByte ((rev16 x).extractLsb' 0 8) = x.extractLsb' 8 8 := by
  rw [revByte_eq_reverse, rev16_eq_reverse]
  exact reverse_extractLsb'_reverse (by decide) x

/-- The high byte of `rev16(x)`, reversed as the fold takes it, is the low byte of `x`. -/
theorem revByte_rev16_high (x : Word16) : revByte ((rev16 x).extractLsb' 8 8) = x.extractLsb' 0 8 := by
  rw [revByte_eq_reverse, rev16_eq_reverse]
  exact reverse_extractLsb'_reverse (by decide) x

/-! ### The trailer -/

/-- The register's own high byte, folded in, leaves the low byte moved up (R135). -/
theorem crcFold_high (c : Word16) : crcFold c (c.extractLsb' 8 8) = c <<< 8 := by
  rw [crcFold, BitVec.xor_self, crcTab_zero, BitVec.xor_zero]

/-- The register's own two bytes, high byte first, bring it to 0. -/
theorem crcFold_own_bytes (c : Word16) : crcFold (crcFold c (c.extractLsb' 8 8)) (c.extractLsb' 0 8) = 0#16 := by
  have hhigh : (c <<< 8).extractLsb' 8 8 = c.extractLsb' 0 8 := by
    apply BitVec.eq_of_getLsbD_eq
    intro k hk
    have hin : 8 + k < 16 := by omega
    simp only [BitVec.getLsbD_extractLsb', BitVec.getLsbD_shiftLeft, hk, hin, decide_true, Bool.true_and,
      Nat.not_lt.2 (Nat.le_add_right 8 k), decide_false, Bool.not_false, Nat.add_sub_cancel_left, Nat.zero_add]
  have hout : c <<< 8 <<< 8 = 0#16 := by rw [← BitVec.shiftLeft_add, BitVec.shiftLeft_eq_zero (Nat.le_refl 16)]
  calc crcFold (crcFold c (c.extractLsb' 8 8)) (c.extractLsb' 0 8)
      = crcFold (c <<< 8) ((c <<< 8).extractLsb' 8 8) := by rw [crcFold_high, hhigh]
    _ = 0#16 := by rw [crcFold_high, hout]

/-- The two trailer bytes bring the register they were taken from to 0. -/
theorem crcRegister_append_trailer (data : List Byte) : crcRegister (data ++ crcTrailer data) = 0#16 := by
  calc crcRegister (data ++ crcTrailer data)
      = crcFold (crcFold (crcRegister data) (revByte ((crcGen data).extractLsb' 0 8)))
          (revByte ((crcGen data).extractLsb' 8 8)) := by rw [crcRegister, List.foldl_append]; rfl
    _ = 0#16 := by rw [crcGen, revByte_rev16_low, revByte_rev16_high, crcFold_own_bytes]

/-- Settles O58: the trailer brings the register to 0; the values for 01 are computed. -/
theorem trailerMakesCrcZero : Obligations.TrailerMakesCrcZero := by
  refine ⟨fun data => ?_, by decide +kernel, by decide +kernel⟩
  exact (crcGen_eq_zero_iff _).2 (crcRegister_append_trailer data)

/-! ### Linearity -/

/-- A fold whose step is linear over XOR is linear over XOR of sequences of equal length. -/
theorem foldl_xor {f : Word16 → Byte → Word16} (hf : ∀ c d a b, f (c ^^^ d) (a ^^^ b) = f c a ^^^ f d b)
    {l m : List Byte} (h : l.length = m.length) (c d : Word16) :
    (List.zipWith (fun x y => x ^^^ y) l m).foldl f (c ^^^ d) = l.foldl f c ^^^ m.foldl f d := by
  induction l generalizing m c d with
  | nil =>
    obtain rfl := List.length_eq_zero_iff.1 h.symm
    rfl
  | cons a l ih =>
    cases m with
    | nil => cases h
    | cons b m =>
      rw [List.zipWith_cons_cons, List.foldl_cons, hf]
      exact ih (Nat.succ.inj h) (f c a) (f d b)

theorem crcFoldRev_xor (c d : Word16) (a b : Byte) :
    crcFoldRev (c ^^^ d) (a ^^^ b) = crcFoldRev c a ^^^ crcFoldRev d b := by
  rw [crcFoldRev, revByte_xor, crcFold_xor]
  rfl

theorem crcRegister_xor {l m : List Byte} (h : l.length = m.length) :
    crcRegister (List.zipWith (fun x y => x ^^^ y) l m) = crcRegister l ^^^ crcRegister m :=
  foldl_xor crcFoldRev_xor h 0#16 0#16

/-- Settles O59: both steps are linear, the registers start at 0, and so does the reversal of the result. -/
theorem crcIsLinear : Obligations.CrcIsLinear := by
  intro l m h
  refine ⟨?gen, foldl_xor crcFold_xor h 0#16 0#16⟩
  case gen => rw [crcGen, crcRegister_xor h, rev16_xor, crcGen, crcGen]

end Sys2Proof
end

section
/-! PROOFS. The oldest host operation and the idle step (10_state.md R31, R38, 20_memory.md R54, 60_exceptions.md R146,
R155; logs 10, 11). -/

namespace Sys2Proof.Machine

open Sys2Proof.Safety

variable {s : State} {key : Byte} {ops : List Int} {rest : List HostItem} {i : Instr}

/-- With no sample pending, a step runs the operation that the oldest host item decodes to (R54). -/
theorem step_instr (hs : s.stream = []) (hi : s.inbox = .op key ops :: rest)
    (hd : decode (formKey key s.fsm.state) ops = .ok i) :
    step s = settle { s with inbox := rest } (exec i { s with inbox := rest }) := by
  have hf : fetch s = .instr i { s with inbox := rest } := by
    simp only [fetch_host hs, fetchHost, hi, hd]
  rw [step, hf]

/-- Settles O5: the outcome of the operation is settled: a next state and a fault stand, a refusal leaves its mark. -/
theorem stepRunsDecodedOperation : Obligations.StepRunsDecodedOperation := by
  intro s key ops rest i hs hi hd
  rw [step_instr hs hi hd]
  refine ⟨fun t ht => ?_, fun f hf => ?_, fun r hr hmark => ?_⟩
  · rw [ht, settle_next]
  · rw [hf, settle_fault]
  · rw [hr, settle_refused hmark]
    rfl

/-- Settles O8: with both queues empty nothing is fetched, and the idle step only drops the outputs. -/
theorem idleKeepsState : Obligations.IdleKeepsState := by
  intro s hs hi
  have hf : fetch s = .idle := by simp only [fetch_host hs, fetchHost, hi]
  rw [step, hf, opOutputs_empty]

end Sys2Proof.Machine
end

section
/-! PROOFS. The bounds on the synchronizer's real values are kept, and with the reference `SIN` and `COS` no step in RUN
faults (41_bitsync.md R95 to R110, 60_exceptions.md R145). -/

namespace Sys2Proof

/-! ### Products and sums with the sign plus -/

theorem mul_negative {x y : Real64} (hx : x.isFinite = true) (hy : y.isFinite = true) :
    (x.mul y).negative = (x.negative != y.negative) := by
  rw [mul_of_finite hx hy, negative_ofMag (roundUnits_lt _ _)]

theorem add_not_negative {x y : Real64} (hx : x.isFinite = true) (hy : y.isFinite = true) (hxs : x.negative = false)
    (hys : y.negative = false) : (x.add y).negative = false := by
  have hsum : 0 ≤ x.value + y.value :=
    Int.add_nonneg (value_nonneg_of_not_negative hxs) (value_nonneg_of_not_negative hys)
  rw [add_of_finite hx hy, Real64.addFinite]
  split
  · rw [negative_ofMag (by decide), hxs, Bool.false_and]
  · rw [negative_ofMag (roundUnits_lt _ _)]
    exact decide_eq_false hsum.not_gt

end Sys2Proof

namespace Sys2Proof.Safety

variable {a n : Nat} {x y : Real64}

/-- A product with a weight whose share of the whole number `a` is at most the whole number `n`. -/
theorem bounded_weighted (hx : x.isFinite = true) (hy : Bounded a y) (hshare : x.units * a ≤ n * oneUnits)
    (h : n < 2 ^ 53) : Bounded n (x.mul y) := by
  obtain ⟨m, hlt, hm⟩ := exists_mag_whole h
  refine bounded_of_mag_le hlt hm (mul_mag_le hx hy.1 ?_)
  calc x.units * y.units ≤ x.units * (a * oneUnits) := Nat.mul_le_mul_left _ hy.2
    _ = x.units * a * oneUnits := (Nat.mul_assoc ..).symm
    _ ≤ n * oneUnits * oneUnits := Nat.mul_le_mul_right _ hshare
    _ = unitsOfMag m * oneUnits := by rw [hm]

end Sys2Proof.Safety

namespace Sys2Proof.Machine

open Sys2Proof.Safety

variable {s t : State} {x : Int} {b b' : Bsync} {par : Params} {phiH phiL : Real64}

/-! ### The level (R96) -/

/-- The two weights of the level sum to 1, up to rounding: their shares of the largest sample and of the largest level
are at most 99 and 65340. -/
theorem level_shares : LIN_A.units * 32768 ≤ 99 * oneUnits ∧ LIN_B.units * 2 ^ 16 ≤ 65340 * oneUnits := by
  decide +kernel

/-- The level keeps the sign plus and its bound (R30, R96). -/
theorem levelAfter_bounded (hneg : s.bsync.lin.negative = false) (hlin : Bounded (2 ^ 16) s.bsync.lin)
    (hx : isS16 x = true) : (levelAfter s x).negative = false ∧ Bounded (2 ^ 16) (levelAfter s x) := by
  obtain ⟨hxf, hxs, -⟩ := ofInt_natAbs hx
  have hn := natAbs_le_of_isS16 hx
  have hsize : Bounded 32768 (Real64.ofInt (x.natAbs : Int)) :=
    (ofInt_bounded (z := (x.natAbs : Int)) (by omega)).mono hn
  have hshare : Bounded 99 (LIN_A.mul (Real64.ofInt (x.natAbs : Int))) :=
    bounded_weighted linA_bounded.1 hsize level_shares.1 (by omega)
  have hold : Bounded 65340 (LIN_B.mul s.bsync.lin) :=
    bounded_weighted linB_bounded.1 hlin level_shares.2 (by omega)
  refine ⟨add_not_negative hshare.1 hold.1 ?_ ?_, (hshare.add hold (by omega)).mono (by omega)⟩
  · rw [mul_negative linA_bounded.1 hxf, linA_size.2.1, hxs]
    rfl
  · rw [mul_negative linB_bounded.1 hlin.1, linB_size.2.1, hneg]
    rfl

/-! ### The bounds as a predicate on the synchronizer alone -/

/-- What `NumericOk` asks of the synchronizer. -/
def RealsBounded (b : Bsync) : Prop :=
  (b.lin.negative = false ∧ Bounded (2 ^ 16) b.lin) ∧
    (Bounded 16 b.phiH ∧ Bounded 16 b.phiL) ∧
    (Bounded (20 * 2 ^ 18) b.dfH ∧ Bounded (20 * 2 ^ 18) b.dfL) ∧
    (Bounded 64 b.pC ∧ Bounded 64 b.ppC) ∧
    ∀ i, Bounded (2 ^ 18) (ringGet b.hsample i) ∧ Bounded (2 ^ 18) (ringGet b.lsample i) ∧
      Bounded 1024 (ringGet b.isample i) ∧ Bounded 1024 (ringGet b.qsample i) ∧ Bounded 1 (ringGet b.csample i)

theorem numericOk_iff : NumericOk s ↔ s.par.integLen ≤ 2 ^ 20 ∧ RealsBounded s.bsync := Iff.rfl

theorem ringGet_replicate (z : Real64) (i : Nat) : ringGet (Vector.replicate BITLEN z) i = z := by simp [ringGet]

/-- RESET sets every real value to zero (R158). -/
theorem realsBounded_reset : RealsBounded Bsync.reset := by
  have hzero (n : Nat) : Bounded n (⟨0#64⟩ : Real64) := bounded_zero.mono (Nat.zero_le n)
  refine ⟨⟨rfl, hzero _⟩, ⟨hzero _, hzero _⟩, ⟨hzero _, hzero _⟩, ⟨hzero _, hzero _⟩, fun i => ?_⟩
  simp only [Bsync.reset, ringGet_replicate]
  exact ⟨hzero _, hzero _, hzero _, hzero _, hzero _⟩

/-! ### Each part of BS_FEED keeps the bounds -/

/-- The entry a VFO writes: `u` squared times a sine (R98, R99). -/
theorem vfoEntry_bounded {u : Real64} (hu : Bounded 512 u) (hphi : Bounded 16 phiH) :
    Bounded (2 ^ 18) ((u.mul u).mul (sinOf .reference phiH)) :=
  ((hu.mul hu (by omega)).mul (sin_bounded hphi.1) (by omega)).mono (by omega)

/-- Steps 1 to 5 keep the bounds (R95 to R102). -/
theorem realsBounded_afterMixers (ht : s.par.trig = .reference) (h : NumericOk s) (hx : isS16 x = true)
    (hH : Bounded 16 phiH) (hL : Bounded 16 phiL) : RealsBounded (afterMixers s x phiH phiL) := by
  obtain ⟨hmixed, hpC, hppC⟩ := afterMixers_bounded ht h hx hH hL
  obtain ⟨-, ⟨hneg, hlin⟩, -, -, -, hrings⟩ := h
  have hu := ratioOf_bounded hneg hlin hx
  have hentryH := vfoEntry_bounded hu hH
  have hentryL := vfoEntry_bounded hu hL
  rw [← ht] at hentryH hentryL
  have hringH := ringGet_ringSet_all (i := (s.bsync.is + 39) % 40) hentryH fun j => (hrings j).1
  have hringL := ringGet_ringSet_all (i := (s.bsync.is + 39) % 40) hentryL fun j => (hrings j).2.1
  have hdfH := recentSum_bounded (n := 20) hringH ((s.bsync.is + 39) % 40) (by omega)
  have hdfL := recentSum_bounded (n := 20) hringL ((s.bsync.is + 39) % 40) (by omega)
  simp only [RealsBounded, afterMixers]
  exact ⟨levelAfter_bounded hneg hlin hx, ⟨hH, hL⟩, ⟨hdfH, hdfL⟩, ⟨hpC, hppC⟩,
    fun i => ⟨hringH i, hringL i, hmixed i⟩⟩

/-- A tick keeps the bounds: the correlator's value enters its history (R109). -/
theorem realsBounded_tickWith {c : Real64} (h : RealsBounded b) (hcorr : Bounded 64 c)
    (htick : tickWith par c b = .ok b') : RealsBounded b' := by
  obtain ⟨hlin, hphi, hdf, ⟨hpC, -⟩, hrings⟩ := h
  obtain ⟨m, ⟨-, -, -, hm⟩ | rfl, rfl⟩ := tickWith_cases htick
  · rw [hm]
    exact ⟨hlin, hphi, hdf, ⟨hcorr, hpC⟩, hrings⟩
  · exact ⟨hlin, hphi, hdf, ⟨hcorr, hpC⟩, hrings⟩

/-- The bit clock keeps the bounds, because the reference correlator has size at most 40 (R103, R104). -/
theorem realsBounded_bsClock (ht : par.trig = .reference) (h : RealsBounded b) (hc : bsClock par b = .ok b') :
    RealsBounded b' := by
  obtain ⟨-, -, -, -, hrings⟩ := id h
  obtain ⟨-, ⟨-, rfl⟩ | ⟨-, htick⟩⟩ := bsClock_cases hc
  · exact h
  · rw [ht] at htick
    exact realsBounded_tickWith h ((correlator_bounded (fun i => (hrings i).2.2.2.2) b.is).mono (by omega)) htick

/-- BS_FEED of an s16 keeps the bounds (R94). -/
theorem numericOk_bsFeed (ht : s.par.trig = .reference) (h : NumericOk s) (hx : isS16 x = true)
    (hfeed : bsFeed x s = .ok t) : NumericOk t := by
  obtain ⟨hn, ⟨hneg, hlin⟩, -⟩ := id h
  obtain ⟨phiH, phiL, hphi, hH, hL⟩ := phasesAnswer h
  have hfront := bsFront_ok (isFinite_not_nan (levelAfter_bounds hneg hlin hx).1) hphi
  obtain ⟨f, c, hf, hc, hbsync⟩ := bsFeed_bsync hfeed
  obtain rfl : afterMixers s x phiH phiL = f := Except.ok.inj (hfront.symm.trans hf)
  have hreals : RealsBounded c := realsBounded_bsClock ht (realsBounded_afterMixers ht h hx hH hL) hc
  have hpar : t.par = s.par := by rw [bsFeed_frame hfeed]
  rw [numericOk_iff, hpar, hbsync]
  exact ⟨hn, hreals⟩

/-! ### The other operations keep them -/

theorem numericOk_linkBit {bit : Bool} (h : NumericOk s) (hl : linkBit bit s = .ok t) : NumericOk t := by
  rcases (linkBit_frame hl).1 with ht | ht <;> rw [ht] <;> exact h

theorem numericOk_fsmByte {v : Byte} {r : FsmResult} (h : NumericOk s) (hf : fsmByte v s = .ok (r, t)) :
    NumericOk t := by
  rcases (fsmByte_frame hf).1.1 with ht | ht <;> rw [ht] <;> exact h

theorem numericOk_resetState (h : NumericOk s) : NumericOk (resetState s) := ⟨h.1, realsBounded_reset⟩

/-! ### Outcomes that settle in a bounded state -/

/-- The run goes on from `s` after the outcome `o`, in a state with bounded real values. -/
def Continues (s : State) (o : Host.Outcome State Fault Refusal) : Prop :=
  ∃ t, settle s o = .next t ∧ NumericOk t

theorem continues_next (h : NumericOk t) : Continues s (.next t) := ⟨t, settle_next, h⟩

theorem continues_refused {r : Refusal} (h : NumericOk s) (hr : r.isMark = true) : Continues s (.refused r) :=
  ⟨_, settle_refused hr, h⟩

theorem continues_ofExcept {e : Except Fault State} (h : ∃ t, e = .ok t ∧ NumericOk t) :
    Continues s (ofExcept e) := by
  obtain ⟨t, rfl, ht⟩ := h
  exact continues_next ht

/-- An operand that is turned away is turned away with a mark of R146. -/
def RefusesWithMark {α : Type} (e : Except Refusal α) : Prop := ∀ r, e = .error r → r.isMark = true

theorem refusesWithMark_ok {α : Type} (a : α) : RefusesWithMark (.ok a) := fun _ h => nomatch h

theorem refusesWithMark_error {α : Type} {r : Refusal} (hr : r.isMark = true) :
    RefusesWithMark (.error r : Except Refusal α) := fun _ h => Except.error.inj h ▸ hr

theorem refusesWithMark_ite {α : Type} {p : Prop} [Decidable p] {e e' : Except Refusal α} (he : RefusesWithMark e)
    (he' : RefusesWithMark e') : RefusesWithMark (if p then e else e') := by
  split
  · exact he
  · exact he'

theorem refusesWithMark_operandU8 (n : Int) : RefusesWithMark (operandU8 n) :=
  refusesWithMark_ite (refusesWithMark_ok _) (refusesWithMark_error rfl)

theorem refusesWithMark_operandU16 (n : Int) : RefusesWithMark (operandU16 n) :=
  refusesWithMark_ite (refusesWithMark_ok _) (refusesWithMark_error rfl)

theorem refusesWithMark_operandS16 (n : Int) : RefusesWithMark (operandS16 n) :=
  refusesWithMark_ite (refusesWithMark_ok _) (refusesWithMark_error rfl)

theorem refusesWithMark_operandBit (n : Int) : RefusesWithMark (operandBit n) :=
  refusesWithMark_ite (refusesWithMark_ok _) (refusesWithMark_error rfl)

theorem refusesWithMark_operandSeq (ns : List Int) : RefusesWithMark (operandSeq ns) :=
  refusesWithMark_ite (refusesWithMark_ok _) (refusesWithMark_error rfl)

theorem refusesWithMark_operandIq (ns : List Int) : RefusesWithMark (operandIq ns) :=
  refusesWithMark_ite (refusesWithMark_error rfl) (refusesWithMark_operandSeq ns)

theorem refusesWithMark_operandCrcByte (crc n : Int) : RefusesWithMark (operandCrcByte crc n) := by
  intro r h
  have hc := refusesWithMark_operandU16 crc
  have hn := refusesWithMark_operandU8 n
  unfold operandCrcByte at h
  split at h
  · cases h
  · next he => cases h; exact hc _ he
  · next he _ => cases h; exact hn _ he

/-- The sample of an admitted BS_FEED is an s16 (R63). -/
theorem isS16_of_operandS16 {n v : Int} (h : operandS16 n = .ok v) : isS16 v = true := by
  unfold operandS16 at h
  split at h
  · next hn => cases h; exact hn
  · cases h

theorem continues_withOperand {α : Type} {e : Except Refusal α} {k : α → Host.Outcome State Fault Refusal}
    (h : NumericOk s) (he : RefusesWithMark e) (hk : ∀ a, e = .ok a → Continues s (k a)) :
    Continues s (withOperand e k) := by
  cases e with
  | ok a => exact hk a rfl
  | error r => exact continues_refused h (he r rfl)

/-! ### Every operation in a bounded state in RUN -/

/-- A state in RUN with the reference `SIN` and `COS`, in the ranges that BS_FEED and LINK answer in. -/
structure BoundedRun (s : State) : Prop where
  phase : s.phase = .run
  trig : s.par.trig = .reference
  numeric : NumericOk s
  bsync : BsyncOk s
  fsm : FsmOk s

variable {i : Instr} {key : Byte} {ops : List Int}

theorem BoundedRun.continues_stateful {α : Type} {e : Except Refusal α} {k : α → Host.Outcome State Fault Refusal}
    (h : BoundedRun s) (he : RefusesWithMark e) (hk : ∀ a, e = .ok a → Continues s (k a)) :
    Continues s (runOnly s (withOperand e k)) := by
  rw [runOnly_run h.phase]
  exact continues_withOperand h.numeric he hk

/-- BS_FEED of an s16 answers in a bounded state (R94, R145). -/
theorem BoundedRun.bsFeed_ok (h : BoundedRun s) (hx : isS16 x = true) :
    ∃ t, bsFeed x (beginOp s) = .ok t ∧ NumericOk t := by
  obtain ⟨t, ht⟩ := bsFeed_answers (s := beginOp s) h.trig h.numeric h.bsync h.fsm hx
  exact ⟨t, ht, numericOk_bsFeed (s := beginOp s) h.trig h.numeric hx ht⟩

theorem BoundedRun.linkBit_ok (h : BoundedRun s) (bit : Bool) :
    ∃ t, linkBit bit (beginOp s) = .ok t ∧ NumericOk t := by
  obtain ⟨t, ht⟩ := linkBit_answers (s := beginOp s) h.fsm bit
  exact ⟨t, ht, numericOk_linkBit (s := beginOp s) h.numeric ht⟩

theorem BoundedRun.continues_fsmOperation (h : BoundedRun s) (n : Int) : Continues s (fsmOperation fsmByte n s) := by
  refine h.continues_stateful (refusesWithMark_operandU8 n) fun v _ => ?_
  obtain ⟨⟨r, t⟩, ht⟩ := fsmByte_answers (s := beginOp s) h.fsm v
  rw [ht]
  exact continues_next (numericOk_fsmByte (s := beginOp s) (t := t) h.numeric ht)

theorem BoundedRun.continues_combinational {α : Type} {e : Except Refusal α} (h : BoundedRun s)
    (he : RefusesWithMark e) (f : α → OpResult) : Continues s (withOperand e fun a => combinational (f a) s) :=
  continues_withOperand h.numeric he fun _ _ => continues_next h.numeric

/-- Every operation but FSM_BYTE (R62). -/
theorem BoundedRun.continues_exec (h : BoundedRun s) (hi : keyOp i.key ≠ 4) : Continues s (exec i s) := by
  cases i with
  | reset => exact continues_next (numericOk_resetState h.numeric)
  | condBlock data =>
    exact h.continues_stateful (refusesWithMark_operandIq data) fun _ _ => continues_next h.numeric
  | bsFeed n =>
    refine h.continues_stateful (refusesWithMark_operandS16 n) fun v hv => continues_ofExcept (h.bsFeed_ok ?_)
    exact isS16_of_operandS16 hv
  | bitIn n =>
    exact h.continues_stateful (refusesWithMark_operandBit n) fun bit _ => continues_ofExcept (h.linkBit_ok bit)
  | crcGen data => exact h.continues_combinational (refusesWithMark_operandSeq data) _
  | crcCheck data => exact h.continues_combinational (refusesWithMark_operandSeq data) _
  | crcFold crc n => exact h.continues_combinational (refusesWithMark_operandCrcByte crc n) _
  | crcFoldRev crc n => exact h.continues_combinational (refusesWithMark_operandCrcByte crc n) _
  | oddParity n => exact h.continues_combinational (refusesWithMark_operandU8 n) _
  | fsmByteHeadLost n | fsmByteHeadFound n | fsmByteSync n | fsmByteText n | fsmByteCrc1 n | fsmByteCrc2 n
  | fsmByteEnd n => simp [keyOp, Instr.key] at hi

/-- Every operation that the decoder selects (R61). -/
theorem BoundedRun.continues_decoded (h : BoundedRun s) (hd : decode (formKey key s.fsm.state) ops = .ok i) :
    Continues s (exec i s) := by
  by_cases hi : keyOp i.key = 4
  · obtain ⟨-, n, hn⟩ := runsFsmByte_of_decodeFsm (decodeFsm_of_decode hd hi)
    rw [hn s rfl]
    exact h.continues_fsmOperation n
  · exact h.continues_exec hi

/-- A configuration write is turned away with its mark (R17). -/
theorem BoundedRun.continues_configWrite (h : BoundedRun s) (w : CfgWrite) : Continues s (configWrite w s) := by
  rw [configWrite_run h.phase]
  exact continues_refused h.numeric rfl

/-- A transaction that selects no operation is refused with a mark: the tag 7 does not occur (R64, R127, R146). -/
theorem BoundedRun.continues_rejected {r : Reject} (h : BoundedRun s)
    (hd : decode (formKey key s.fsm.state) ops = .error r) :
    Continues s (rejected r (formKey key s.fsm.state) ops s) := by
  cases r with
  | reservedOp => exact continues_refused h.numeric rfl
  | noKey => exact continues_refused h.numeric rfl
  | operandShape =>
    simp only [rejected]
    split
    · exact continues_refused h.numeric rfl
    · exact continues_refused h.numeric rfl
  | badState => exact absurd (decode_badState hd) (fsmOk_tag h.fsm)

/-! ### The step -/

/-- Settles O21: whatever a step serves, the run goes on from the state without it, in a bounded state. -/
theorem noFaultUnderReferenceParameters : Obligations.NoFaultUnderReferenceParameters := by
  intro s ht hinv hn hp
  obtain ⟨⟨-, -, -, hs16⟩, hb, -, hf⟩ := hinv.2 hp
  rcases fetch_cases s with ⟨x, xs, more, hs, hfetch⟩ | ⟨more, hfetch, -⟩
  · have hu : BoundedRun { s with stream := xs, schedule := more } := ⟨hp, ht, hn, hb, hf⟩
    obtain ⟨t, hfeed, hbound⟩ := hu.bsFeed_ok (hs16 x (by rw [hs]; exact List.mem_cons_self))
    rw [step, hfetch]
    exact ⟨t, congrArg ofExcept hfeed, hbound⟩
  · have hu (rest : List HostItem) : BoundedRun { s with schedule := more, inbox := rest } := ⟨hp, ht, hn, hb, hf⟩
    rcases fetchHost_cases { s with schedule := more } with ⟨-, hh⟩ | ⟨w, rest, -, hh⟩ |
      ⟨key, ops, rest, i, -, hd, hh⟩ | ⟨key, ops, rest, r, -, hd, hh⟩
    · rw [step, hfetch, hh]
      exact ⟨beginOp s, rfl, hn⟩
    · rw [step, hfetch, hh]
      exact (hu rest).continues_configWrite w
    · rw [step, hfetch, hh]
      exact (hu rest).continues_decoded hd
    · rw [step, hfetch, hh]
      exact (hu rest).continues_rejected hd

end Sys2Proof.Machine
end

section
/-! PROOFS. RESET from both phases, the state it leads to from power-on, and the invariant there (70_reset_and_hazards.md
R158, R161, 00_scope.md R6). -/

namespace Sys2Proof.Machine

open Sys2Proof.Safety

variable {s : State}

/-! ### RESET -/

theorem exec_reset (s : State) : exec .reset s = .next (resetState s) := rfl

/-- Settles O13: RESET replaces each agent's state by its reset record and clears the outputs, and these hold the values
of the table. -/
theorem resetAssignsEveryResetValue : Obligations.ResetAssignsEveryResetValue := by
  intro s
  refine ⟨resetState s, exec_reset s, resetState_phase s, resetState_cfg s, resetState_par s, resetState_refusals s, ?_⟩
  rw [resetState_cond, resetState_bsync, resetState_link, resetState_fsm, resetState_out]
  simp [Cond.reset, Bsync.reset, ringGet_replicate, Real64.zero, Link.reset, Fsm.reset, Outputs.empty]

/-! ### Power-on -/

/-- RESET replaces everything that power-on leaves undefined (R158, R161). -/
theorem resetState_of_powerOn (h : s.isPowerOn) (hin : s.inbox = []) (hsched : s.schedule = []) :
    resetState s = State.reset := by
  obtain ⟨-, hcfg, hpar, -, hstream, href⟩ := h
  simp only [resetState, State.reset, hcfg, hpar, hstream, href, hin, hsched]

/-- Settles O14. -/
theorem powerOnThenResetIsReset : Obligations.PowerOnThenResetIsReset := by
  intro s h hin hsched
  rw [exec_reset, resetState_of_powerOn h hin hsched]

theorem isPowerOn_powerOn : State.powerOn.isPowerOn := ⟨rfl, rfl, rfl, rfl, rfl, rfl⟩

/-! ### The invariant -/

/-- The default configuration is in range for the reference parameters (R6, R17). -/
theorem configOk_of_default (hp : s.par = Params.ref) (hc : s.cfg = Cfg.default) : ConfigOk s := by
  have hpos : Real64.lt Real64.zero Cfg.default.deemphA = true := by decide +kernel
  have hone : Real64.le Cfg.default.deemphA (Real64.ofInt 1) = true := by decide +kernel
  rw [ConfigOk, hp, hc]
  exact ⟨by decide, le_rfl, by decide, List.length_replicate, hpos, hone⟩

/-- At power-on the phase is CONFIG, where the invariant asks nothing of the agents (R18, R161). -/
theorem inv_of_powerOn (h : s.isPowerOn) : Inv s := by
  obtain ⟨hph, hcfg, hpar, -⟩ := h
  exact ⟨configOk_of_default hpar hcfg, fun hrun => by simp [hph] at hrun⟩

/-- Settles O18: the reset state is RESET's from power-on, and RESET establishes the invariant. -/
theorem resetStateMeetsInvariant : Obligations.ResetStateMeetsInvariant := by
  have h : Inv (resetState State.powerOn) := inv_resetState (inv_of_powerOn isPowerOn_powerOn) rfl
  rwa [resetState_of_powerOn isPowerOn_powerOn rfl rfl] at h

end Sys2Proof.Machine
end
